-- ==== Sys2Proof/Word.lean ====
section
/-! DEFINITION. The words of the block (R10, R11, R73): 8-bit bytes, 32-bit register and sample words. -/

namespace Sys2Proof

/-- A byte of host memory (R70 (b)). -/
abbrev Byte := BitVec 8

/-- A 32-bit register, command or sample word (R10). -/
abbrev Word := BitVec 32

/-- A binary32 value, held as its 32-bit encoding (R11). -/
abbrev F32 := BitVec 32

end Sys2Proof
end

