-- ==== Sys2Proof/Config.lean ====
section
/-! DEFINITION. The build parameters of R7, the platform's declarations, and the free values the spec leaves open. -/

namespace Sys2Proof

/-- `BANDLIMIT` (R7): the canonical PolyBLEP generators or the naive ones. -/
inductive Bandlimit where
  | polyblep
  | naive
  deriving DecidableEq, Repr

/-- A range of writable host memory that the launch declares (R79): `size` bytes from `base` on. -/
structure Region where
  base : Nat
  size : Nat
  deriving DecidableEq, Repr

/-- The build parameters of R7, fixed before the block exists and never changed (R260), with the platform's
declarations: the writable memory of R79 and the known beginning of the external noise stream (R186). -/
structure Config where
  /-- `SAMPLE_RATE`, 1 to 2^24. -/
  sampleRate : Nat
  /-- `TRACK_COUNT`, 1 to 256. -/
  trackCount : Nat
  /-- `SINE_TABLE_BITS`, 2 to 16. -/
  sineTableBits : Nat
  /-- `SINE_INTERP`. -/
  sineInterp : Bool
  /-- `NOTE_ON_RESETS_PHASE` (R9). -/
  noteOnResetsPhase : Bool
  /-- `BANDLIMIT`. -/
  bandlimit : Bandlimit
  /-- `MAX_STAGE_TIME_MS`, a finite binary32 of at least 1.0. -/
  maxStageTimeMs : F32
  /-- `REG_BASE`, a multiple of 0x2000. -/
  regBase : Nat
  /-- The memory the launch declares writable (R79, U2). -/
  memory : List Region
  /-- The first values of the external noise stream, where they are known (R60 "injectable"); every later
  value is a free draw. -/
  noise : List F32
  deriving DecidableEq, Repr

/-- FREE VALUE (log 8): the k-th value taken for a point the spec leaves unspecified (U3, U4, U5, U6).
It has no body, so no proof can see what it is. -/
opaque Config.free : Nat → Nat

/-- FREE VALUE (log 7): the k-th draw of the external noise source, before it is put into [−1, 1] (R186, U9). -/
opaque Config.freeNoise : Nat → Word

/-- FREE VALUE (log 6): the bits an operation's NaN result carries beside the ones that make it a quiet NaN,
from the operation's number and its operands (R11 leaves them to IEEE 754, which leaves them open). -/
opaque Config.nanBits : Nat → F32 → F32 → Word

/-- FREE VALUE (log 12): `int(x)` of an x that is not finite or not integral, for which R12 defines nothing. -/
opaque Config.intOutside : F32 → Int

/-- FREE VALUE (log 9): what the byte of host memory at an address held before anything was written there. -/
opaque Config.initialByte : Nat → Byte

end Sys2Proof
end

