-- ==== Sys2Proof/Syntax.lean ====
section
/-! DEFINITION. The instructions: the eight commands of R94, one constructor per row of spec/opcode_table.json. -/

namespace Sys2Proof

/-- A command as its command word gives it (R90): the opcode, and the track index of a track command.
The operands in ARG0 and ARG1 are registers (R47, R48, R101) and are read when the command is presented (R123). -/
inductive Instr where
  /-- RENDER base, n (R210). -/
  | render
  /-- NOTE_ON t (R164). -/
  | noteOn (t : Nat)
  /-- NOTE_OFF t (R163). -/
  | noteOff (t : Nat)
  /-- SET_FREQUENCY t, hz (R187). -/
  | setFrequency (t : Nat)
  /-- SET_WAVEFORM t, type (R188). -/
  | setWaveform (t : Nat)
  /-- SET_ENVELOPE t, a, d, s, r (R162). -/
  | setEnvelope (t : Nat)
  /-- ENABLE_PWM t, hz, depth (R203). -/
  | enablePwm (t : Nat)
  /-- DISABLE_PWM t (R204). -/
  | disablePwm (t : Nat)
  deriving DecidableEq, Repr

/-- The track index of a command word, bits 15:8; RENDER names no track and carries 0 (R92, R93). -/
def Instr.track : Instr → Nat
  | .render => 0
  | .noteOn t => t
  | .noteOff t => t
  | .setFrequency t => t
  | .setWaveform t => t
  | .setEnvelope t => t
  | .enablePwm t => t
  | .disablePwm t => t

/-- The opcode of R94. -/
def Instr.opcode : Instr → Nat
  | .render => 0x01
  | .noteOn _ => 0x02
  | .noteOff _ => 0x03
  | .setFrequency _ => 0x04
  | .setWaveform _ => 0x05
  | .setEnvelope _ => 0x06
  | .enablePwm _ => 0x07
  | .disablePwm _ => 0x08

end Sys2Proof
end

