-- ==== Sys2Proof/WellFormed.lean ====
section
/-! DEFINITION. What a command word can carry (R92) and which builds are legal (R7). -/

namespace Sys2Proof

/-- A command a word can encode: the track index fits the 8-bit TRACK field (R92). Whether the build has that
track is the check of R124 (3), not a matter of form. -/
def Instr.wellFormed (i : Instr) : Bool := i.track < 256

/-- A binary32 encoding in [−1, 1] that is no NaN; −0.0 is one (R186). -/
def noiseInRange (v : F32) : Bool := v.toNat % 0x80000000 ≤ 0x3F800000

/-- The legal ranges of R7, a declared memory inside the 2^32-byte space (R70 (b)), and a noise stream that
keeps the source's range (R186). -/
def Config.wellFormed (c : Config) : Bool :=
  1 ≤ c.sampleRate && c.sampleRate ≤ 16777216 &&
  1 ≤ c.trackCount && c.trackCount ≤ 256 &&
  2 ≤ c.sineTableBits && c.sineTableBits ≤ 16 &&
  0x3F800000 ≤ c.maxStageTimeMs.toNat && c.maxStageTimeMs.toNat < 0x7F800000 &&
  c.regBase % 0x2000 == 0 &&
  c.memory.all (fun r => r.base + r.size ≤ 4294967296) &&
  c.noise.all noiseInRange

end Sys2Proof
end

