-- ==== Sys2Proof/Decode.lean ====
section
/-! DEFINITION. The decoder of the command word (R90–R94, R100), total and rejecting by name, and the encoder
written from the same table. -/

namespace Sys2Proof

/-- Why a word, or a run of bytes, is no command. Each of the first three is ILLEGAL_COMMAND to the block
(R93, R100); the last is met only when fewer than four bytes are given (R101: every command is one 32-bit word). -/
inductive DecodeError where
  /-- OPC 0x00 or 0x09 to 0xFF (R91). -/
  | unassignedOpcode
  /-- RSVD ≠ 0 (R93). -/
  | reservedBitsSet
  /-- RENDER with TRACK ≠ 0 (R93). -/
  | renderWithTrack
  /-- Fewer bytes than one word. -/
  | truncated
  deriving DecidableEq, Repr

/-- OPC, bits 7:0 (R90). -/
def opcField (w : Word) : Nat := w.toNat % 256

/-- TRACK, bits 15:8, unsigned, not extended and not scaled (R92). -/
def trackField (w : Word) : Nat := w.toNat / 256 % 256

/-- RSVD, bits 31:16 (R90). -/
def rsvdField (w : Word) : Nat := w.toNat / 65536

/-- The command of an opcode and a track field (R94). -/
def commandOf (opc t : Nat) : Option Instr :=
  match opc with
  | 0x01 => some .render
  | 0x02 => some (.noteOn t)
  | 0x03 => some (.noteOff t)
  | 0x04 => some (.setFrequency t)
  | 0x05 => some (.setWaveform t)
  | 0x06 => some (.setEnvelope t)
  | 0x07 => some (.enablePwm t)
  | 0x08 => some (.disablePwm t)
  | _ => none

/-- The decoder of R94: it selects from OPC alone, then checks RSVD, and TRACK for RENDER. -/
def decode (w : Word) : Except DecodeError Instr :=
  match commandOf (opcField w) (trackField w) with
  | none => .error .unassignedOpcode
  | some i =>
    if rsvdField w ≠ 0 then .error .reservedBitsSet
    else if i = .render ∧ trackField w ≠ 0 then .error .renderWithTrack
    else .ok i

/-- The command word of a command (R90, R104: OPC | (t << 8)). -/
def encode (i : Instr) : Word := BitVec.ofNat 32 (i.opcode + 256 * i.track)

/-- The 32-bit word of four bytes, the first at the lowest address (R73). -/
def wordOfBytes (b0 b1 b2 b3 : Byte) : Word :=
  BitVec.ofNat 32 (b0.toNat + 256 * b1.toNat + 65536 * b2.toNat + 16777216 * b3.toNat)

/-- Byte k of a word, bits 8k+7 : 8k (R73). -/
def byteOfWord (w : Word) (k : Nat) : Byte := BitVec.ofNat 8 (w.toNat / 256 ^ k)

/-- The decoder on bytes: one little-endian word, and the rest of the bytes. -/
def decodeBytes : List Byte → Except DecodeError (Instr × List Byte)
  | b0 :: b1 :: b2 :: b3 :: rest =>
    match decode (wordOfBytes b0 b1 b2 b3) with
    | .ok i => .ok (i, rest)
    | .error e => .error e
  | _ => .error .truncated

/-- The command word of an instruction given as the opcode table numbers its bits, bits above `nbits` zero. -/
def tableWord (nbits w : Nat) : Word := BitVec.ofNat 32 (w % 2 ^ nbits)

/-- The instruction the decoder reads from a table word laid out in memory as the block's words are (R73). -/
def decodeTableWord (nbits w : Nat) : Option Instr :=
  let v := tableWord nbits w
  match decodeBytes [byteOfWord v 0, byteOfWord v 1, byteOfWord v 2, byteOfWord v 3] with
  | .ok (i, _) => some i
  | .error _ => none

end Sys2Proof
end

