-- ==== Sys2Proof/Machine/Types.lean ====
section
/-! DEFINITION. The types of the block's state: the track record (R33), the error codes (R231), the in-flight latch
(R59), host memory, and the moves of the agents around the block (R18). -/

namespace Sys2Proof.Machine

/-- `envState` (R37). -/
inductive EnvState where
  | attack
  | decay
  | sustain
  | release
  deriving DecidableEq, Repr

/-- `waveform` (R40). -/
inductive Waveform where
  | sine
  | square
  | noise
  | saw
  deriving DecidableEq, Repr

/-- The values of STATUS.ERR (R231); no other value can appear (R49). -/
inductive ErrCode where
  | ok
  | invalidTrackIndex
  | invalidParameterRange
  | invalidFrequency
  | nullBuffer
  | illegalCommand
  | misalignedBuffer
  | busy
  deriving DecidableEq, Repr

/-- A track record, exactly the fields of R33. -/
structure Track where
  enabled : Bool
  attack : BitVec 7
  decay : BitVec 7
  sustain : BitVec 7
  release : BitVec 7
  currentFactor : F32
  envState : EnvState
  phase : F32
  phaseIncrement : F32
  waveform : Waveform
  pwmPhase : F32
  pwmPhaseIncrement : F32
  pwmDepth : F32
  deriving DecidableEq, Repr

/-- The in-flight command latch (R59): the command word, ARG0 and ARG1 captured at acceptance (R123). -/
structure Latch where
  word : Word
  arg0 : Word
  arg1 : Word
  deriving DecidableEq, Repr

/-- Host memory: the bytes something has written, by address, addresses strictly rising. An unlisted byte has
no value here (log 9). -/
abbrev Memory := List Host.Cell

/-- One move of an agent (R18). Addresses are byte addresses: of the register space for the register accesses
(R70 (a)), of the sample-buffer space for the memory accesses (R70 (b)). Widths are in bytes. -/
inductive Event where
  /-- The host reads a register. -/
  | regRead (width addr : Nat)
  /-- The host writes a register. -/
  | regWrite (width addr : Nat) (data : Word)
  /-- The host polls STATUS until BUSY = 0 (R105 WAIT). -/
  | wait
  /-- The block gets its turn: it completes the command in flight (R126). -/
  | complete
  /-- The host reads a word of its own memory. -/
  | memRead (addr : Nat)
  /-- The host writes a word of its own memory. -/
  | memWrite (addr : Nat) (data : Word)
  /-- The reset input is asserted (R260). -/
  | resetAssert
  /-- The reset input is released: reset ends (R261). -/
  | resetRelease
  deriving DecidableEq, Repr

end Sys2Proof.Machine
end

