-- ==== Sys2Proof/Machine/Memory.lean ====
section
/-! DEFINITION. Host memory as the sample-buffer space of R70 (b): bytes, and little-endian words (R73). -/

namespace Sys2Proof.Machine

/-- The addresses rise strictly from `lo` on. -/
def cellsFrom (lo : Nat) : Memory → Bool
  | [] => true
  | (a, _) :: rest => decide (lo ≤ a) && cellsFrom (a + 1) rest

/-- The one canonical form of a memory: addresses strictly rising. Every listed byte counts, since an unlisted
one reads as no value (log 9). -/
def memWf (m : Memory) : Bool := cellsFrom 0 m

/-- The byte at an address, if anything has written one (log 9). -/
def readByte : Memory → Nat → Option Byte
  | [], _ => none
  | (k, v) :: rest, a => if a = k then some v else readByte rest a

/-- Write one byte, keeping the addresses in order. -/
def writeByte : Memory → Nat → Byte → Memory
  | [], a, b => [(a, b)]
  | (k, v) :: rest, a, b =>
    if a < k then (a, b) :: (k, v) :: rest
    else if a = k then (a, b) :: rest
    else (k, v) :: writeByte rest a b

/-- Write a 32-bit word, byte k of it at `a + k` (R73). -/
def writeWord (m : Memory) (a : Nat) (v : Word) : Memory :=
  writeByte (writeByte (writeByte (writeByte m a (byteOfWord v 0)) (a + 1) (byteOfWord v 1)) (a + 2) (byteOfWord v 2))
    (a + 3) (byteOfWord v 3)

/-- What a host read of one byte delivers: the byte written there, else the free content the memory had before
(log 9). -/
def hostByte (m : Memory) (a : Nat) : Byte := (readByte m a).getD (Config.initialByte a)

/-- What a host read of a word delivers (R73). -/
def hostWord (m : Memory) (a : Nat) : Word :=
  wordOfBytes (hostByte m a) (hostByte m (a + 1)) (hostByte m (a + 2)) (hostByte m (a + 3))

/-- The word at an address, if all four bytes have been written. -/
def readWord (m : Memory) (a : Nat) : Option Word :=
  match readByte m a, readByte m (a + 1), readByte m (a + 2), readByte m (a + 3) with
  | some b0, some b1, some b2, some b3 => some (wordOfBytes b0 b1 b2 b3)
  | _, _, _, _ => none

/-- The launch declares the byte writable (R79). -/
def byteDeclared (c : Config) (a : Nat) : Bool := c.memory.any (fun r => decide (r.base ≤ a) && decide (a < r.base + r.size))

/-- The launch declares all four bytes of the word writable (R79). -/
def wordDeclared (c : Config) (a : Nat) : Bool :=
  byteDeclared c a && byteDeclared c (a + 1) && byteDeclared c (a + 2) && byteDeclared c (a + 3)

/-- The launch declares the whole buffer of n frames at base, `[base, base + 8n)` (R79, U2). -/
def bufferDeclared (c : Config) (base n : Nat) : Bool :=
  (List.range (2 * n)).all (fun j => wordDeclared c (base + 4 * j))

end Sys2Proof.Machine
end

