-- ==== Sys2Proof/Machine/Float.lean ====
section
/-! DEFINITION. IEEE 754 binary32 as R11 and R12 fix it: one rounding per primitive, ties to even, subnormals kept.
A finite value is an integer number of units of 2^-149, so every primitive computes exactly over the integers
and rounds once at the end. -/

namespace Sys2Proof.Machine

/-- The sign bit, bit 31 (R11). -/
def fsign (x : F32) : Bool := 0x80000000 ≤ x.toNat

/-- The encoding without its sign bit, bits 30:0. -/
def fmag (x : F32) : Nat := x.toNat % 0x80000000

/-- The encoding of a sign and the bits 30:0. -/
def fpack (neg : Bool) (mag : Nat) : F32 := BitVec.ofNat 32 (mag + if neg then 0x80000000 else 0)

/-- Neither an infinity nor a NaN (R12 `isFinite`). -/
def isFinite (x : F32) : Bool := fmag x < 0x7F800000

/-- An infinity. -/
def isInf (x : F32) : Bool := fmag x = 0x7F800000

/-- A NaN. -/
def isNaN (x : F32) : Bool := 0x7F800000 < fmag x

/-- The units of 2^-149 that a finite encoding without its sign stands for: the fraction alone when the biased exponent
is 0, else the fraction with its leading one, scaled by the exponent (R11). -/
def magUnits (m : Nat) : Nat :=
  if m / 0x800000 = 0 then m else (0x800000 + m % 0x800000) * 2 ^ (m / 0x800000 - 1)

/-- The magnitude of a finite value, in units of 2^-149. -/
def funits (x : F32) : Nat := magUnits (fmag x)

/-- A finite value as an integer number of units of 2^-149. -/
def fvalue (x : F32) : Int := if fsign x then -(funits x : Int) else funits x

/-- How many low bits binary32 cannot hold of a magnitude whose whole part is q units. -/
def roundShift (q : Nat) : Nat := Nat.log2 q - 23

/-- The nearest integer to num / den, ties to even (R12, roundTiesToEven). -/
def roundNearest (num den : Nat) : Nat :=
  let m := num / den
  let r := num % den
  if den < 2 * r ∨ (2 * r = den ∧ m % 2 = 1) then m + 1 else m

/-- The encoding, without sign, of the binary32 value nearest to num / den units of 2^-149, ties to even; a
magnitude that rounds past the largest finite value gives infinity. A significand that rounds up to the next
power of two carries into the exponent field. -/
def roundMag (num den : Nat) : Nat :=
  let k := roundShift (num / den)
  min (k * 0x800000 + roundNearest num (den * 2 ^ k)) 0x7F800000

/-- One unit of the integer scale: 1.0 is 2^149 units of 2^-149. -/
def unitScale : Nat := 2 ^ 149

/-- RN(num / den) of a non-negative rational, as a magnitude (R12 `RN`). -/
def roundRatio (num den : Nat) : F32 := fpack false (roundMag (num * unitScale) den)

/-- A quiet NaN. Which one IEEE 754 leaves open: the other bits are a free value (log 6). -/
def quietNaN (op : Nat) (a b : F32) : F32 := Config.nanBits op a b ||| 0x7FC00000#32

/-- An exact integer number of units, not zero, rounded once. -/
def roundUnits (z : Int) : F32 := fpack (z < 0) (roundMag z.natAbs 1)

/-- `fadd` (R12). An exact sum of zero is +0 unless both operands are negative zeros. -/
def fadd (a b : F32) : F32 :=
  if isNaN a || isNaN b then quietNaN 0 a b
  else if isInf a then (if isInf b && fsign a != fsign b then quietNaN 0 a b else a)
  else if isInf b then b
  else
    let z := fvalue a + fvalue b
    if z = 0 then fpack (fsign a && fsign b) 0 else roundUnits z

/-- The same encoding with the sign bit inverted. -/
def fnegate (x : F32) : F32 := fpack (!fsign x) (fmag x)

/-- `fsub` (R12): the sum with the negated second operand. -/
def fsub (a b : F32) : F32 :=
  if isNaN a || isNaN b then quietNaN 1 a b
  else if isInf a && isInf b && fsign a == fsign b then quietNaN 1 a b
  else fadd a (fnegate b)

/-- `fmul` (R12). The product's sign is the exclusive or of the signs; infinity times zero is a NaN. -/
def fmul (a b : F32) : F32 :=
  let s := fsign a != fsign b
  if isNaN a || isNaN b then quietNaN 2 a b
  else if isInf a then (if fmag b = 0 then quietNaN 2 a b else fpack s 0x7F800000)
  else if isInf b then (if fmag a = 0 then quietNaN 2 a b else fpack s 0x7F800000)
  else fpack s (roundMag (funits a * funits b) unitScale)

/-- `fdiv` (R12). Zero over zero and infinity over infinity are NaNs; a finite value over zero is an infinity. -/
def fdiv (a b : F32) : F32 :=
  let s := fsign a != fsign b
  if isNaN a || isNaN b then quietNaN 3 a b
  else if isInf a then (if isInf b then quietNaN 3 a b else fpack s 0x7F800000)
  else if isInf b then fpack s 0
  else if fmag b = 0 then (if fmag a = 0 then quietNaN 3 a b else fpack s 0x7F800000)
  else fpack s (roundMag (funits a * unitScale) (funits b))

/-- `toF32(n)` (R12): the integer rounded to binary32. -/
def toF32 (n : Nat) : F32 := roundRatio n 1

/-- `ffloor` (R12), roundToIntegralTowardNegative; exact, and a zero result keeps the operand's sign. -/
def ffloor (x : F32) : F32 :=
  if isNaN x then quietNaN 4 x x
  else if isInf x then x
  else
    let z := fvalue x / (unitScale : Int)
    if z = 0 then fpack (fsign x) 0 else roundUnits (z * unitScale)

/-- A finite value that is an integer. -/
def isIntegral (x : F32) : Bool := isFinite x && fvalue x % (unitScale : Int) == 0

/-- `int(x)` of an integral, finite x (R12). R12 ends there: of any other x, finite or not, the value is free, which is
the model's choice (log 12); no rule reaches such an x. -/
def fint (x : F32) : Int := if isIntegral x then fvalue x / (unitScale : Int) else Config.intOutside x

/-- The order of the values that are no NaN, infinities included: the encoding's magnitude with its sign.
Both zeros are 0. -/
def fkey (x : F32) : Int := if fsign x then -(fmag x : Int) else fmag x

/-- The ordered comparison `<` (R12): false when either operand is a NaN. -/
def flt (a b : F32) : Bool := !isNaN a && !isNaN b && decide (fkey a < fkey b)

/-- The ordered comparison `≤` (R12); `a ≥ b` is `fle b a` and `a > b` is `flt b a`. -/
def fle (a b : F32) : Bool := !isNaN a && !isNaN b && decide (fkey a ≤ fkey b)

/-- ZERO = +0.0 (R13). -/
def fZero : F32 := 0x00000000#32
/-- ONE = 1.0 (R13). -/
def fOne : F32 := 0x3F800000#32
/-- NEG_ONE = −1.0 (R13). -/
def fNegOne : F32 := 0xBF800000#32
/-- PI = RN(π) (R13). -/
def fPi : F32 := 0x40490FDB#32
/-- TWO_PI = RN(2π) (R13). -/
def fTwoPi : F32 := 0x40C90FDB#32
/-- THOUSAND = 1000.0 (R13). -/
def fThousand : F32 := 0x447A0000#32

end Sys2Proof.Machine
end

