-- ==== Sys2Proof/Machine/Params.lean ====
section
/-! DEFINITION. The derived constants of R8 and the phase primitives of R15 and R16. -/

namespace Sys2Proof.Machine

/-- N = 2^SINE_TABLE_BITS (R8). -/
def tableSize (c : Config) : Nat := 2 ^ c.sineTableBits

/-- The largest ADSR parameter, MAX_PARAM (R7). -/
def maxParam : Nat := 126

/-- FACTOR_PER_STEP = RN(1/127) (R8). -/
def factorPerStep : F32 := roundRatio 1 127

/-- STAGE_UNIT_MS = fdiv(MAX_STAGE_TIME_MS, 127.0) (R8). -/
def stageUnitMs (c : Config) : F32 := fdiv c.maxStageTimeMs 0x42FE0000#32

/-- SR_F = toF32(SAMPLE_RATE) (R8). -/
def sampleRateF (c : Config) : F32 := toF32 c.sampleRate

/-- The fixed-point scale of the model's own evaluation of π and of the sine: 128 bits below the point (log 11). -/
def fixBits : Nat := 128

/-- π rounded down to a multiple of 2^-128 (log 11). -/
def piFixed : Nat := 1069028584064966747859680373161870783300

/-- TABLE_SCALE = RN(N / (2π)) (R8), with π to 128 bits (log 11). -/
def tableScale (c : Config) : F32 := roundRatio (tableSize c * 2 ^ fixBits) (2 * piFixed)

/-- `wrap(p)` (R15): two conditional subtractions of TWO_PI. -/
def wrap (p : F32) : F32 :=
  let p := if fle fTwoPi p then fsub p fTwoPi else p
  if fle fTwoPi p then fsub p fTwoPi else p

/-- `incr(hz)` (R16). -/
def incr (c : Config) (hz : F32) : F32 := fdiv (fmul fTwoPi hz) (sampleRateF c)

/-- 440.0, the frequency of a track after reset (R61). -/
def resetHz : F32 := 0x43DC0000#32

end Sys2Proof.Machine
end

