-- ==== Sys2Proof/Machine/Reset.lean ====
section
/-! DEFINITION. The reset values of R61 and the build `State.reset` is given. -/

namespace Sys2Proof.Machine

/-- The build of `State.reset`: the common setup of spec/95_test_vectors.md.
DESIGN CHOICE (log 1, 2, 3): R7 leaves every one of these OPEN. Unsafe for a claim about this build alone; every
claim about a state holds for the state's own build. -/
def resetBuild : Config where
  sampleRate := 44100
  trackCount := 1
  sineTableBits := 10
  sineInterp := false
  noteOnResetsPhase := true
  bandlimit := .polyblep
  maxStageTimeMs := 0x449EC000#32
  regBase := 0
  memory := [⟨0, 4294967296⟩]
  noise := []

/-- A track after reset (R61): disabled, Sine, 440 Hz, envelope (0, 0, 126, 0) held at full level, PWM off. -/
def resetTrack (c : Config) : Track where
  enabled := false
  attack := 0#7
  decay := 0#7
  sustain := 126#7
  release := 0#7
  currentFactor := fOne
  envState := .sustain
  phase := fZero
  phaseIncrement := incr c resetHz
  waveform := .sine
  pwmPhase := fZero
  pwmPhaseIncrement := fZero
  pwmDepth := fZero

/-- Every track after reset (R61). -/
def resetTracks (c : Config) : List Track := List.replicate c.trackCount (resetTrack c)

/-- CMD, ARG0 and ARG1 after reset (R61). -/
def resetRegister : Word := 0x00000000#32

end Sys2Proof.Machine
end

