-- ==== Sys2Proof/Machine/State.lean ====
section
/-! DEFINITION. The machine's state (R30), the reasons a step can stop, and the state after reset (R61). -/

namespace Sys2Proof.Machine

/-- Everything the spec gives the machine (R30), with the moves still to come and the model's own counters. -/
structure State where
  /-- The build parameters, constants (R7, R30 (e)). -/
  cfg : Config
  /-- The track records, one for each t < TRACK_COUNT (R33). -/
  tracks : List Track
  /-- CMD (R46). -/
  cmd : Word
  /-- ARG0 (R47). -/
  arg0 : Word
  /-- ARG1 (R48). -/
  arg1 : Word
  /-- STATUS.ERR (R49). -/
  err : ErrCode
  /-- The in-flight command latch (R59); STATUS.BUSY is 1 exactly while it holds a command (log 19). -/
  latch : Option Latch
  /-- The reset input is held asserted (R260, U10; log 14). -/
  inReset : Bool
  /-- Host memory, the sample-buffer space (R70 (b)). -/
  mem : Memory
  /-- The model's own: the words of the in-flight buffer the host wrote since acceptance (R86; log 22). -/
  raced : List Nat
  /-- The model's own: how many draws the external noise source has delivered (R186; log 7). -/
  noiseDrawn : Nat
  /-- The model's own: how many free values have been taken (log 8). -/
  fresh : Nat
  /-- The model's own: the data of the host's last read (log 10). -/
  rdata : Word
  /-- The model's own: the moves still to come, the next one first (log 4). -/
  agenda : List Event
  deriving DecidableEq, Repr

/-- Why the machine stops. -/
inductive Fault where
  /-- Raised by the completion of a RENDER whose buffer the launch does not declare writable: the spec gives it no
  completion step (U2, stuck). Safe. -/
  | bufferNotWritable
  /-- Raised by step when the latch holds a word that is no command: no run reaches it (R128). Safe (log 16). -/
  | illegalLatch
  /-- Raised by the host's own access to an address where the launch declares no memory (R79). Safe (log 18). -/
  | noSuchMemory
  deriving DecidableEq, Repr

/-- What the model gives no transition for. -/
inductive Refusal where
  /-- Raised by exec for an instruction that has no meaning yet. Safe. -/
  | notModelled (mnemonic : String)
  /-- Raised by a register access that is not 32 bits wide or not at a multiple of 4 (R71, U1 refuse). Safe. -/
  | registerAccessShape
  /-- Raised by a register access outside the 8 KiB window: it is not the block's (R53). Safe. -/
  | outsideRegisterWindow
  /-- Raised by a register access while reset is asserted (R130, U10 refuse). Safe. -/
  | accessDuringReset
  /-- Raised by the completion of a RENDER that would draw a noise value outside [−1, 1] (U8 refuse). Safe. -/
  | noiseDrawOutOfRange
  /-- Raised by the host's own memory access that is not an aligned word: the spec states the buffer's visibility per
  word (R81 (b), R86). Safe (log 18). -/
  | hostMemoryShape
  deriving DecidableEq, Repr

/-- The machine of a build right after reset (R61), with nothing left to do. -/
def State.resetOf (c : Config) : State where
  cfg := c
  tracks := resetTracks c
  cmd := resetRegister
  arg0 := resetRegister
  arg1 := resetRegister
  err := .ok
  latch := none
  inReset := false
  mem := []
  raced := []
  noiseDrawn := 0
  fresh := 0
  rdata := 0x00000000#32
  agenda := []

/-- The machine right after reset (R61), in the build of the test vectors (log 1). -/
def State.reset : State := State.resetOf resetBuild

end Sys2Proof.Machine
end

