-- ==== Sys2Proof/Machine/Ops.lean ====
section
/-! DEFINITION. The named operations every command shares: rejection, acceptance, completion (R120–R125, R232), and
the change of one track. -/

namespace Sys2Proof.Machine

/-- What a step or a meaning answers. -/
abbrev Out := Host.Outcome State Fault Refusal

/-- STATUS.BUSY (R49): 1 from acceptance to completion, that is while the latch holds a command (R59). -/
def isBusy (s : State) : Bool := s.latch.isSome

/-- `raise <Error>(code)` (R232): ERR takes the code and nothing else changes. This is what stands for taking an
exception in this block (R237): there is no handler, no saved state and no return. -/
def reject (e : ErrCode) (s : State) : State := { s with err := e }

/-- Acceptance (R121, R123): ERR ← 0, and the command word, ARG0 and ARG1 are latched, which sets BUSY. -/
def accept (word : Word) (s : State) : State := { s with err := .ok, latch := some ⟨word, s.arg0, s.arg1⟩ }

/-- The end of a completion (R125): the latch is emptied, which clears BUSY; ERR is not changed. The record of host
writes to the buffer in flight ends with the flight (log 22). -/
def finish (s : State) : State := { s with latch := none, raced := [] }

/-- Change track t, and no other (R243). -/
def modifyTrack (t : Nat) (f : Track → Track) (s : State) : State := { s with tracks := s.tracks.modify t f }

/-- One command, in the phase the block is in (log 5). While the latch is empty the command is being presented: its
checks decide between rejection and acceptance (R121, R124). While the latch holds it, it is being completed, with the
latched operands alone (R123, R125). -/
def runCommand (i : Instr) (check : State → Option ErrCode) (effect : Latch → State → Out) (s : State) : Out :=
  match s.latch with
  | none =>
    match check s with
    | some e => .next (reject e s)
    | none => .next (accept (encode i) s)
  | some l => effect l s

/-- The checks of a track command: its track (R124 (3)), then its own (R124 (4)), on ARG0 and ARG1. -/
def trackCheck (t : Nat) (check : Config → Word → Word → Option ErrCode) (s : State) : Option ErrCode :=
  if s.cfg.trackCount ≤ t then some .invalidTrackIndex else check s.cfg s.arg0 s.arg1

/-- A track command: its checks, and at completion one change of its track. -/
def trackCommand (i : Instr) (check : Config → Word → Word → Option ErrCode) (change : Config → Latch → Track → Track)
    (s : State) : Out :=
  runCommand i (trackCheck i.track check) (fun l s => .next (finish (modifyTrack i.track (change s.cfg l) s))) s

/-- A command without operand checks of its own (R102: unused argument registers are never checked). -/
def noCheck (_ : Config) (_ _ : Word) : Option ErrCode := none

end Sys2Proof.Machine
end

