-- ==== Sys2Proof/Machine/Operands.lean ====
section
/-! DEFINITION. The operand forms of ARG0 and ARG1 and their legality (R95–R99, R189, R210). -/

namespace Sys2Proof.Machine

/-- `freqValid(hz)` (R189): finite, above ZERO, and an increment below TWO_PI. -/
def freqValid (c : Config) (hz : F32) : Bool := isFinite hz && flt fZero hz && flt (incr c hz) fTwoPi

/-- A legal PWM depth (R99): ZERO < depth ≤ ONE. -/
def depthValid (depth : F32) : Bool := flt fZero depth && fle depth fOne

/-- The waveform of a code (R40, R97); codes above 3 name none. -/
def waveformOf (code : Word) : Option Waveform :=
  match code.toNat with
  | 0 => some .sine
  | 1 => some .square
  | 2 => some .noise
  | 3 => some .saw
  | _ => none

/-- Field k of the packed envelope operand, `ARG0[8k+7 : 8k]` (R96): a, d, s, r for k = 0, 1, 2, 3. -/
def envField (arg : Word) (k : Nat) : Nat := arg.toNat / 256 ^ k % 256

/-- Every field at most 126 (R96). -/
def envelopeValid (arg : Word) : Bool :=
  envField arg 0 ≤ maxParam && envField arg 1 ≤ maxParam && envField arg 2 ≤ maxParam && envField arg 3 ≤ maxParam

/-- The operand checks of SET_FREQUENCY (R187). -/
def checkFrequency (c : Config) (arg0 _arg1 : Word) : Option ErrCode :=
  if freqValid c arg0 then none else some .invalidFrequency

/-- The operand checks of SET_WAVEFORM (R188). -/
def checkWaveform (_ : Config) (arg0 _arg1 : Word) : Option ErrCode :=
  if (waveformOf arg0).isSome then none else some .invalidParameterRange

/-- The operand checks of SET_ENVELOPE (R162). -/
def checkEnvelope (_ : Config) (arg0 _arg1 : Word) : Option ErrCode :=
  if envelopeValid arg0 then none else some .invalidParameterRange

/-- The operand checks of ENABLE_PWM, the frequency first (R203). -/
def checkPwm (c : Config) (arg0 arg1 : Word) : Option ErrCode :=
  if ¬ freqValid c arg0 then some .invalidFrequency
  else if ¬ depthValid arg1 then some .invalidParameterRange
  else none

/-- The operand checks of RENDER, in the order of R210, over exact integers (R98). -/
def checkRender (arg0 arg1 : Word) : Option ErrCode :=
  if arg0.toNat = 0 then some .nullBuffer
  else if arg0.toNat % 4 ≠ 0 then some .misalignedBuffer
  else if 4294967296 < arg0.toNat + 8 * arg1.toNat then some .invalidParameterRange
  else none

end Sys2Proof.Machine
end

