-- ==== Sys2Proof/Machine/Envelope.lean ====
section
/-! DEFINITION. The envelope engine (R150–R161) and the commands SET_ENVELOPE, NOTE_OFF and NOTE_ON (R162–R164). -/

namespace Sys2Proof.Machine

/-- `stageTime(p)` in milliseconds, for p ≥ 1 (R151). -/
def stageTime (c : Config) (p : BitVec 7) : F32 := fmul (toF32 p.toNat) (stageUnitMs c)

/-- `elapsedMs(n)` (R152). -/
def elapsedMs (c : Config) (n : Nat) : F32 := fdiv (fmul (toF32 n) fThousand) (sampleRateF c)

/-- `sustainLevel(s)` (R153), with s = 126 mapped to ONE (conflict C1). -/
def sustainLevel (s : BitVec 7) : F32 := if s.toNat = maxParam then fOne else fmul (toF32 s.toNat) factorPerStep

/-- The factor one attack advance aims at, before the clamp (R155). -/
def attackRaise (c : Config) (tr : Track) (n : Nat) : F32 :=
  fadd tr.currentFactor (fdiv (elapsedMs c n) (stageTime c tr.attack))

/-- The factor one decay advance aims at, before the clamp (R156). -/
def decayFall (c : Config) (tr : Track) (n : Nat) : F32 :=
  fsub tr.currentFactor (fdiv (elapsedMs c n) (stageTime c tr.decay))

/-- The factor one release advance aims at, before the clamp (R158). -/
def releaseFall (c : Config) (tr : Track) (n : Nat) : F32 :=
  fsub tr.currentFactor (fdiv (elapsedMs c n) (stageTime c tr.release))

/-- Attack (R155). -/
def advanceAttack (c : Config) (tr : Track) (n : Nat) : Track :=
  if tr.attack.toNat = 0 then { tr with currentFactor := fOne, envState := .decay }
  else if fle fOne (attackRaise c tr n) then { tr with currentFactor := fOne, envState := .decay }
  else { tr with currentFactor := attackRaise c tr n }

/-- Decay (R156). -/
def advanceDecay (c : Config) (tr : Track) (n : Nat) : Track :=
  let level := sustainLevel tr.sustain
  if tr.decay.toNat = 0 then { tr with currentFactor := level, envState := .sustain }
  else if fle (decayFall c tr n) level then { tr with currentFactor := level, envState := .sustain }
  else { tr with currentFactor := decayFall c tr n }

/-- Sustain (R157). -/
def advanceSustain (tr : Track) : Track := { tr with currentFactor := sustainLevel tr.sustain }

/-- Release (R158), with whether it has ended. -/
def advanceRelease (c : Config) (tr : Track) (n : Nat) : Track × Bool :=
  if tr.release.toNat = 0 then ({ tr with currentFactor := fZero }, true)
  else if fle (releaseFall c tr n) fZero then ({ tr with currentFactor := fZero }, true)
  else ({ tr with currentFactor := releaseFall c tr n }, false)

/-- `advance(t, n)` (R154): one case, that of the stage held at the start of the call (R159), and `ended`. -/
def advance (c : Config) (tr : Track) (n : Nat) : Track × Bool :=
  match tr.envState with
  | .attack => (advanceAttack c tr n, false)
  | .decay => (advanceDecay c tr n, false)
  | .sustain => (advanceSustain tr, false)
  | .release => advanceRelease c tr n

/-- The effect of SET_ENVELOPE on its track (R162). -/
def setEnvelopeChange (_ : Config) (l : Latch) (tr : Track) : Track :=
  { tr with
    attack := BitVec.ofNat 7 (envField l.arg0 0)
    decay := BitVec.ofNat 7 (envField l.arg0 1)
    sustain := BitVec.ofNat 7 (envField l.arg0 2)
    release := BitVec.ofNat 7 (envField l.arg0 3) }

/-- The effect of NOTE_OFF on its track (R163). -/
def noteOffChange (_ : Config) (_ : Latch) (tr : Track) : Track := { tr with envState := .release }

/-- The effect of NOTE_ON on its track (R164), with the phase reset of R9. -/
def noteOnChange (c : Config) (_ : Latch) (tr : Track) : Track :=
  { tr with
    currentFactor := fZero
    envState := .attack
    enabled := true
    phase := if c.noteOnResetsPhase then fZero else tr.phase
    pwmPhase := if c.noteOnResetsPhase then fZero else tr.pwmPhase }

/-- SET_ENVELOPE t, a, d, s, r (R162). -/
def execSetEnvelope (t : Nat) (s : State) : Out := trackCommand (.setEnvelope t) checkEnvelope setEnvelopeChange s

/-- NOTE_OFF t (R163). -/
def execNoteOff (t : Nat) (s : State) : Out := trackCommand (.noteOff t) noCheck noteOffChange s

/-- NOTE_ON t (R164). -/
def execNoteOn (t : Nat) (s : State) : Out := trackCommand (.noteOn t) noCheck noteOnChange s

end Sys2Proof.Machine
end

