-- ==== Sys2Proof/Machine/Sine.lean ====
section
/-! DEFINITION. The sine table and its lookup (R140–R145). T[i] = RN(sin(2πi/N)) is a fixed function of N, evaluated
here over integers with 128 bits below the point and rounded once (log 11). -/

namespace Sys2Proof.Machine

/-- The terms of the sine's power series from x^(2k+1)/(2k+1)! on, `fuel` of them, with alternating signs: `term` is the
current one, `sq` the square of the angle, in fixed point. -/
def sineSeries (sq : Nat) : Nat → Nat → Int → Int
  | 0, _, _ => 0
  | fuel + 1, k, term =>
    term - sineSeries sq fuel (k + 1) (term * sq / (2 ^ fixBits : Nat) / ((2 * k + 2) * (2 * k + 3) : Nat))

/-- sin(π·m/32768) for 0 ≤ m ≤ 16384, a quarter of the circle of 65536 steps, in fixed point. -/
def sineFixed (m : Nat) : Nat :=
  let angle := piFixed * m / 32768
  (sineSeries (angle * angle / 2 ^ fixBits) 24 0 angle).toNat

/-- The rounded sine of a quarter-circle angle, as a magnitude. -/
def quarterMag (m : Nat) : Nat := roundMag (sineFixed m * unitScale) (2 ^ fixBits)

/-- The rounded sine of angle 2π·j/65536: the four quarters by the sine's symmetry, zero always +0.0 (R140). -/
def sineStep (j : Nat) : F32 :=
  if j ≤ 16384 then fpack false (quarterMag j)
  else if j ≤ 32768 then fpack false (quarterMag (32768 - j))
  else if j ≤ 49152 then fpack true (quarterMag (j - 32768))
  else fpack true (quarterMag (65536 - j))

/-- T[i] (R140): 2πi/N is 2π·(i·65536/N)/65536, and N divides 65536. -/
def sineEntry (c : Config) (i : Nat) : F32 := sineStep (i * 2 ^ (16 - c.sineTableBits))

/-- The whole table (R45). -/
def sineTable (c : Config) : List F32 := (List.range (tableSize c)).map (sineEntry c)

/-- The masked index of an integer (R142): `n mod N`. -/
def tableIndex (c : Config) (n : Int) : Nat := (n % (tableSize c : Int)).toNat

/-- `lookup(p)` (R142–R144). -/
def lookup (c : Config) (p : F32) : F32 :=
  let x := fmul p (tableScale c)
  let fl := ffloor x
  let i0 := tableIndex c (fint fl)
  if c.sineInterp then
    let fr := fsub x fl
    let i1 := (i0 + 1) % tableSize c
    fadd (sineEntry c i0) (fmul fr (fsub (sineEntry c i1) (sineEntry c i0)))
  else sineEntry c i0

end Sys2Proof.Machine
end

