-- ==== Sys2Proof/Machine/Oscillator.lean ====
section
/-! DEFINITION. The waveform generators (R180–R186) and the commands SET_FREQUENCY and SET_WAVEFORM (R187, R188). -/

namespace Sys2Proof.Machine

/-- `blep(t, dt)` (R183), the first branch winning when both conditions hold. -/
def blep (t dt : F32) : F32 :=
  if flt t dt then
    let x := fdiv t dt
    fsub (fsub (fadd x x) (fmul x x)) fOne
  else if flt (fsub fOne dt) t then
    let x := fdiv (fsub t fOne) dt
    fadd (fadd (fadd (fmul x x) x) x) fOne
  else fZero

/-- The two-level square before band limiting (R182): +1 while the phase is below the threshold. -/
def squareNaive (phase thr : F32) : F32 := if flt phase thr then fOne else fNegOne

/-- The distance past the falling edge, wrapped by one cycle (R182, conflict C11). -/
def fallingDistance (phase thr : F32) : F32 :=
  let d := fsub phase thr
  if flt d fZero then fadd d fTwoPi else d

/-- `squareGen(phase, inc, off)` (R182). -/
def squareGen (c : Config) (phase inc off : F32) : F32 :=
  let thr := fadd fPi off
  let naive := squareNaive phase thr
  match c.bandlimit with
  | .naive => naive
  | .polyblep =>
    let t := fdiv phase fTwoPi
    let dt := fdiv inc fTwoPi
    let t2 := fdiv (fallingDistance phase thr) fTwoPi
    fsub (fadd naive (blep t dt)) (blep t2 dt)

/-- `sawGen(phase, inc)` (R184). -/
def sawGen (c : Config) (phase inc : F32) : F32 :=
  let naive := fsub (fdiv phase fPi) fOne
  match c.bandlimit with
  | .naive => naive
  | .polyblep => fsub naive (blep (fdiv phase fTwoPi) (fdiv inc fTwoPi))

/-- `sineGen(phase)` (R181). -/
def sineGen (c : Config) (phase : F32) : F32 := lookup c phase

/-- A free draw put into [−1, 1] (R186): its sign is kept, and a magnitude above 1.0 becomes 1.0. It leaves every value
of the range as it is, so every sequence of the range is a possible one (log 7). -/
def noiseClamp (w : Word) : F32 := fpack (fsign w) (min (fmag w) 0x3F800000)

/-- Draw number k of the engine-wide noise source (R186): the stream's known beginning, then free draws (log 7). -/
def noiseDraw (c : Config) (k : Nat) : F32 := (c.noise[k]?).getD (noiseClamp (Config.freeNoise k))

/-- `gen(w, phase, inc, off)` (R180), with the number of draws taken before the call and after it: only Noise takes
one (R186). -/
def gen (c : Config) (w : Waveform) (phase inc off : F32) (drawn : Nat) : F32 × Nat :=
  match w with
  | .sine => (sineGen c phase, drawn)
  | .square => (squareGen c phase inc off, drawn)
  | .noise => (noiseDraw c drawn, drawn + 1)
  | .saw => (sawGen c phase inc, drawn)

/-- The effect of SET_FREQUENCY on its track (R187). -/
def setFrequencyChange (c : Config) (l : Latch) (tr : Track) : Track := { tr with phaseIncrement := incr c l.arg0 }

/-- The effect of SET_WAVEFORM on its track (R188); a code that names no waveform was rejected at acceptance. -/
def setWaveformChange (_ : Config) (l : Latch) (tr : Track) : Track :=
  { tr with waveform := (waveformOf l.arg0).getD tr.waveform }

/-- SET_FREQUENCY t, hz (R187). -/
def execSetFrequency (t : Nat) (s : State) : Out := trackCommand (.setFrequency t) checkFrequency setFrequencyChange s

/-- SET_WAVEFORM t, type (R188). -/
def execSetWaveform (t : Nat) (s : State) : Out := trackCommand (.setWaveform t) checkWaveform setWaveformChange s

end Sys2Proof.Machine
end

