-- ==== Sys2Proof/Machine/Flags.lean ====
section
/-! DEFINITION. The words the registers show: STATUS, CONFIG and the track window's fields (R49–R58). -/

namespace Sys2Proof.Machine

/-- The numeric value of an error code (R231). -/
def errValue : ErrCode → Nat
  | .ok => 0
  | .invalidTrackIndex => 1
  | .invalidParameterRange => 2
  | .invalidFrequency => 3
  | .nullBuffer => 4
  | .illegalCommand => 5
  | .misalignedBuffer => 6
  | .busy => 7

/-- The code of `envState` (R37). -/
def envCode : EnvState → Nat
  | .attack => 0
  | .decay => 1
  | .sustain => 2
  | .release => 3

/-- The code of `waveform` (R40). -/
def waveformCode : Waveform → Nat
  | .sine => 0
  | .square => 1
  | .noise => 2
  | .saw => 3

/-- One bit of a word, at its place. -/
def bitAt (b : Bool) (place : Nat) : Nat := if b then 2 ^ place else 0

/-- STATUS (R49): BUSY in bit 0, ERR in bits 15:8, the rest 0. -/
def statusWord (s : State) : Word := BitVec.ofNat 32 (bitAt (isBusy s) 0 + 256 * errValue s.err)

/-- CONFIG (R51). -/
def configWord (c : Config) : Word :=
  BitVec.ofNat 32 (c.trackCount % 512 + 2 ^ 12 * (c.sineTableBits % 32) + bitAt c.sineInterp 17 +
    bitAt c.noteOnResetsPhase 18 + bitAt (c.bandlimit = .polyblep) 19)

/-- PWM is active exactly when the depth is above ZERO (R43, R200). -/
def pwmActive (tr : Track) : Bool := flt fZero tr.pwmDepth

/-- TCTRL (R55). -/
def tctrlWord (tr : Track) : Word :=
  BitVec.ofNat 32 (bitAt tr.enabled 0 + 2 * envCode tr.envState + 8 * waveformCode tr.waveform + bitAt (pwmActive tr) 5)

/-- TENV (R56). -/
def tenvWord (tr : Track) : Word :=
  BitVec.ofNat 32 (tr.attack.toNat + 256 * tr.decay.toNat + 65536 * tr.sustain.toNat + 16777216 * tr.release.toNat)

/-- Word i of a track's window (R54). -/
def windowWord (tr : Track) (i : Nat) : Word :=
  match i with
  | 0 => tctrlWord tr
  | 1 => tenvWord tr
  | 2 => tr.currentFactor
  | 3 => tr.phase
  | 4 => tr.phaseIncrement
  | 5 => tr.pwmPhase
  | 6 => tr.pwmPhaseIncrement
  | 7 => tr.pwmDepth
  | _ => 0

/-- The track whose window a register offset lies in, if the build has it (R54, R58). -/
def windowTrack (s : State) (off : Nat) : Option Track :=
  if 0x1000 ≤ off then s.tracks[(off - 0x1000) / 0x20]? else none

/-- What a read of a register offset delivers (R46–R58), for a window word while BUSY = 0; reserved offsets read 0
(R53). -/
def registerWord (s : State) (off : Nat) : Word :=
  match windowTrack s off with
  | some tr => windowWord tr (off % 0x20 / 4)
  | none =>
    match off with
    | 0x000 => s.cmd
    | 0x004 => s.arg0
    | 0x008 => s.arg1
    | 0x010 => statusWord s
    | 0x014 => BitVec.ofNat 32 s.cfg.sampleRate
    | 0x018 => configWord s.cfg
    | 0x01C => s.cfg.maxStageTimeMs
    | _ => 0

end Sys2Proof.Machine
end

