-- ==== Sys2Proof/Machine/Pwm.lean ====
section
/-! DEFINITION. The pulse-width modulator (R200–R202) and the commands ENABLE_PWM and DISABLE_PWM (R203, R204). -/

namespace Sys2Proof.Machine

/-- `pwmOffset(t)` (R201), from the PWM phase before it advances. -/
def pwmOffset (c : Config) (tr : Track) : F32 :=
  if pwmActive tr then fmul (lookup c tr.pwmPhase) (fmul tr.pwmDepth fPi) else fZero

/-- The PWM phase advance of one rendered sample, whether PWM is active or not (R202). -/
def advancePwmPhase (tr : Track) : Track := { tr with pwmPhase := wrap (fadd tr.pwmPhase tr.pwmPhaseIncrement) }

/-- The effect of ENABLE_PWM on its track (R203). -/
def enablePwmChange (c : Config) (l : Latch) (tr : Track) : Track :=
  { tr with pwmPhaseIncrement := incr c l.arg0, pwmDepth := l.arg1 }

/-- The effect of DISABLE_PWM on its track (R204, conflict C3). -/
def disablePwmChange (_ : Config) (_ : Latch) (tr : Track) : Track :=
  { tr with pwmDepth := fZero, pwmPhaseIncrement := fZero }

/-- ENABLE_PWM t, hz, depth (R203). -/
def execEnablePwm (t : Nat) (s : State) : Out := trackCommand (.enablePwm t) checkPwm enablePwmChange s

/-- DISABLE_PWM t (R204). -/
def execDisablePwm (t : Nat) (s : State) : Out := trackCommand (.disablePwm t) noCheck disablePwmChange s

end Sys2Proof.Machine
end

