-- ==== Sys2Proof/Machine/Render.lean ====
section
/-! DEFINITION. The renderer and mixer, and the command RENDER (R210–R219). -/

namespace Sys2Proof.Machine

/-- One frame of the accumulator: its left and right words (R74, R215). -/
abbrev Frame := F32 × F32

/-- What a rendering leaves: the tracks, the accumulator, and how many noise draws have been taken. -/
structure Rendering where
  tracks : List Track
  acc : List Frame
  drawn : Nat
  deriving DecidableEq, Repr

/-- The oscillator phase advance of one rendered sample (R214 (f)). -/
def advancePhase (tr : Track) : Track := { tr with phase := wrap (fadd tr.phase tr.phaseIncrement) }

/-- The per-sample loop of one contributing track with block factor g, over the frames it adds to (R214, R215):
offset, PWM phase, generator at the phase before it advances, scaling, mixing, phase. -/
def renderFrames (c : Config) (g : F32) : List Frame → Track → Nat → List Frame × Track × Nat
  | [], tr, d => ([], tr, d)
  | (left, right) :: rest, tr, d =>
    let off := pwmOffset c tr
    let tr1 := advancePwmPhase tr
    let (v, d1) := gen c tr1.waveform tr1.phase tr1.phaseIncrement off d
    let y := fmul v g
    let (rest', tr2, d2) := renderFrames c g rest (advancePhase tr1) d1
    ((fadd left y, fadd right y) :: rest', tr2, d2)

/-- One track's part of a RENDER of n frames (R213): a disabled track is left alone; the envelope advances once; a track
that has ended is disabled and adds nothing; else its samples are mixed in. -/
def renderTrack (c : Config) (n : Nat) (acc : List Frame) (tr : Track) (d : Nat) : List Frame × Track × Nat :=
  if tr.enabled then
    match advance c tr n with
    | (tr1, true) => (acc, { tr1 with enabled := false }, d)
    | (tr1, false) => renderFrames c tr1.currentFactor acc tr1 d
  else (acc, tr, d)

/-- Every track in ascending order (R212). -/
def renderTracks (c : Config) (n : Nat) : List Track → List Frame → Nat → Rendering
  | [], acc, d => ⟨[], acc, d⟩
  | tr :: trs, acc, d =>
    let (acc1, tr1, d1) := renderTrack c n acc tr d
    let r := renderTracks c n trs acc1 d1
    ⟨tr1 :: r.tracks, r.acc, r.drawn⟩

/-- The accumulator before any track: 2n words of +0.0 (R211). -/
def zeroFrames (n : Nat) : List Frame := List.replicate n (fZero, fZero)

/-- A whole rendering of n frames (R210). -/
def render (c : Config) (tracks : List Track) (n d : Nat) : Rendering := renderTracks c n tracks (zeroFrames n) d

/-- The accumulator as the words of the buffer, left before right (R74). -/
def frameWords : List Frame → List Word
  | [] => []
  | (left, right) :: rest => left :: right :: frameWords rest

/-- How a word of the buffer ends: with the rendered value, with either that or what it holds, or as it is. -/
inductive WordFate where
  | rendered
  | either
  | kept
  deriving DecidableEq, Repr

/-- A free choice between two (U4, U5, U6). -/
def freeBit (k : Nat) : Bool := Config.free k % 2 = 1

/-- Write words from an address on, each as its fate says; a free choice is taken from the k-th free value on (log 8). -/
def commitWords (fate : Nat → WordFate) : List Word → Nat → Memory → Nat → Memory × Nat
  | [], _, m, k => (m, k)
  | v :: vs, a, m, k =>
    match fate a with
    | .rendered => commitWords fate vs (a + 4) (writeWord m a v) k
    | .either => commitWords fate vs (a + 4) (if freeBit k then writeWord m a v else m) (k + 1)
    | .kept => commitWords fate vs (a + 4) m k

/-- The fate of a buffer word at completion (R76, R86): rendered, unless the host wrote it in flight (U4). -/
def completionFate (raced : List Nat) (a : Nat) : WordFate := if a ∈ raced then .either else .rendered

/-- The fate of a buffer word when reset abandons the RENDER (R262, U6): either value, where there is memory. -/
def abandonFate (c : Config) (a : Nat) : WordFate := if wordDeclared c a then .either else .kept

/-- The draws from `lo` up to `hi` keep the source's range, as far as the stream is known (R186, U8). -/
def drawsInRange (c : Config) (lo hi : Nat) : Bool := ((c.noise.take hi).drop lo).all noiseInRange

/-- The rendering of a latched RENDER in a state. -/
def rendering (l : Latch) (s : State) : Rendering := render s.cfg s.tracks l.arg1.toNat s.noiseDrawn

/-- The words a latched RENDER writes (R216). -/
def renderedWords (l : Latch) (s : State) : List Word := frameWords (rendering l s).acc

/-- The memory a latched RENDER leaves, and the free values it has taken. -/
def renderedMemory (l : Latch) (s : State) : Memory × Nat :=
  commitWords (completionFate s.raced) (renderedWords l s) l.arg0.toNat s.mem s.fresh

/-- The completion of RENDER (R210, R216): the tracks, the buffer and the noise source's position. Without declared
memory it has no completion (U2); a draw outside the source's range has no meaning (U8). -/
def completeRender (l : Latch) (s : State) : Out :=
  if ¬ bufferDeclared s.cfg l.arg0.toNat l.arg1.toNat then .fault .bufferNotWritable
  else if ¬ drawsInRange s.cfg s.noiseDrawn (rendering l s).drawn then .refused .noiseDrawOutOfRange
  else
    .next (finish { s with
      tracks := (rendering l s).tracks
      mem := (renderedMemory l s).1
      fresh := (renderedMemory l s).2
      noiseDrawn := (rendering l s).drawn })

/-- RENDER base, n (R210). -/
def execRender (s : State) : Out := runCommand .render (fun s => checkRender s.arg0 s.arg1) completeRender s

end Sys2Proof.Machine
end

