-- ==== Sys2Proof/Machine/Bus.lean ====
section
/-! DEFINITION. The moves around the block (R18, R130): register accesses (R46–R58, R71, R72), the presentation of a
command word (R121, R122), completion (R125, R126), the host's own memory (R81, R86) and the reset input (R260–R262).
`run` is what runs a decoded command. -/

namespace Sys2Proof.Machine

/-- The k-th free value as a word (U3). -/
def freeWord (k : Nat) : Word := BitVec.ofNat 32 (Config.free k)

/-- The offset of a byte address in the register window (R70 (a)). -/
def regOffset (c : Config) (addr : Nat) : Option Nat :=
  if c.regBase ≤ addr ∧ addr < c.regBase + 0x2000 then some (addr - c.regBase) else none

/-- The access rules of R71 and U10, in front of what the access does at its offset. -/
def registerAccess (width addr : Nat) (act : Nat → State → Out) (s : State) : Out :=
  if s.inReset then .refused .accessDuringReset
  else
    match regOffset s.cfg addr with
    | none => .refused .outsideRegisterWindow
    | some off => if width ≠ 4 ∨ off % 4 ≠ 0 then .refused .registerAccessShape else act off s

/-- A register read (R72). A word of a track's window read while BUSY = 1 is any word (R57, U3). -/
def readRegister (off : Nat) (s : State) : Out :=
  if isBusy s && (windowTrack s off).isSome then .next { s with rdata := freeWord s.fresh, fresh := s.fresh + 1 }
  else .next { s with rdata := registerWord s off }

/-- A write to CMD (R46, R121, R122, R124): the word is stored whatever comes of it; while BUSY it is rejected without
being decoded; an illegal word is rejected; a command is presented. -/
def presentWord (run : Instr → State → Out) (w : Word) (s : State) : Out :=
  if isBusy s then .next (reject .busy { s with cmd := w })
  else
    match decode w with
    | .error _ => .next (reject .illegalCommand { s with cmd := w })
    | .ok i => run i { s with cmd := w }

/-- A register write (R72): CMD presents a command, ARG0 and ARG1 store the word, everything else ignores it. -/
def writeRegister (run : Instr → State → Out) (data : Word) (off : Nat) (s : State) : Out :=
  match off with
  | 0x000 => presentWord run data s
  | 0x004 => .next { s with arg0 := data }
  | 0x008 => .next { s with arg1 := data }
  | _ => .next s

/-- The block's own step (R125, R126, R128): the command in flight completes; an idle block keeps its state (R245). -/
def completeCommand (run : Instr → State → Out) (s : State) : Out :=
  match s.latch with
  | none => .next s
  | some l =>
    match decode l.word with
    | .ok i => run i s
    | .error _ => .fault .illegalLatch

/-- The RENDER in flight, if the command in flight is one. -/
def inFlight (s : State) : Option Latch :=
  match s.latch with
  | none => none
  | some l =>
    match decode l.word with
    | .ok .render => some l
    | _ => none

/-- The word lies in the latched RENDER's buffer (R74). -/
def inBuffer (l : Latch) (a : Nat) : Bool := l.arg0.toNat ≤ a && a < l.arg0.toNat + 8 * l.arg1.toNat

/-- What the RENDER in flight will write to a word, if it writes it. -/
def inFlightWord (s : State) (a : Nat) : Option Word :=
  match inFlight s with
  | none => none
  | some l => if inBuffer l a then (renderedWords l s)[(a - l.arg0.toNat) / 4]? else none

/-- The shape and the place of the host's own memory access (log 18). -/
def memoryAccess (a : Nat) (act : State → Out) (s : State) : Out :=
  if a % 4 ≠ 0 then .refused .hostMemoryShape
  else if ¬ (a + 4 ≤ 4294967296 ∧ wordDeclared s.cfg a = true) then .fault .noSuchMemory
  else act s

/-- A host read of a memory word: in the buffer of a RENDER in flight, the old content or the final value (R81 (b), U5). -/
def readMemory (a : Nat) (s : State) : Out :=
  match inFlightWord s a with
  | none => .next { s with rdata := hostWord s.mem a }
  | some v =>
    .next { s with rdata := if freeBit s.fresh then v else hostWord s.mem a, fresh := s.fresh + 1 }

/-- Remember that the host wrote a word of the buffer in flight (R86). -/
def raceWord (s : State) (a : Nat) : List Nat :=
  match inFlight s with
  | none => s.raced
  | some l => if inBuffer l a ∧ a ∉ s.raced then a :: s.raced else s.raced

/-- A host write of a memory word (R86, U4). -/
def writeMemory (a : Nat) (v : Word) (s : State) : Out :=
  .next { s with mem := writeWord s.mem a v, raced := raceWord s a }

/-- What an abandoned RENDER leaves in memory, how many free values that took, and how many noise draws it had taken, any
number up to its own (R262, U6; log 21). -/
def abandonRender (l : Latch) (s : State) : Memory × Nat × Nat :=
  let (m, k) := commitWords (abandonFate s.cfg) (renderedWords l s) l.arg0.toNat s.mem s.fresh
  (m, k + 1, s.noiseDrawn + Config.free k % ((rendering l s).drawn - s.noiseDrawn + 1))

/-- Reset is asserted (R261, R262): every piece of the block's state takes its reset value, the command in flight is
abandoned, and the world outside the block stays but for an abandoned RENDER's buffer. -/
def assertReset (s : State) : State :=
  let after := { State.resetOf s.cfg with inReset := true, rdata := s.rdata, agenda := s.agenda }
  match inFlight s with
  | none => { after with mem := s.mem, fresh := s.fresh, noiseDrawn := s.noiseDrawn }
  | some l =>
    { after with
      mem := (abandonRender l s).1
      fresh := (abandonRender l s).2.1
      noiseDrawn := (abandonRender l s).2.2 }

/-- One move, in a state whose agenda no longer lists it. -/
def move (run : Instr → State → Out) (e : Event) (s : State) : Out :=
  match e with
  | .regRead width addr => registerAccess width addr readRegister s
  | .regWrite width addr data => registerAccess width addr (writeRegister run data) s
  | .wait => registerAccess 4 (s.cfg.regBase + 0x010) readRegister s
  | .complete => completeCommand run s
  | .memRead a => memoryAccess a (readMemory a) s
  | .memWrite a v => memoryAccess a (writeMemory a v) s
  | .resetAssert => .next (assertReset s)
  | .resetRelease => .next { s with inReset := false }

/-- One step of the machine (R18, R120): the next move of the agenda. A WAIT stays on the agenda while BUSY = 1 and lets
the block complete (R105, R126; log 20). With nothing left on the agenda a command in flight completes, and an idle
block stays as it is. -/
def stepWith (run : Instr → State → Out) (s : State) : Out :=
  match s.agenda with
  | [] => completeCommand run s
  | e :: rest =>
    if e = .wait ∧ isBusy s = true ∧ s.inReset = false then completeCommand run s
    else move run e { s with agenda := rest }

/-- The state in which the very next step is the CMD write of a word, accepted by the protocol's first check: nothing in
flight, reset released (log 4). -/
def placeCommand (w : Word) (s : State) : State :=
  { s with latch := none, raced := [], inReset := false, agenda := .regWrite 4 s.cfg.regBase w :: s.agenda }

end Sys2Proof.Machine
end

