-- ==== Sys2Proof/Machine/Dispatch.lean ====
section
/-! DEFINITION. The dispatch of R128: one arm per command, one direct call of its meaning. -/

namespace Sys2Proof.Machine

/-- One command in the phase the block is in: presented while the latch is empty, completed while it holds it. -/
def exec (i : Instr) (s : State) : Host.Outcome State Fault Refusal :=
  match i with
  | .render => Sys2Proof.Machine.execRender s
  | .noteOn t => Sys2Proof.Machine.execNoteOn t s
  | .noteOff t => Sys2Proof.Machine.execNoteOff t s
  | .setFrequency t => Sys2Proof.Machine.execSetFrequency t s
  | .setWaveform t => Sys2Proof.Machine.execSetWaveform t s
  | .setEnvelope t => Sys2Proof.Machine.execSetEnvelope t s
  | .enablePwm t => Sys2Proof.Machine.execEnablePwm t s
  | .disablePwm t => Sys2Proof.Machine.execDisablePwm t s

end Sys2Proof.Machine
end

