-- ==== Sys2Proof/Machine/Assembly.lean ====
section
/-! DEFINITION. Command lines and pseudo-instructions: their spelling, and the host's bus operations they stand for (R103–R105). -/

namespace Sys2Proof.Machine

/-- An `hz` or `depth` operand as a line writes it (R103): a decimal number, as its exact quotient, or an encoding. -/
inductive FloatOperand where
  | decimal (negative : Bool) (num den : Nat)
  | encoding (bits : Word)
  deriving DecidableEq, Repr

/-- A line of a command program (R103), pseudo-instructions included (R105). -/
inductive AsmLine where
  | render (base n : Nat)
  | noteOn (t : Nat)
  | noteOff (t : Nat)
  | setFrequency (t : Nat) (hz : FloatOperand)
  | setWaveform (t : Nat) (w : Waveform)
  | setEnvelope (t a d s r : Nat)
  | enablePwm (t : Nat) (hz depth : FloatOperand)
  | disablePwm (t : Nat)
  | wait
  | note (t : Nat) (hz : FloatOperand)
  | envDefault (t : Nat)
  | releaseAll
  deriving DecidableEq, Repr

/-! The spelling of a line (R103), over its characters. -/

/-- The value of a decimal or hexadecimal digit. -/
def digitValue (c : Char) : Option Nat :=
  let n := c.toNat
  if 48 ≤ n ∧ n ≤ 57 then some (n - 48)
  else if 65 ≤ n ∧ n ≤ 70 then some (n - 55)
  else if 97 ≤ n ∧ n ≤ 102 then some (n - 87)
  else none

/-- Digits of a base, after those already read. -/
def readDigits (base : Nat) : List Char → Nat → Option Nat
  | [], acc => some acc
  | c :: cs, acc =>
    match digitValue c with
    | none => none
    | some v => if v < base then readDigits base cs (base * acc + v) else none

/-- At least one digit. -/
def readNumber (base : Nat) (cs : List Char) : Option Nat := if cs = [] then none else readDigits base cs 0

/-- An integer operand: decimal, or hexadecimal after `0x`. -/
def readInteger : List Char → Option Nat
  | '0' :: 'x' :: cs => readNumber 16 cs
  | cs => readNumber 10 cs

/-- A decimal number without a sign, as its exact quotient. -/
def readDecimal (negative : Bool) (cs : List Char) : Option FloatOperand :=
  let whole := cs.takeWhile (· ≠ '.')
  match cs.drop whole.length with
  | [] => (readNumber 10 whole).map (fun n => .decimal negative n 1)
  | _ :: frac =>
    if whole = [] ∨ frac = [] then none
    else (readDigits 10 (whole ++ frac) 0).map (fun n => .decimal negative n (10 ^ frac.length))

/-- An `hz` or `depth` operand: a decimal number, or eight hexadecimal digits between `0x` and a trailing `f`. -/
def readFloat : List Char → Option FloatOperand
  | '0' :: 'x' :: cs =>
    if cs.length = 9 ∧ cs.drop 8 = ['f'] then (readNumber 16 (cs.take 8)).map (fun n => .encoding (BitVec.ofNat 32 n))
    else none
  | '-' :: cs => readDecimal true cs
  | cs => readDecimal false cs

/-- A waveform's name. -/
def readWaveform : List Char → Option Waveform
  | ['S', 'I', 'N', 'E'] => some .sine
  | ['S', 'Q', 'U', 'A', 'R', 'E'] => some .square
  | ['N', 'O', 'I', 'S', 'E'] => some .noise
  | ['S', 'A', 'W'] => some .saw
  | _ => none

/-- An operand without the spaces before and after it. -/
def trimSpaces (cs : List Char) : List Char :=
  ((cs.dropWhile (· = ' ')).reverse.dropWhile (· = ' ')).reverse

/-- The operands of a line, separated by commas. R103 does not say where spaces may stand: here those around an operand are
left out and one inside an operand stays, so that it is read as none, which is the model's choice (log 26). -/
def splitOperands : List Char → List Char → List (List Char)
  | [], current => [trimSpaces current.reverse]
  | c :: cs, current =>
    if c = ',' then trimSpaces current.reverse :: splitOperands cs [] else splitOperands cs (c :: current)

/-- One line of a command program, pseudo-instructions included. A line that is none is read as none. -/
def readLine (line : List Char) : Option AsmLine :=
  let name := line.takeWhile (· ≠ ' ')
  match name, splitOperands (line.drop name.length) [] with
  | ['R', 'E', 'N', 'D', 'E', 'R'], [base, n] => do return .render (← readInteger base) (← readInteger n)
  | ['N', 'O', 'T', 'E', '_', 'O', 'N'], [t] => do return .noteOn (← readInteger t)
  | ['N', 'O', 'T', 'E', '_', 'O', 'F', 'F'], [t] => do return .noteOff (← readInteger t)
  | ['S', 'E', 'T', '_', 'F', 'R', 'E', 'Q', 'U', 'E', 'N', 'C', 'Y'], [t, hz] => do
    return .setFrequency (← readInteger t) (← readFloat hz)
  | ['S', 'E', 'T', '_', 'W', 'A', 'V', 'E', 'F', 'O', 'R', 'M'], [t, w] => do
    return .setWaveform (← readInteger t) (← readWaveform w)
  | ['S', 'E', 'T', '_', 'E', 'N', 'V', 'E', 'L', 'O', 'P', 'E'], [t, a, d, s, r] => do
    return .setEnvelope (← readInteger t) (← readInteger a) (← readInteger d) (← readInteger s) (← readInteger r)
  | ['E', 'N', 'A', 'B', 'L', 'E', '_', 'P', 'W', 'M'], [t, hz, depth] => do
    return .enablePwm (← readInteger t) (← readFloat hz) (← readFloat depth)
  | ['D', 'I', 'S', 'A', 'B', 'L', 'E', '_', 'P', 'W', 'M'], [t] => do return .disablePwm (← readInteger t)
  | ['W', 'A', 'I', 'T'], [[]] => some .wait
  | ['N', 'O', 'T', 'E'], [t, hz] => do return .note (← readInteger t) (← readFloat hz)
  | ['E', 'N', 'V', '_', 'D', 'E', 'F', 'A', 'U', 'L', 'T'], [t] => do return .envDefault (← readInteger t)
  | ['R', 'E', 'L', 'E', 'A', 'S', 'E', '_', 'A', 'L', 'L'], [[]] => some .releaseAll
  | _, _ => none

/-- The word of a float operand (R103: a decimal number is converted with RN). -/
def operandWord : FloatOperand → Word
  | .decimal negative num den => fpack negative (roundMag (num * unitScale) den)
  | .encoding bits => bits

/-- The code of a waveform name (R97, R103). -/
def waveformArg : Waveform → Word
  | .sine => 0
  | .square => 1
  | .noise => 2
  | .saw => 3

/-- The packed envelope operand (R96): each operand shifted to its field and added. R104 says nothing of an operand above 255:
here it carries into the fields above, and the sum is cut to the word, which is the model's choice (log 26). -/
def envelopeArg (a d s r : Nat) : Word := BitVec.ofNat 32 (a + 256 * d + 65536 * s + 16777216 * r)

/-- The bus operations of a command line (R104): the argument registers the opcode uses, CMD, WAIT. -/
def commandLine (c : Config) (i : Instr) (args : List Word) : List Event :=
  match args with
  | [] => [.regWrite 4 c.regBase (encode i), .wait]
  | [a0] => [.regWrite 4 (c.regBase + 0x004) a0, .regWrite 4 c.regBase (encode i), .wait]
  | a0 :: a1 :: _ =>
    [.regWrite 4 (c.regBase + 0x004) a0, .regWrite 4 (c.regBase + 0x008) a1, .regWrite 4 c.regBase (encode i), .wait]

/-- SET_ENVELOPE t, a, d, s, r as a line (R104). -/
def envelopeLine (c : Config) (t a d s r : Nat) : List Event := commandLine c (.setEnvelope t) [envelopeArg a d s r]

/-- What a line stands for (R104, R105). -/
def expandLine (c : Config) : AsmLine → List Event
  | .render base n => commandLine c .render [BitVec.ofNat 32 base, BitVec.ofNat 32 n]
  | .noteOn t => commandLine c (.noteOn t) []
  | .noteOff t => commandLine c (.noteOff t) []
  | .setFrequency t hz => commandLine c (.setFrequency t) [operandWord hz]
  | .setWaveform t w => commandLine c (.setWaveform t) [waveformArg w]
  | .setEnvelope t a d s r => envelopeLine c t a d s r
  | .enablePwm t hz depth => commandLine c (.enablePwm t) [operandWord hz, operandWord depth]
  | .disablePwm t => commandLine c (.disablePwm t) []
  | .wait => [.wait]
  | .note t hz => commandLine c (.setFrequency t) [operandWord hz] ++ commandLine c (.noteOn t) []
  | .envDefault t => envelopeLine c t 0 0 126 0
  | .releaseAll => (List.range c.trackCount).flatMap (fun t => commandLine c (.noteOff t) [])

/-- What a program stands for: its lines one after another. -/
def expandProgram (c : Config) (lines : List AsmLine) : List Event := lines.flatMap (expandLine c)

end Sys2Proof.Machine
end

