-- ==== Sys2Proof/Safety.lean ====
section
/-! DEFINITION. The terms claims are stated in: the track invariants of R44, the machine's invariant, which command is in
flight, and the checks of R124 gathered per command. -/

namespace Sys2Proof.Machine

/-- A binary32 in [ZERO, TWO_PI) that is not −0.0 (R44 (i), (vi)). -/
def phaseOk (x : F32) : Bool := fle fZero x && flt x fTwoPi && x != 0x80000000#32

/-- A binary32 in [ZERO, ONE] that is not −0.0 (R44 (ii), (vi)). -/
def factorOk (x : F32) : Bool := fle fZero x && fle x fOne && x != 0x80000000#32

/-- +0.0, or a depth in (0, 1] (R33, R43). -/
def depthOk (x : F32) : Bool := x == fZero || depthValid x

/-- The track invariants of R44, with R43's: a zero depth has a zero increment. -/
def trackOk (tr : Track) : Bool :=
  phaseOk tr.phase && phaseOk tr.phaseIncrement && phaseOk tr.pwmPhase && phaseOk tr.pwmPhaseIncrement &&
  factorOk tr.currentFactor && depthOk tr.pwmDepth &&
  (tr.pwmDepth != fZero || tr.pwmPhaseIncrement == fZero) &&
  tr.attack.toNat ≤ maxParam && tr.decay.toNat ≤ maxParam && tr.sustain.toNat ≤ maxParam && tr.release.toNat ≤ maxParam

/-- The checks of R124 (3) and (4) for a command with given operands; the first that fails names the code. -/
def firstError (c : Config) (i : Instr) (arg0 arg1 : Word) : Option ErrCode :=
  match i with
  | .render => checkRender arg0 arg1
  | .noteOn t => if c.trackCount ≤ t then some .invalidTrackIndex else none
  | .noteOff t => if c.trackCount ≤ t then some .invalidTrackIndex else none
  | .setFrequency t => if c.trackCount ≤ t then some .invalidTrackIndex else checkFrequency c arg0 arg1
  | .setWaveform t => if c.trackCount ≤ t then some .invalidTrackIndex else checkWaveform c arg0 arg1
  | .setEnvelope t => if c.trackCount ≤ t then some .invalidTrackIndex else checkEnvelope c arg0 arg1
  | .enablePwm t => if c.trackCount ≤ t then some .invalidTrackIndex else checkPwm c arg0 arg1
  | .disablePwm t => if c.trackCount ≤ t then some .invalidTrackIndex else none

/-- The latch, if it holds a command, holds one that passed every check (R121, R128). -/
def latchOk (c : Config) : Option Latch → Bool
  | none => true
  | some l =>
    match decode l.word with
    | .ok i => firstError c i l.arg0 l.arg1 == none
    | .error _ => false

/-- A build in which the reset frequency is a legal one: R61 gives every track incr(440.0), and R39's bound holds for it
only then (log 13). -/
def resetIncrementOk (c : Config) : Bool := flt (incr c resetHz) fTwoPi

/-- Every written byte lies in the 2^32-byte sample-buffer space (R70 (b)). -/
def memInSpace (m : Memory) : Bool := m.all (fun cell => cell.1 < 4294967296)

/-- The machine's invariant: a legal build, TRACK_COUNT tracks (R33) that keep R44, memory in its canonical form and in its
space, a latch that holds only accepted commands, nothing in flight under reset or raced outside a flight. -/
def State.Inv (s : State) : Bool :=
  s.cfg.wellFormed && resetIncrementOk s.cfg &&
  s.tracks.length == s.cfg.trackCount && s.tracks.all trackOk &&
  memWf s.mem && memInSpace s.mem &&
  latchOk s.cfg s.latch &&
  (!s.inReset || s.latch == none) && (s.latch != none || s.raced == [])

/-- `r` is num / den rounded to nearest, ties to even (R11, R12): no finite binary32 value lies closer, and where another one
lies as close the encoding of `r` is even. -/
def NearestEven (r : F32) (num den : ℤ) : Prop :=
  ∀ v : F32, isFinite v = true →
    |fvalue r * den - num| ≤ |fvalue v * den - num| ∧
    (|fvalue r * den - num| = |fvalue v * den - num| → fvalue v ≠ fvalue r → r.toNat % 2 = 0)

/-- The least magnitude, in units of 2^-149, that rounds to infinity: half a step above the largest finite value (R11,
roundTiesToEven). -/
def overflowUnits : ℤ := (2 ^ 25 - 1) * 2 ^ 252

/-- `r` is the exact num / den units rounded once (R12): nearest, ties to even, below the overflow bound; an infinity from it
on; and with the exact value's sign, which a result that rounds to zero or overflows keeps. -/
def RoundedOnce (r : F32) (num den : ℤ) : Prop :=
  (|num| < overflowUnits * |den| → isFinite r = true ∧ NearestEven r num den) ∧
  (overflowUnits * |den| ≤ |num| → isInf r = true) ∧
  (num ≠ 0 → (fsign r = true ↔ num * den < 0))

/-- The command in flight is `i`, with the latched operands of `l`. -/
def Completing (s : State) (i : Instr) (l : Latch) : Prop := s.latch = some l ∧ decode l.word = .ok i

/-- The next move of `s` is the host's write of `w` to CMD, outside reset; `rest` follows. -/
def Presenting (s : State) (w : Word) (rest : List Event) : Prop :=
  s.agenda = .regWrite 4 s.cfg.regBase w :: rest ∧ s.inReset = false

/-- `word` is the command word of `i`: written to CMD it is rejected with code 7 while BUSY = 1 (R124 (1)); while BUSY = 0 it is
legal (R124 (2)) and presents `i`. -/
def PresentedAs (i : Instr) (word : Word) : Prop :=
  ∀ (s : State) (rest : List Event), Presenting s word rest →
    (isBusy s = true → step s = .next { s with agenda := rest, cmd := word, err := .busy }) ∧
    (isBusy s = false → step s = exec i { s with agenda := rest, cmd := word })

/-- The block's turn: the next step completes the command in flight and takes nothing from the agenda (a poll in
progress, or nothing left to do). -/
def BlockTurn (s : State) : Prop :=
  s.agenda = [] ∨ ∃ rest, s.agenda = .wait :: rest ∧ isBusy s = true ∧ s.inReset = false

/-- A safe step: it answers a next state. -/
def Proceeds (o : Out) : Prop := ∃ t, o = .next t

end Sys2Proof.Machine
end

