-- ==== Sys2Proof/Certificates/Slice0/Obligations.lean ====
section
/-! DEFINITION. The statements for the provers, from the numbered rules of spec/ (OBLIGATIONS.json lists them). -/

open Sys2Proof Sys2Proof.Machine

/-! ## Encoding (30_encoding.md) -/

/-- Every command a word can carry is read back from its own word, with its track index at every value of the TRACK
field (R90, R92, R94). -/
def Obligations.DecodeReadsEncodedCommand : Prop :=
  ∀ i : Instr, i.wellFormed = true → decode (encode i) = .ok i

/-- A word that decodes is the one word of its command: no two words mean the same command (R90, R94). -/
def Obligations.DecodedWordIsTheCommandsOwn : Prop :=
  ∀ (w : Word) (i : Instr), decode w = .ok i → i.wellFormed = true ∧ encode i = w

/-- R93, R100: the words with OPC 0x00 or 0x09–0xFF, with RSVD ≠ 0, or RENDER with TRACK ≠ 0 are illegal, and no other
word is; written to CMD while BUSY = 0 an illegal word is stored there, sets ERR to ILLEGAL_COMMAND and changes nothing
else. -/
def Obligations.IllegalWordsAreRejected : Prop :=
  ∀ w : Word,
    ((w.toNat % 256 = 0 ∨ 8 < w.toNat % 256 ∨ w.toNat / 65536 ≠ 0 ∨ (w.toNat % 256 = 1 ∧ w.toNat / 256 % 256 ≠ 0)) →
      ∀ (s : State) (rest : List Event), Presenting s w rest → isBusy s = false →
        step s = .next { s with agenda := rest, cmd := w, err := .illegalCommand }) ∧
    (¬ (w.toNat % 256 = 0 ∨ 8 < w.toNat % 256 ∨ w.toNat / 65536 ≠ 0 ∨ (w.toNat % 256 = 1 ∧ w.toNat / 256 % 256 ≠ 0)) →
      ∃ i, decode w = .ok i)

/-- R106: the worked encodings, as the bus operations their lines stand for, and what their command words decode to.
The addresses are those of `resetBuild`, whose REG_BASE is 0 (log 2). -/
def Obligations.WorkedEncodings : Prop :=
  expandLine resetBuild (.setEnvelope 0 0 0 126 0) =
      [.regWrite 4 0x004 0x007E0000#32, .regWrite 4 0x000 0x00000006#32, .wait] ∧
  expandLine resetBuild (.setFrequency 0 (.decimal false 441 1)) =
      [.regWrite 4 0x004 0x43DC8000#32, .regWrite 4 0x000 0x00000004#32, .wait] ∧
  expandLine resetBuild (.noteOn 3) = [.regWrite 4 0x000 0x00000302#32, .wait] ∧
  expandLine resetBuild (.enablePwm 1 (.decimal false 5 1) (.decimal false 1 2)) =
      [.regWrite 4 0x004 0x40A00000#32, .regWrite 4 0x008 0x3F000000#32, .regWrite 4 0x000 0x00000107#32, .wait] ∧
  expandLine resetBuild (.render 0x1000 100) =
      [.regWrite 4 0x004 0x00001000#32, .regWrite 4 0x008 0x00000064#32, .regWrite 4 0x000 0x00000001#32, .wait] ∧
  decode 0x00000006#32 = .ok (.setEnvelope 0) ∧ decode 0x00000004#32 = .ok (.setFrequency 0) ∧
  decode 0x00000302#32 = .ok (.noteOn 3) ∧ decode 0x00000107#32 = .ok (.enablePwm 1) ∧
  decode 0x00000001#32 = .ok .render

/-! ## The command protocol (40_command_protocol.md, 60_exceptions.md) -/

/-- A step runs the decoded instruction: a CMD write of a legal word while BUSY = 0 stores the word and presents its
command (R46, R121). -/
def Obligations.StepPresentsTheDecodedCommand : Prop :=
  ∀ (s : State) (w : Word) (rest : List Event) (i : Instr), Presenting s w rest → isBusy s = false → decode w = .ok i →
    step s = exec i { s with agenda := rest, cmd := w }

/-- A step runs the decoded instruction, at completion: the latched word selects the command (R128), when the agenda
gives the block its turn and when nothing else is left to do. -/
def Obligations.StepCompletesTheLatchedCommand : Prop :=
  ∀ (s : State) (i : Instr) (l : Latch), Completing s i l →
    (BlockTurn s → step s = exec i s) ∧
    (∀ rest, s.agenda = .complete :: rest → step s = exec i { s with agenda := rest })

/-- R122: a CMD write while BUSY = 1 is not decoded; it sets ERR to 7, stores the word in CMD and changes nothing else,
and the command in flight completes as if the write had not happened. -/
def Obligations.BusyCommandWriteIsRejected : Prop :=
  ∀ (s : State) (w : Word) (rest : List Event), Presenting s w rest → isBusy s = true →
    step s = .next { s with agenda := rest, cmd := w, err := .busy } ∧
    ∀ (i : Instr) (u : State), exec i s = .next u →
      exec i { s with agenda := rest, cmd := w, err := .busy } = .next { u with agenda := rest, cmd := w, err := .busy }

/-- R124: the checks of a CMD write, in their order; the first that fails gives the code, and with it the whole outcome. -/
def Obligations.ChecksRunInOrder : Prop :=
  ∀ (s : State) (w : Word) (rest : List Event), Presenting s w rest →
    let rejects : ErrCode → Prop := fun e => step s = .next { s with agenda := rest, cmd := w, err := e }
    (isBusy s = true → rejects .busy) ∧
    (isBusy s = false →
      (∀ e, decode w = .error e → rejects .illegalCommand) ∧
      (∀ i, decode w = .ok i → i ≠ .render → s.cfg.trackCount ≤ i.track → rejects .invalidTrackIndex) ∧
      (decode w = .ok .render →
        (s.arg0.toNat = 0 → rejects .nullBuffer) ∧
        (s.arg0.toNat ≠ 0 → s.arg0.toNat % 4 ≠ 0 → rejects .misalignedBuffer) ∧
        (s.arg0.toNat ≠ 0 → s.arg0.toNat % 4 = 0 → 4294967296 < s.arg0.toNat + 8 * s.arg1.toNat →
          rejects .invalidParameterRange)) ∧
      (∀ t, t < s.cfg.trackCount →
        (decode w = .ok (.setFrequency t) → freqValid s.cfg s.arg0 = false → rejects .invalidFrequency) ∧
        (decode w = .ok (.setWaveform t) → 3 < s.arg0.toNat → rejects .invalidParameterRange) ∧
        (decode w = .ok (.setEnvelope t) →
          (126 < s.arg0.toNat % 256 ∨ 126 < s.arg0.toNat / 256 % 256 ∨ 126 < s.arg0.toNat / 65536 % 256 ∨
            126 < s.arg0.toNat / 16777216) → rejects .invalidParameterRange) ∧
        (decode w = .ok (.enablePwm t) → freqValid s.cfg s.arg0 = false → rejects .invalidFrequency) ∧
        (decode w = .ok (.enablePwm t) → freqValid s.cfg s.arg0 = true →
          ¬ (flt fZero s.arg1 = true ∧ fle s.arg1 fOne = true) → rejects .invalidParameterRange)))

/-- R121: a CMD write made while BUSY = 0 is decoded and checked; if every check passes ERR ← 0 and the command waits in
the latch, which is BUSY = 1; if one fails ERR takes its code and nothing else changes. -/
def Obligations.AcceptanceCondition : Prop :=
  ∀ (s : State) (w : Word) (rest : List Event), Presenting s w rest → isBusy s = false →
    match decode w with
    | .error _ => step s = .next { s with agenda := rest, cmd := w, err := .illegalCommand }
    | .ok i =>
      match firstError s.cfg i s.arg0 s.arg1 with
      | some e => e ≠ .ok ∧ step s = .next { s with agenda := rest, cmd := w, err := e }
      | none => step s =
          .next { s with agenda := rest, cmd := w, err := .ok, latch := some ⟨w, s.arg0, s.arg1⟩ }

/-- R123: acceptance copies the command word, ARG0 and ARG1 into the latch, and completion uses the latched values alone:
whatever ARG0 and ARG1 hold by then, the same effect results. -/
def Obligations.CompletionUsesLatchedOperands : Prop :=
  (∀ (i : Instr) (s : State), s.latch = none → firstError s.cfg i s.arg0 s.arg1 = none →
    ∃ t, exec i s = .next t ∧ t.latch = some ⟨encode i, s.arg0, s.arg1⟩) ∧
  (∀ (i : Instr) (s t : State) (l : Latch) (a0 a1 : Word), s.latch = some l → exec i s = .next t →
    exec i { s with arg0 := a0, arg1 := a1 } = .next { t with arg0 := a0, arg1 := a1 })

/-- A completion clears BUSY and leaves ERR, the registers, the build and everything outside the tracks, the memory and
the model's counters alone (R125). -/
def Obligations.CompletionClearsBusyAndKeepsErr : Prop :=
  ∀ (i : Instr) (s t : State) (l : Latch), s.latch = some l → exec i s = .next t →
    isBusy t = false ∧ t.err = s.err ∧ t.cmd = s.cmd ∧ t.arg0 = s.arg0 ∧ t.arg1 = s.arg1 ∧ t.cfg = s.cfg ∧
    t.inReset = s.inReset ∧ t.rdata = s.rdata ∧ t.agenda = s.agenda ∧ t.tracks.length = s.tracks.length

/-- An accepted command cannot fail (R125, R230): in every state that keeps the invariant the command in flight completes,
but for a RENDER into memory the launch does not declare (U2). -/
def Obligations.AcceptedCommandAlwaysCompletes : Prop :=
  ∀ (s : State) (i : Instr) (l : Latch), s.Inv = true → Completing s i l →
    (i = .render → bufferDeclared s.cfg l.arg0.toNat l.arg1.toNat = true) →
    ∃ t, exec i s = .next t ∧ isBusy t = false ∧ t.err = s.err

/-- ERR is written by CMD writes and by reset, and by nothing else (R49, R233). -/
def Obligations.OnlyCmdWritesAndResetChangeErr : Prop :=
  ∀ s t : State, step s = .next t → t.err ≠ s.err →
    ∃ rest, (∃ w, s.agenda = .regWrite 4 s.cfg.regBase w :: rest) ∨ s.agenda = .resetAssert :: rest

/-! ## The envelope commands (42_envelope.md) -/

/-- R164: NOTE_ON t. -/
def Obligations.NoteOnMeaning : Prop :=
  ∀ (t : Nat) (s : State),
    (t < 256 → PresentedAs (.noteOn t) (BitVec.ofNat 32 (0x02 + 256 * t))) ∧
    (s.latch = none → s.cfg.trackCount ≤ t → exec (.noteOn t) s = .next { s with err := .invalidTrackIndex }) ∧
    (s.latch = none → t < s.cfg.trackCount →
      exec (.noteOn t) s =
        .next { s with err := .ok, latch := some ⟨BitVec.ofNat 32 (0x02 + 256 * t), s.arg0, s.arg1⟩ }) ∧
    (∀ l tr, Completing s (.noteOn t) l → s.tracks[t]? = some tr →
      exec (.noteOn t) s = .next { s with
        latch := none
        raced := []
        tracks := s.tracks.set t { tr with
          currentFactor := 0x00000000#32
          envState := .attack
          enabled := true
          phase := if s.cfg.noteOnResetsPhase = true then 0x00000000#32 else tr.phase
          pwmPhase := if s.cfg.noteOnResetsPhase = true then 0x00000000#32 else tr.pwmPhase } })

/-- R163: NOTE_OFF t; with the release parameter 0 the next RENDER, of any n, ends the track and disables it. -/
def Obligations.NoteOffMeaning : Prop :=
  ∀ (t : Nat) (s : State),
    (t < 256 → PresentedAs (.noteOff t) (BitVec.ofNat 32 (0x03 + 256 * t))) ∧
    (s.latch = none → s.cfg.trackCount ≤ t → exec (.noteOff t) s = .next { s with err := .invalidTrackIndex }) ∧
    (s.latch = none → t < s.cfg.trackCount →
      exec (.noteOff t) s =
        .next { s with err := .ok, latch := some ⟨BitVec.ofNat 32 (0x03 + 256 * t), s.arg0, s.arg1⟩ }) ∧
    (∀ l tr, Completing s (.noteOff t) l → s.tracks[t]? = some tr →
      exec (.noteOff t) s = .next { s with
        latch := none
        raced := []
        tracks := s.tracks.set t { tr with envState := .release } }) ∧
    (∀ (tr : Track) (n d : Nat) (acc : List Frame), tr.release.toNat = 0 → tr.enabled = true → tr.envState = .release →
      renderTrack s.cfg n acc tr d = (acc, { tr with currentFactor := 0x00000000#32, enabled := false }, d))

/-- R162: SET_ENVELOPE t, a, d, s, r. The four fields of an accepted operand are at most 126, so seven bits hold each. -/
def Obligations.SetEnvelopeMeaning : Prop :=
  ∀ (t : Nat) (s : State),
    (t < 256 → PresentedAs (.setEnvelope t) (BitVec.ofNat 32 (0x06 + 256 * t))) ∧
    (s.latch = none → s.cfg.trackCount ≤ t → exec (.setEnvelope t) s = .next { s with err := .invalidTrackIndex }) ∧
    (s.latch = none → t < s.cfg.trackCount →
      (126 < s.arg0.toNat % 256 ∨ 126 < s.arg0.toNat / 256 % 256 ∨ 126 < s.arg0.toNat / 65536 % 256 ∨
        126 < s.arg0.toNat / 16777216) →
      exec (.setEnvelope t) s = .next { s with err := .invalidParameterRange }) ∧
    (s.latch = none → t < s.cfg.trackCount →
      s.arg0.toNat % 256 ≤ 126 → s.arg0.toNat / 256 % 256 ≤ 126 → s.arg0.toNat / 65536 % 256 ≤ 126 →
      s.arg0.toNat / 16777216 ≤ 126 →
      exec (.setEnvelope t) s =
        .next { s with err := .ok, latch := some ⟨BitVec.ofNat 32 (0x06 + 256 * t), s.arg0, s.arg1⟩ }) ∧
    (∀ l tr, Completing s (.setEnvelope t) l → s.tracks[t]? = some tr →
      exec (.setEnvelope t) s = .next { s with
        latch := none
        raced := []
        tracks := s.tracks.set t { tr with
          attack := BitVec.ofNat 7 (l.arg0.toNat % 256)
          decay := BitVec.ofNat 7 (l.arg0.toNat / 256 % 256)
          sustain := BitVec.ofNat 7 (l.arg0.toNat / 65536 % 256)
          release := BitVec.ofNat 7 (l.arg0.toNat / 16777216) } })

/-! ## The envelope engine (42_envelope.md) -/

/-- R157: the sustain advance recomputes the factor from the sustain parameter of this call, and a step leaves Sustain only by
a NOTE_OFF, to Release, or a NOTE_ON, to Attack; R153: the sustain level, with s = 126 mapped to ONE exactly, every level of a
legal parameter in [ZERO, ONE], and the values the rule lists. -/
def Obligations.SustainLevels : Prop :=
  (∀ (c : Config) (tr : Track) (n : Nat), tr.envState = .sustain →
    advance c tr n = ({ tr with currentFactor := sustainLevel tr.sustain }, false)) ∧
  (∀ (s t : State) (k : Nat) (tr tr' : Track), step s = .next t → s.tracks[k]? = some tr → t.tracks[k]? = some tr' →
    tr.envState = .sustain → tr'.envState ≠ .sustain →
    (∃ l, Completing s (.noteOff k) l ∧ tr'.envState = .release) ∨
      ∃ l, Completing s (.noteOn k) l ∧ tr'.envState = .attack) ∧
  sustainLevel 126#7 = 0x3F800000#32 ∧
  (∀ s : BitVec 7, s.toNat < 126 → sustainLevel s = fmul (toF32 s.toNat) 0x3C010204#32) ∧
  (∀ s : BitVec 7, s.toNat ≤ 126 → factorOk (sustainLevel s) = true) ∧
  sustainLevel 0#7 = 0x00000000#32 ∧ sustainLevel 1#7 = 0x3C010204#32 ∧ sustainLevel 63#7 = 0x3EFDFBF8#32 ∧
  sustainLevel 64#7 = 0x3F010204#32 ∧ sustainLevel 125#7 = 0x3F7BF7F0#32

/-- R155: the attack advance, and its corners: with n = 0 and attack > 0 the factor does not change, and attack never
lowers it. The factor is one of a track that keeps R44; encodings of values in [0, 1] order as the values do. -/
def Obligations.AttackAdvance : Prop :=
  ∀ (c : Config) (tr : Track) (n : Nat), c.wellFormed = true → factorOk tr.currentFactor = true → n < 536870912 →
    tr.envState = .attack →
    let raised := fadd tr.currentFactor (fdiv (elapsedMs c n) (stageTime c tr.attack))
    (tr.attack.toNat = 0 →
      advance c tr n = ({ tr with currentFactor := 0x3F800000#32, envState := .decay }, false)) ∧
    (tr.attack.toNat ≠ 0 → fle 0x3F800000#32 raised = true →
      advance c tr n = ({ tr with currentFactor := 0x3F800000#32, envState := .decay }, false)) ∧
    (tr.attack.toNat ≠ 0 → fle 0x3F800000#32 raised = false →
      advance c tr n = ({ tr with currentFactor := raised }, false)) ∧
    (tr.attack.toNat ≠ 0 → (advance c tr 0).1.currentFactor = tr.currentFactor) ∧
    tr.currentFactor.toNat ≤ (advance c tr n).1.currentFactor.toNat

/-- R156: the decay advance, and its corners: a level at or above the factor is reached by the first advance, whatever the
decay time; with the level ONE decay ends at the first advance. -/
def Obligations.DecayAdvance : Prop :=
  ∀ (c : Config) (tr : Track) (n : Nat), c.wellFormed = true → factorOk tr.currentFactor = true →
    tr.sustain.toNat ≤ 126 → n < 536870912 → tr.envState = .decay →
    let level := sustainLevel tr.sustain
    let fallen := fsub tr.currentFactor (fdiv (elapsedMs c n) (stageTime c tr.decay))
    (tr.decay.toNat = 0 → advance c tr n = ({ tr with currentFactor := level, envState := .sustain }, false)) ∧
    (tr.decay.toNat ≠ 0 → fle fallen level = true →
      advance c tr n = ({ tr with currentFactor := level, envState := .sustain }, false)) ∧
    (tr.decay.toNat ≠ 0 → fle fallen level = false → advance c tr n = ({ tr with currentFactor := fallen }, false)) ∧
    (fle tr.currentFactor level = true →
      advance c tr n = ({ tr with currentFactor := level, envState := .sustain }, false)) ∧
    (tr.sustain.toNat = 126 →
      advance c tr n = ({ tr with currentFactor := 0x3F800000#32, envState := .sustain }, false))

/-- R158: the release advance, and its corner: from the factor ZERO the first advance reports ended, whatever the release
parameter and whatever n, n = 0 included. -/
def Obligations.ReleaseAdvance : Prop :=
  ∀ (c : Config) (tr : Track) (n : Nat), c.wellFormed = true → n < 536870912 → tr.envState = .release →
    let fallen := fsub tr.currentFactor (fdiv (elapsedMs c n) (stageTime c tr.release))
    (tr.release.toNat = 0 → advance c tr n = ({ tr with currentFactor := 0x00000000#32 }, true)) ∧
    (tr.release.toNat ≠ 0 → fle fallen 0x00000000#32 = true →
      advance c tr n = ({ tr with currentFactor := 0x00000000#32 }, true)) ∧
    (tr.release.toNat ≠ 0 → fle fallen 0x00000000#32 = false →
      advance c tr n = ({ tr with currentFactor := fallen }, false)) ∧
    (tr.currentFactor = 0x00000000#32 → advance c tr n = (tr, true))

/-- R160: ended is reported only from Release and only with the factor ZERO; the envelope leaves `enabled` alone, and RENDER
then disables the track, which stays in Release, and mixes nothing of it into the block. -/
def Obligations.EndedOnlyFromReleaseAtZero : Prop :=
  ∀ (c : Config) (tr : Track) (n : Nat),
    (advance c tr n).1.enabled = tr.enabled ∧
    ((advance c tr n).2 = true →
      tr.envState = .release ∧ (advance c tr n).1.envState = .release ∧
      (advance c tr n).1.currentFactor = 0x00000000#32 ∧
      ∀ (acc : List Frame) (d : Nat), tr.enabled = true →
        renderTrack c n acc tr d = (acc, { tr with currentFactor := 0x00000000#32, enabled := false }, d))

/-- One advance runs the case of the stage it starts in and no other: from each stage it can stay or go to the next one,
and only the factor and the stage change (R159, R165). -/
def Obligations.OneStagePerAdvance : Prop :=
  ∀ (c : Config) (tr : Track) (n : Nat),
    (advance c tr n).1 = { tr with
      currentFactor := (advance c tr n).1.currentFactor, envState := (advance c tr n).1.envState } ∧
    match tr.envState with
    | .attack => (advance c tr n).1.envState = .attack ∨ (advance c tr n).1.envState = .decay
    | .decay => (advance c tr n).1.envState = .decay ∨ (advance c tr n).1.envState = .sustain
    | .sustain => (advance c tr n).1.envState = .sustain
    | .release => (advance c tr n).1.envState = .release

/-- No advance drives the factor outside [ZERO, ONE], nor to −0.0 or a NaN, for a legal build and legal parameters (R36,
R161). -/
def Obligations.EnvelopeStaysInRange : Prop :=
  ∀ (c : Config) (tr : Track) (n : Nat), c.wellFormed = true → factorOk tr.currentFactor = true →
    tr.sustain.toNat ≤ 126 → n < 536870912 → factorOk (advance c tr n).1.currentFactor = true

/-! ## The arithmetic (00_scope.md) -/

/-- Each primitive computes exactly on finite operands and rounds once to nearest, ties to even (R11, R12): it overflows to
infinity exactly where the exact result does. The zero results carry the signs of IEEE 754, fadd(+0, −0) = +0 and
fsub(x, x) = +0 among them, a product or quotient the exclusive or of the operands' signs; and division by zero gives an
infinity, or a NaN for zero over zero. -/
def Obligations.ArithmeticRoundsToNearestEven : Prop :=
  ∀ a b : F32, isFinite a = true → isFinite b = true →
    RoundedOnce (fadd a b) (fvalue a + fvalue b) 1 ∧
    RoundedOnce (fsub a b) (fvalue a - fvalue b) 1 ∧
    RoundedOnce (fmul a b) (fvalue a * fvalue b) (2 ^ 149) ∧
    (fvalue b ≠ 0 → RoundedOnce (fdiv a b) (fvalue a * 2 ^ 149) (fvalue b)) ∧
    (fvalue a + fvalue b = 0 →
      fadd a b = if a = 0x80000000#32 ∧ b = 0x80000000#32 then 0x80000000#32 else 0x00000000#32) ∧
    (fvalue a - fvalue b = 0 →
      fsub a b = if a = 0x80000000#32 ∧ b = 0x00000000#32 then 0x80000000#32 else 0x00000000#32) ∧
    fadd 0x00000000#32 0x80000000#32 = 0x00000000#32 ∧ fsub a a = 0x00000000#32 ∧
    fsign (fmul a b) = (fsign a != fsign b) ∧
    (fvalue b ≠ 0 → fsign (fdiv a b) = (fsign a != fsign b)) ∧
    (fvalue b = 0 → fvalue a ≠ 0 → isInf (fdiv a b) = true ∧ fsign (fdiv a b) = (fsign a != fsign b)) ∧
    (fvalue b = 0 → fvalue a = 0 → isNaN (fdiv a b) = true)

/-! ## The oscillator commands and generators (43_oscillator.md) -/

/-- R187: SET_FREQUENCY t, hz, with the legality of R189 and the increment of R16 written out, and the rule's examples at
44100 Hz: the worked ones, the tiny frequency whose increment is ZERO, and the largest frequency accepted. -/
def Obligations.SetFrequencyMeaning : Prop :=
  ∀ (t : Nat) (s : State),
    let increment : F32 → F32 := fun hz => fdiv (fmul 0x40C90FDB#32 hz) (toF32 s.cfg.sampleRate)
    let legal : F32 → Bool := fun hz => isFinite hz && flt 0x00000000#32 hz && flt (increment hz) 0x40C90FDB#32
    (t < 256 → PresentedAs (.setFrequency t) (BitVec.ofNat 32 (0x04 + 256 * t))) ∧
    (s.latch = none → s.cfg.trackCount ≤ t → exec (.setFrequency t) s = .next { s with err := .invalidTrackIndex }) ∧
    (s.latch = none → t < s.cfg.trackCount → legal s.arg0 = false →
      exec (.setFrequency t) s = .next { s with err := .invalidFrequency }) ∧
    (s.latch = none → t < s.cfg.trackCount → legal s.arg0 = true →
      exec (.setFrequency t) s =
        .next { s with err := .ok, latch := some ⟨BitVec.ofNat 32 (0x04 + 256 * t), s.arg0, s.arg1⟩ }) ∧
    (∀ l tr, Completing s (.setFrequency t) l → s.tracks[t]? = some tr →
      exec (.setFrequency t) s = .next { s with
        latch := none
        raced := []
        tracks := s.tracks.set t { tr with phaseIncrement := increment l.arg0 } }) ∧
    (s.cfg.sampleRate = 44100 →
      increment 0x43DC8000#32 = 0x3D80ADFD#32 ∧ increment 0x43DC0000#32 = 0x3D80634A#32 ∧ legal 0x00000000#32 = false ∧
      legal 0x00000001#32 = true ∧ increment 0x00000001#32 = 0x00000000#32 ∧ legal 0x472C4400#32 = true ∧
      increment 0x472C4400#32 = 0x40C90FDA#32 ∧ legal 0x472C4401#32 = false)

/-- R188: SET_WAVEFORM t, type. -/
def Obligations.SetWaveformMeaning : Prop :=
  ∀ (t : Nat) (s : State),
    (t < 256 → PresentedAs (.setWaveform t) (BitVec.ofNat 32 (0x05 + 256 * t))) ∧
    (s.latch = none → s.cfg.trackCount ≤ t → exec (.setWaveform t) s = .next { s with err := .invalidTrackIndex }) ∧
    (s.latch = none → t < s.cfg.trackCount → 3 < s.arg0.toNat →
      exec (.setWaveform t) s = .next { s with err := .invalidParameterRange }) ∧
    (s.latch = none → t < s.cfg.trackCount → s.arg0.toNat ≤ 3 →
      exec (.setWaveform t) s =
        .next { s with err := .ok, latch := some ⟨BitVec.ofNat 32 (0x05 + 256 * t), s.arg0, s.arg1⟩ }) ∧
    (∀ l tr w, Completing s (.setWaveform t) l → s.tracks[t]? = some tr →
      (l.arg0 = 0 ∧ w = .sine ∨ l.arg0 = 1 ∧ w = .square ∨ l.arg0 = 2 ∧ w = .noise ∨ l.arg0 = 3 ∧ w = .saw) →
      exec (.setWaveform t) s = .next { s with
        latch := none
        raced := []
        tracks := s.tracks.set t { tr with waveform := w } })

/-- R189 and its consequence of R39: a legal frequency is finite and above ZERO with an increment below TWO_PI; NaNs, the
infinities, both zeros and negative values are not legal; and a legal frequency's increment lies in [ZERO, TWO_PI). -/
def Obligations.LegalFrequencies : Prop :=
  ∀ (c : Config) (hz : F32),
    (freqValid c hz = true ↔
      isFinite hz = true ∧ flt 0x00000000#32 hz = true ∧ flt (incr c hz) 0x40C90FDB#32 = true) ∧
    (isNaN hz = true ∨ isInf hz = true ∨ hz = 0x00000000#32 ∨ hz = 0x80000000#32 ∨ flt hz 0x00000000#32 = true →
      freqValid c hz = false) ∧
    (c.wellFormed = true → freqValid c hz = true → phaseOk (incr c hz) = true)

/-- R15: for every p in its domain, `wrap` is the two conditional subtractions and lies in [ZERO, TWO_PI), never −0.0; and
the sum of two phases of that range lies in its domain. The domain's −0.0, which no phase is, stays as it is. -/
def Obligations.WrapStaysInRange : Prop :=
  (∀ p : F32, fle 0x00000000#32 p = true → p ≠ 0x80000000#32 → fle p (fmul 0x40000000#32 0x40C90FDB#32) = true →
    phaseOk (wrap p) = true ∧
    (fle 0x40C90FDB#32 p = false → wrap p = p) ∧
    (fle 0x40C90FDB#32 p = true → fle 0x40C90FDB#32 (fsub p 0x40C90FDB#32) = false →
      wrap p = fsub p 0x40C90FDB#32) ∧
    (fle 0x40C90FDB#32 p = true → fle 0x40C90FDB#32 (fsub p 0x40C90FDB#32) = true →
      wrap p = fsub (fsub p 0x40C90FDB#32) 0x40C90FDB#32)) ∧
  wrap 0x80000000#32 = 0x80000000#32 ∧
  (∀ phase inc : F32, phaseOk phase = true → phaseOk inc = true →
    fle 0x00000000#32 (fadd phase inc) = true ∧ fadd phase inc ≠ 0x80000000#32 ∧
    fle (fadd phase inc) (fmul 0x40000000#32 0x40C90FDB#32) = true)

/-- With the increment ZERO neither branch of the correction is taken, and the square, at every PWM offset in [−PI, PI], and
the saw give their naive values (corner cases of R182 and R183). At an edge itself the correction is −1 for every other
increment (R183). The POLYBLEP edges have the midpoint +0.0: the saw's for every increment whose normalized value is not ZERO,
and with one of at most PI, half the sample rate, the middle of the saw's ramp and both edges of the square (R182, R184); and
the worked examples of R182 and R184 at 441 Hz. -/
def Obligations.NoCorrectionAtZeroIncrement : Prop :=
  ∀ (c : Config) (phase off : F32), phaseOk phase = true →
    (∀ dt : F32, flt 0x00000000#32 dt = true → flt dt 0x3F800000#32 = true → blep 0x00000000#32 dt = 0xBF800000#32) ∧
    blep (fdiv phase 0x40C90FDB#32) (fdiv 0x00000000#32 0x40C90FDB#32) = 0x00000000#32 ∧
    (c.bandlimit = .naive ∨ (fle 0xC0490FDB#32 off = true ∧ fle off 0x40490FDB#32 = true) →
      squareGen c phase 0x00000000#32 off =
        if flt phase (fadd 0x40490FDB#32 off) = true then 0x3F800000#32 else 0xBF800000#32) ∧
    sawGen c phase 0x00000000#32 = fsub (fdiv phase 0x40490FDB#32) 0x3F800000#32 ∧
    (c.bandlimit = .polyblep →
      (∀ inc : F32, phaseOk inc = true → flt 0x00000000#32 (fdiv inc 0x40C90FDB#32) = true →
        sawGen c 0x00000000#32 inc = 0x00000000#32 ∧
        (fle inc 0x40490FDB#32 = true →
          sawGen c 0x40490FDB#32 inc = 0x00000000#32 ∧
          squareGen c 0x00000000#32 inc 0x00000000#32 = 0x00000000#32 ∧
          squareGen c 0x40490FDB#32 inc 0x00000000#32 = 0x00000000#32)) ∧
      squareGen c 0x3CF5C28F#32 0x3D80ADFD#32 0x00000000#32 = 0x3F3A19DA#32 ∧
      squareGen c 0x3F800000#32 0x3D80ADFD#32 0x00000000#32 = 0x3F800000#32 ∧
      squareGen c 0x404A3D71#32 0x3D80ADFD#32 0x00000000#32 = 0xBF000660#32 ∧
      squareGen c 0x40490FDA#32 0x3D80ADFD#32 0x00000000#32 = 0x37480000#32 ∧
      sawGen c 0x3CF5C28F#32 0x3D80ADFD#32 = 0xBF37A807#32 ∧ sawGen c 0x3F800000#32 0x3D80ADFD#32 = 0xBF2E833E#32 ∧
      sawGen c 0x40C80000#32 0x3D80ADFD#32 = 0x3F444D6C#32)

/-- Every noise draw of a legal build lies in [−1, 1] and is no NaN (R186), and the Noise generator takes one draw while
no other generator takes any. -/
def Obligations.NoiseDrawsStayInRange : Prop :=
  ∀ (c : Config) (k : Nat) (phase inc off : F32), c.wellFormed = true →
    fle 0xBF800000#32 (noiseDraw c k) = true ∧ fle (noiseDraw c k) 0x3F800000#32 = true ∧
    gen c .noise phase inc off k = (noiseDraw c k, k + 1) ∧
    ∀ w, w ≠ .noise → (gen c w phase inc off k).2 = k

/-! ## The sine table (41_sine_table.md) -/

/-- Facts of R140 over every legal table size: the four quarter points, the odd and the mirror symmetry, every magnitude at
most ONE, and no entry −0.0. -/
def Obligations.SineTableFacts : Prop :=
  ∀ (c : Config), 2 ≤ c.sineTableBits → c.sineTableBits ≤ 16 →
    let n := tableSize c
    sineEntry c 0 = 0x00000000#32 ∧ sineEntry c (n / 2) = 0x00000000#32 ∧
    sineEntry c (n / 4) = 0x3F800000#32 ∧ sineEntry c (3 * n / 4) = 0xBF800000#32 ∧
    (∀ i, 1 ≤ i → i < n / 2 → sineEntry c (n - i) = fnegate (sineEntry c i)) ∧
    (∀ i, i ≤ n / 4 → sineEntry c (n / 2 - i) = sineEntry c i) ∧
    (∀ i, i < n → fmag (sineEntry c i) ≤ 0x3F800000 ∧ sineEntry c i ≠ 0x80000000#32)

/-- T[i] is sin(2πi/N) rounded to nearest (R140), up to the 2^-60 the model's own fixed-point evaluation may be off (log 11):
no finite binary32 value lies closer to the real sine by more than that. -/
def Obligations.SineTableIsNearest : Prop :=
  ∀ (c : Config) (i : Nat) (v : F32), 2 ≤ c.sineTableBits → c.sineTableBits ≤ 16 → i < tableSize c → isFinite v = true →
    |(fvalue (sineEntry c i) : ℝ) / 2 ^ 149 - Real.sin (2 * Real.pi * i / tableSize c)| ≤
      |(fvalue v : ℝ) / 2 ^ 149 - Real.sin (2 * Real.pi * i / tableSize c)| + 1 / 2 ^ 60

/-- TABLE_SCALE is N / (2π) rounded to nearest (R8), up to the 2^-45 that the model's value of π may be off (log 11). -/
def Obligations.TableScaleIsNearest : Prop :=
  ∀ (c : Config) (v : F32), c.sineTableBits ≤ 16 → isFinite v = true →
    |(fvalue (tableScale c) : ℝ) / 2 ^ 149 - tableSize c / (2 * Real.pi)| ≤
      |(fvalue v : ℝ) / 2 ^ 149 - tableSize c / (2 * Real.pi)| + 1 / 2 ^ 45

/-- A lookup without interpolation is the table entry of the masked index, for every operand; with interpolation it is the
linear blend of that entry and the next, the next of N−1 being 0 (R142–R144). For an operand outside R142's domain the
index is that of the model's own free `int` (log 12). -/
def Obligations.LookupReadsTheTable : Prop :=
  ∀ (c : Config) (p : F32),
    let x := fmul p (tableScale c)
    let i0 := (fint (ffloor x) % (tableSize c : Int)).toNat
    i0 < tableSize c ∧
    (c.sineInterp = false → lookup c p = sineEntry c i0 ∧ lookup c p ∈ sineTable c) ∧
    (c.sineInterp = true →
      lookup c p = fadd (sineEntry c i0) (fmul (fsub x (ffloor x))
        (fsub (sineEntry c (if i0 + 1 = tableSize c then 0 else i0 + 1)) (sineEntry c i0))))

/-! ## The pulse-width modulator (44_pwm.md) -/

/-- R203: ENABLE_PWM t, hz, depth; the frequency is checked before the depth. -/
def Obligations.EnablePwmMeaning : Prop :=
  ∀ (t : Nat) (s : State),
    (t < 256 → PresentedAs (.enablePwm t) (BitVec.ofNat 32 (0x07 + 256 * t))) ∧
    (s.latch = none → s.cfg.trackCount ≤ t → exec (.enablePwm t) s = .next { s with err := .invalidTrackIndex }) ∧
    (s.latch = none → t < s.cfg.trackCount → freqValid s.cfg s.arg0 = false →
      exec (.enablePwm t) s = .next { s with err := .invalidFrequency }) ∧
    (s.latch = none → t < s.cfg.trackCount → freqValid s.cfg s.arg0 = true →
      ¬ (flt 0x00000000#32 s.arg1 = true ∧ fle s.arg1 0x3F800000#32 = true) →
      exec (.enablePwm t) s = .next { s with err := .invalidParameterRange }) ∧
    (s.latch = none → t < s.cfg.trackCount → freqValid s.cfg s.arg0 = true →
      flt 0x00000000#32 s.arg1 = true → fle s.arg1 0x3F800000#32 = true →
      exec (.enablePwm t) s =
        .next { s with err := .ok, latch := some ⟨BitVec.ofNat 32 (0x07 + 256 * t), s.arg0, s.arg1⟩ }) ∧
    (∀ l tr, Completing s (.enablePwm t) l → s.tracks[t]? = some tr →
      exec (.enablePwm t) s = .next { s with
        latch := none
        raced := []
        tracks := s.tracks.set t { tr with pwmPhaseIncrement := incr s.cfg l.arg0, pwmDepth := l.arg1 } })

/-- R204: DISABLE_PWM t. -/
def Obligations.DisablePwmMeaning : Prop :=
  ∀ (t : Nat) (s : State),
    (t < 256 → PresentedAs (.disablePwm t) (BitVec.ofNat 32 (0x08 + 256 * t))) ∧
    (s.latch = none → s.cfg.trackCount ≤ t → exec (.disablePwm t) s = .next { s with err := .invalidTrackIndex }) ∧
    (s.latch = none → t < s.cfg.trackCount →
      exec (.disablePwm t) s =
        .next { s with err := .ok, latch := some ⟨BitVec.ofNat 32 (0x08 + 256 * t), s.arg0, s.arg1⟩ }) ∧
    (∀ l tr, Completing s (.disablePwm t) l → s.tracks[t]? = some tr →
      exec (.disablePwm t) s = .next { s with
        latch := none
        raced := []
        tracks := s.tracks.set t { tr with pwmDepth := 0x00000000#32, pwmPhaseIncrement := 0x00000000#32 } })

/-- With PWM inactive the offset is ZERO and a ZERO increment leaves the PWM phase of a track where it is (R201, R202);
with PWM active and no interpolation the offset lies in [−PI, PI] (R201). -/
def Obligations.PwmOffsetIsBounded : Prop :=
  ∀ (c : Config) (tr : Track), c.wellFormed = true →
    (flt 0x00000000#32 tr.pwmDepth = false → pwmOffset c tr = 0x00000000#32) ∧
    (phaseOk tr.pwmPhase = true → tr.pwmPhaseIncrement = 0x00000000#32 → advancePwmPhase tr = tr) ∧
    (c.sineInterp = false → depthOk tr.pwmDepth = true →
      fle 0xC0490FDB#32 (pwmOffset c tr) = true ∧ fle (pwmOffset c tr) 0x40490FDB#32 = true)

/-! ## The renderer (45_render.md) -/

/-- RENDER's checks and its acceptance, over exact integers, in the order of R210. -/
def Obligations.RenderIsChecked : Prop :=
  PresentedAs .render 0x00000001#32 ∧
  ∀ s : State, s.latch = none →
    (s.arg0.toNat = 0 → exec .render s = .next { s with err := .nullBuffer }) ∧
    (s.arg0.toNat ≠ 0 → s.arg0.toNat % 4 ≠ 0 → exec .render s = .next { s with err := .misalignedBuffer }) ∧
    (s.arg0.toNat ≠ 0 → s.arg0.toNat % 4 = 0 → 4294967296 < s.arg0.toNat + 8 * s.arg1.toNat →
      exec .render s = .next { s with err := .invalidParameterRange }) ∧
    (s.arg0.toNat ≠ 0 → s.arg0.toNat % 4 = 0 → s.arg0.toNat + 8 * s.arg1.toNat ≤ 4294967296 →
      exec .render s = .next { s with err := .ok, latch := some ⟨0x00000001#32, s.arg0, s.arg1⟩ })

/-- R76, R216: a RENDER completes with its rendered tracks; frame k's left word at base + 8k and right word at
base + 8k + 4, little-endian, for every k < n, unless the host wrote the word in flight; and no byte outside
[base, base + 8n) is written. No other command and no rejected command writes memory. -/
def Obligations.RenderWritesItsBuffer : Prop :=
  (∀ (s : State) (l : Latch), Completing s .render l → bufferDeclared s.cfg l.arg0.toNat l.arg1.toNat = true →
    drawsInRange s.cfg s.noiseDrawn (rendering l s).drawn = true → s.raced = [] →
    ∃ mem, exec .render s = .next { s with
        latch := none
        tracks := (rendering l s).tracks
        noiseDrawn := (rendering l s).drawn
        mem := mem } ∧
      (rendering l s).acc.length = l.arg1.toNat ∧
      (∀ (k j : Nat) (left right : F32), (rendering l s).acc[k]? = some (left, right) → j < 4 →
        readByte mem (l.arg0.toNat + 8 * k + j) = some (BitVec.ofNat 8 (left.toNat / 256 ^ j)) ∧
        readByte mem (l.arg0.toNat + 8 * k + 4 + j) = some (BitVec.ofNat 8 (right.toNat / 256 ^ j))) ∧
      (∀ a, a < l.arg0.toNat ∨ l.arg0.toNat + 8 * l.arg1.toNat ≤ a → readByte mem a = readByte s.mem a)) ∧
  (∀ (i : Instr) (s t : State), exec i s = .next t → i ≠ .render ∨ s.latch = none → t.mem = s.mem)

/-- R86: a host write to a word of the in-flight RENDER's buffer stores the host's value, and at completion that word ends
as the host's value or the RENDER's, while every other word of the buffer ends as the RENDER's. -/
def Obligations.RacedWordEndsAsEither : Prop :=
  (∀ (s : State) (l : Latch) (a : Nat) (v : Word) (rest : List Event), Completing s .render l →
    s.agenda = .memWrite a v :: rest → a % 4 = 0 → a + 4 ≤ 4294967296 → wordDeclared s.cfg a = true →
    l.arg0.toNat ≤ a → a < l.arg0.toNat + 8 * l.arg1.toNat →
    ∃ t, step s = .next t ∧ readWord t.mem a = some v ∧ a ∈ t.raced ∧ t.latch = s.latch ∧
      ∀ x, x < a ∨ a + 4 ≤ x → readByte t.mem x = readByte s.mem x) ∧
  (∀ (s : State) (l : Latch), Completing s .render l → bufferDeclared s.cfg l.arg0.toNat l.arg1.toNat = true →
    drawsInRange s.cfg s.noiseDrawn (rendering l s).drawn = true →
    ∃ t, exec .render s = .next t ∧
      ∀ (j : Nat) (v : Word), (renderedWords l s)[j]? = some v →
        (l.arg0.toNat + 4 * j ∉ s.raced → readWord t.mem (l.arg0.toNat + 4 * j) = some v) ∧
        (l.arg0.toNat + 4 * j ∈ s.raced → readWord t.mem (l.arg0.toNat + 4 * j) = some v ∨
          readWord t.mem (l.arg0.toNat + 4 * j) = readWord s.mem (l.arg0.toNat + 4 * j)))

/-- Where a RENDER stops, and that it stops nowhere else: into memory the launch does not declare it has no completion (R79,
U2; log 15), and a draw outside the noise source's range has no meaning (U8; log 24); in every other case it completes. -/
def Obligations.RenderStopsOnlyOutsideItsContract : Prop :=
  ∀ (s : State) (l : Latch), Completing s .render l →
    (bufferDeclared s.cfg l.arg0.toNat l.arg1.toNat = false → exec .render s = .fault .bufferNotWritable) ∧
    (bufferDeclared s.cfg l.arg0.toNat l.arg1.toNat = true →
      drawsInRange s.cfg s.noiseDrawn (rendering l s).drawn = false →
      exec .render s = .refused .noiseDrawOutOfRange) ∧
    (bufferDeclared s.cfg l.arg0.toNat l.arg1.toNat = true →
      drawsInRange s.cfg s.noiseDrawn (rendering l s).drawn = true →
      ∃ t, exec .render s = .next t ∧ isBusy t = false)

/-- Both channels of every frame carry the same word, for every track list, frame count and noise stream (R215), and a
rendering of n frames has n of them. -/
def Obligations.LeftEqualsRight : Prop :=
  ∀ (c : Config) (tracks : List Track) (n d : Nat),
    (render c tracks n d).acc.length = n ∧ ∀ frame ∈ (render c tracks n d).acc, frame.1 = frame.2

/-- R217: a track disabled at the start changes no state and adds nothing to any word, and a track that ends adds nothing;
the others render as if it were not there. When no track contributes every word is +0.0. -/
def Obligations.SilentTrackContributesNothing : Prop :=
  (∀ (c : Config) (before after : List Track) (tr : Track) (n d : Nat),
    tr.enabled = false ∨ (advance c tr n).2 = true →
    (render c (before ++ tr :: after) n d).acc = (render c (before ++ after) n d).acc ∧
    (render c (before ++ tr :: after) n d).drawn = (render c (before ++ after) n d).drawn ∧
    (tr.enabled = false → (render c (before ++ tr :: after) n d).tracks =
      (render c (before ++ after) n d).tracks.take before.length ++
        tr :: (render c (before ++ after) n d).tracks.drop before.length)) ∧
  (∀ (c : Config) (tracks : List Track) (n d : Nat),
    (∀ tr ∈ tracks, tr.enabled = false ∨ (advance c tr n).2 = true) →
    (render c tracks n d).acc = List.replicate n (0x00000000#32, 0x00000000#32) ∧ (render c tracks n d).drawn = d)

/-- R214, with R213's one factor for the block and R215's mixing: frame k of a contributing track gets, in both channels, the
generator's value at the phases after k advances, times the factor; and the block leaves both phases advanced once per frame
and every other field but the envelope's as it was. -/
def Obligations.FramesFollowTheSampleSequence : Prop :=
  ∀ (c : Config) (tr : Track) (n d : Nat) (acc : List Frame), tr.enabled = true → (advance c tr n).2 = false →
    let phaseAfter : Nat → F32 := fun k => (fun p => wrap (fadd p tr.phaseIncrement))^[k] tr.phase
    let pwmPhaseAfter : Nat → F32 := fun k => (fun p => wrap (fadd p tr.pwmPhaseIncrement))^[k] tr.pwmPhase
    let g := (advance c tr n).1.currentFactor
    (∀ (k : Nat) (left right : F32), acc[k]? = some (left, right) →
      let off := if flt 0x00000000#32 tr.pwmDepth = true then
        fmul (lookup c (pwmPhaseAfter k)) (fmul tr.pwmDepth 0x40490FDB#32) else 0x00000000#32
      let v := (gen c tr.waveform (phaseAfter k) tr.phaseIncrement off (if tr.waveform = .noise then d + k else d)).1
      (renderTrack c n acc tr d).1[k]? = some (fadd left (fmul v g), fadd right (fmul v g))) ∧
    (renderTrack c n acc tr d).1.length = acc.length ∧
    (renderTrack c n acc tr d).2.1 = { tr with
      currentFactor := g
      envState := (advance c tr n).1.envState
      phase := phaseAfter acc.length
      pwmPhase := pwmPhaseAfter acc.length }

/-- The noise source is asked once for each frame of each enabled, not-ended Noise track, and never otherwise (R186). -/
def Obligations.NoiseDrawsAreCounted : Prop :=
  ∀ (c : Config) (tracks : List Track) (n d : Nat),
    (render c tracks n d).drawn = d + n * (tracks.filter (fun tr =>
      tr.enabled && !(advance c tr n).2 && (tr.waveform == .noise))).length

/-- A RENDER of no frames is legal: it writes no memory, moves no phase and takes no draw, and every enabled track's envelope
advances by 0 samples, so that a stage with a zero parameter still ends (R218). -/
def Obligations.ZeroLengthRender : Prop :=
  ∀ (s : State) (l : Latch), Completing s .render l → l.arg1.toNat = 0 →
    exec .render s = .next { s with
      latch := none
      raced := []
      tracks := s.tracks.map (fun tr =>
        if tr.enabled = true then
          (if (advance s.cfg tr 0).2 = true then { (advance s.cfg tr 0).1 with enabled := false }
            else (advance s.cfg tr 0).1)
        else tr) }

/-! ## Registers and the bus (10_state.md, 20_memory.md) -/

/-- R72: reads change nothing but the data read; writes to ARG0 and ARG1 store the word; writes to every other offset but
CMD's are ignored; an access of another width or at another alignment is refused (R71). -/
def Obligations.RegisterAccessEffects : Prop :=
  ∀ (s : State) (off : Nat) (rest : List Event), s.inReset = false → off < 0x2000 →
    (∀ t, s.agenda = .regRead 4 (s.cfg.regBase + off) :: rest → step s = .next t →
      t = { s with agenda := rest, rdata := t.rdata, fresh := t.fresh }) ∧
    (∀ v, s.agenda = .regWrite 4 (s.cfg.regBase + off) v :: rest → off % 4 = 0 →
      (off = 0x004 → step s = .next { s with agenda := rest, arg0 := v }) ∧
      (off = 0x008 → step s = .next { s with agenda := rest, arg1 := v }) ∧
      (off ≠ 0x000 → off ≠ 0x004 → off ≠ 0x008 → step s = .next { s with agenda := rest })) ∧
    (∀ width v, width ≠ 4 ∨ off % 4 ≠ 0 →
      s.agenda = .regRead width (s.cfg.regBase + off) :: rest ∨
        s.agenda = .regWrite width (s.cfg.regBase + off) v :: rest →
      step s = .refused .registerAccessShape)

/-- The register accesses the model refuses: any while reset is asserted (R130), and any outside the 8 KiB window (R53). -/
def Obligations.RefusedAccesses : Prop :=
  ∀ (s : State) (width addr : Nat) (v : Word) (rest : List Event),
    s.agenda = .regRead width addr :: rest ∨ s.agenda = .regWrite width addr v :: rest →
    (s.inReset = true → step s = .refused .accessDuringReset) ∧
    (s.inReset = false → addr < s.cfg.regBase ∨ s.cfg.regBase + 0x2000 ≤ addr →
      step s = .refused .outsideRegisterWindow)

/-- WAIT (R105): while BUSY = 1 the poll goes on and the block gets its turn; at BUSY = 0 it ends, with STATUS as the data read. -/
def Obligations.WaitPollsUntilIdle : Prop :=
  ∀ (s : State) (rest : List Event), s.agenda = .wait :: rest → s.inReset = false →
    (isBusy s = false → step s = .next { s with agenda := rest, rdata := statusWord s }) ∧
    (∀ i l t, Completing s i l → exec i s = .next t → step s = .next t ∧ t.agenda = .wait :: rest ∧ isBusy t = false)

/-- Reads of CMD, ARG0, ARG1, STATUS and the configuration registers are exact at any time, BUSY or not (R46–R52, R127), and
reserved offsets read 0 (R53). STATUS carries BUSY in bit 0 and ERR in bits 15:8. -/
def Obligations.RegisterReadsAreExact : Prop :=
  ∀ (s : State) (off : Nat) (rest : List Event), s.inReset = false → off % 4 = 0 → off < 0x2000 →
    s.agenda = .regRead 4 (s.cfg.regBase + off) :: rest →
    let reads : Word → Prop := fun v => step s = .next { s with agenda := rest, rdata := v }
    (off = 0x000 → reads s.cmd) ∧ (off = 0x004 → reads s.arg0) ∧ (off = 0x008 → reads s.arg1) ∧
    (off = 0x010 → reads (BitVec.ofNat 32 ((if isBusy s = true then 1 else 0) + 256 * errValue s.err))) ∧
    (off = 0x014 → reads (BitVec.ofNat 32 s.cfg.sampleRate)) ∧ (off = 0x018 → reads (configWord s.cfg)) ∧
    (off = 0x01C → reads s.cfg.maxStageTimeMs) ∧
    (off = 0x00C ∨ (0x020 ≤ off ∧ off < 0x1000) ∨ 0x1000 + 0x20 * s.tracks.length ≤ off → reads 0x00000000#32)

/-- The words of a track's window, read while BUSY = 0 (R54), with the fields of TCTRL (R55) and TENV (R56) for a track
whose parameters are legal. -/
def Obligations.WindowShowsTheTrack : Prop :=
  (∀ (s : State) (t i : Nat) (tr : Track) (rest : List Event), s.inReset = false → isBusy s = false →
    s.tracks[t]? = some tr → t < 128 → i < 8 → s.agenda = .regRead 4 (s.cfg.regBase + (0x1000 + 0x20 * t + 4 * i)) :: rest →
    step s = .next { s with
      agenda := rest
      rdata := ([tctrlWord tr, tenvWord tr, tr.currentFactor, tr.phase, tr.phaseIncrement, tr.pwmPhase,
        tr.pwmPhaseIncrement, tr.pwmDepth][i]?).getD 0 }) ∧
  (∀ tr : Track,
    (tctrlWord tr).toNat % 2 = (if tr.enabled = true then 1 else 0) ∧
    (tctrlWord tr).toNat / 2 % 4 = envCode tr.envState ∧
    (tctrlWord tr).toNat / 8 % 4 = waveformCode tr.waveform ∧
    (tctrlWord tr).toNat / 32 = (if flt 0x00000000#32 tr.pwmDepth = true then 1 else 0) ∧
    (tenvWord tr).toNat % 256 = tr.attack.toNat ∧ (tenvWord tr).toNat / 256 % 256 = tr.decay.toNat ∧
    (tenvWord tr).toNat / 65536 % 256 = tr.sustain.toNat ∧ (tenvWord tr).toNat / 16777216 = tr.release.toNat)

/-- R51: the fields of CONFIG, for every legal build. -/
def Obligations.ConfigRegisterFields : Prop :=
  ∀ c : Config, c.wellFormed = true →
    (configWord c).toNat % 512 = c.trackCount ∧ (configWord c).toNat / 512 % 8 = 0 ∧
    (configWord c).toNat / 4096 % 32 = c.sineTableBits ∧
    (configWord c).toNat / 131072 % 2 = (if c.sineInterp = true then 1 else 0) ∧
    (configWord c).toNat / 262144 % 2 = (if c.noteOnResetsPhase = true then 1 else 0) ∧
    (configWord c).toNat / 524288 = (if c.bandlimit = .polyblep then 1 else 0)

/-- A host read of a word of the in-flight RENDER's buffer returns the old content or the final value (R81 (b)), and a read of
any other word returns its content. -/
def Obligations.InFlightReadIsOldOrFinal : Prop :=
  ∀ (s : State) (a : Nat) (rest : List Event), s.agenda = .memRead a :: rest → a % 4 = 0 → a + 4 ≤ 4294967296 →
    wordDeclared s.cfg a = true →
    ∃ t, step s = .next t ∧ t = { s with agenda := rest, rdata := t.rdata, fresh := t.fresh } ∧
      (t.rdata = hostWord s.mem a ∨
        ∃ l, Completing s .render l ∧ l.arg0.toNat ≤ a ∧ a < l.arg0.toNat + 8 * l.arg1.toNat ∧
          (renderedWords l s)[(a - l.arg0.toNat) / 4]? = some t.rdata)

/-! ## Reset (70_reset_and_hazards.md) -/

/-- R61, R261: asserting reset, in any state, gives every track and register its reset value and empties the latch. -/
def Obligations.ResetSetsEveryState : Prop :=
  ∀ (s : State) (rest : List Event), s.agenda = .resetAssert :: rest →
    ∃ t, step s = .next t ∧ t.cfg = s.cfg ∧ t.latch = none ∧ isBusy t = false ∧ t.err = .ok ∧
      t.cmd = 0x00000000#32 ∧ t.arg0 = 0x00000000#32 ∧ t.arg1 = 0x00000000#32 ∧ statusWord t = 0x00000000#32 ∧
      sineTable t.cfg = sineTable s.cfg ∧
      (s.cfg.sampleRate = 44100 → fdiv (fmul 0x40C90FDB#32 0x43DC0000#32) (toF32 s.cfg.sampleRate) = 0x3D80634A#32) ∧
      t.tracks = List.replicate s.cfg.trackCount {
        enabled := false, attack := 0#7, decay := 0#7, sustain := 126#7, release := 0#7,
        currentFactor := 0x3F800000#32, envState := .sustain, phase := 0x00000000#32,
        phaseIncrement := fdiv (fmul 0x40C90FDB#32 0x43DC0000#32) (toF32 s.cfg.sampleRate), waveform := .sine,
        pwmPhase := 0x00000000#32, pwmPhaseIncrement := 0x00000000#32, pwmDepth := 0x00000000#32 }

/-- R262: reset in flight abandons the command, and every track takes its reset value. Each word of an abandoned RENDER's
buffer holds its old content or the RENDER's value, no byte outside the buffer changes, and no other command leaves anything in memory. -/
def Obligations.ResetAbandonsTheCommand : Prop :=
  ∀ (s : State) (i : Instr) (l : Latch) (rest : List Event), Completing s i l → s.agenda = .resetAssert :: rest →
    ∃ t, step s = .next t ∧ t.latch = none ∧ t.tracks = resetTracks s.cfg ∧
      (i ≠ .render → t.mem = s.mem) ∧
      (i = .render →
        (∀ a, a < l.arg0.toNat ∨ l.arg0.toNat + 8 * l.arg1.toNat ≤ a → readByte t.mem a = readByte s.mem a) ∧
        (∀ (j : Nat) (v : Word), (renderedWords l s)[j]? = some v →
          readWord t.mem (l.arg0.toNat + 4 * j) = some v ∨
          readWord t.mem (l.arg0.toNat + 4 * j) = readWord s.mem (l.arg0.toNat + 4 * j)))

/-- The state after reset keeps the invariant, in every legal build whose reset frequency is legal (R264; log 13). -/
def Obligations.ResetKeepsTheInvariant : Prop :=
  State.reset.Inv = true ∧
  ∀ c : Config, c.wellFormed = true → resetIncrementOk c = true → (State.resetOf c).Inv = true

/-! ## The whole machine -/

/-- The invariant is kept by every step, from every state that has it: the track invariants of R44, TRACK_COUNT tracks,
memory in its canonical form and space, and a latch that holds accepted commands only (R128). -/
def Obligations.StepKeepsTheInvariant : Prop :=
  ∀ s t : State, s.Inv = true → step s = .next t → t.Inv = true

/-- The build parameters never change, and with them the configuration registers and the sine table (R141, R260, R263). -/
def Obligations.BuildNeverChanges : Prop :=
  ∀ s t : State, step s = .next t → t.cfg = s.cfg ∧ sineTable t.cfg = sineTable s.cfg ∧ configWord t.cfg = configWord s.cfg

/-- A command to one track leaves every other track as it is (R243), and a step that completes no command (nothing is in
flight, or neither the agenda's completion nor the block's turn is next) and asserts no reset leaves all of them as they are,
steps while BUSY = 1 included. -/
def Obligations.OtherTracksAreUntouched : Prop :=
  (∀ (i : Instr) (s t : State) (k : Nat), exec i s = .next t → i ≠ .render → k ≠ i.track → t.tracks[k]? = s.tracks[k]?) ∧
  (∀ s t : State, step s = .next t → (∀ rest, s.agenda ≠ .resetAssert :: rest) →
    s.latch = none ∨ (¬ BlockTurn s ∧ ∀ rest, s.agenda ≠ .complete :: rest) → t.tracks = s.tracks)

/-- Who may write a track's fields, over every step (R34–R43): apart from reset, `enabled` is set by NOTE_ON and cleared by a
RENDER whose advance reports ended; the envelope parameters are written by SET_ENVELOPE, the increment by SET_FREQUENCY and the
waveform by SET_WAVEFORM; the factor by NOTE_ON, to ZERO, and by the advance of a RENDER; the stage by these and NOTE_OFF; the
phases by NOTE_ON, to ZERO and where it resets them, and by a RENDER the track contributes to; and the PWM increment and depth
by ENABLE_PWM, to its operands, and by DISABLE_PWM, to ZERO. -/
def Obligations.OnlyTheirCommandsWriteFields : Prop :=
  ∀ (s t : State) (k : Nat) (tr tr' : Track), step s = .next t → (∀ rest, s.agenda ≠ .resetAssert :: rest) →
    s.tracks[k]? = some tr → t.tracks[k]? = some tr' →
    (tr.enabled = false → tr'.enabled = true → ∃ l, Completing s (.noteOn k) l) ∧
    (tr.enabled = true → tr'.enabled = false →
      ∃ l, Completing s .render l ∧ (advance s.cfg tr l.arg1.toNat).2 = true) ∧
    ((tr'.attack, tr'.decay, tr'.sustain, tr'.release) ≠ (tr.attack, tr.decay, tr.sustain, tr.release) →
      ∃ l, Completing s (.setEnvelope k) l) ∧
    (tr'.phaseIncrement ≠ tr.phaseIncrement → ∃ l, Completing s (.setFrequency k) l) ∧
    (tr'.waveform ≠ tr.waveform → ∃ l, Completing s (.setWaveform k) l) ∧
    (tr'.currentFactor ≠ tr.currentFactor →
      (∃ l, Completing s (.noteOn k) l ∧ tr'.currentFactor = 0x00000000#32) ∨
      ∃ l, Completing s .render l ∧ tr.enabled = true ∧
        tr'.currentFactor = (advance s.cfg tr l.arg1.toNat).1.currentFactor) ∧
    (tr'.envState ≠ tr.envState →
      (∃ l, Completing s (.noteOn k) l ∧ tr'.envState = .attack) ∨
      (∃ l, Completing s (.noteOff k) l ∧ tr'.envState = .release) ∨
      ∃ l, Completing s .render l ∧ tr.enabled = true ∧ tr'.envState = (advance s.cfg tr l.arg1.toNat).1.envState) ∧
    (tr'.phase ≠ tr.phase →
      (∃ l, Completing s (.noteOn k) l ∧ s.cfg.noteOnResetsPhase = true ∧ tr'.phase = 0x00000000#32) ∨
      ∃ l, Completing s .render l ∧ tr.enabled = true ∧ (advance s.cfg tr l.arg1.toNat).2 = false) ∧
    (tr'.pwmPhase ≠ tr.pwmPhase →
      (∃ l, Completing s (.noteOn k) l ∧ s.cfg.noteOnResetsPhase = true ∧ tr'.pwmPhase = 0x00000000#32) ∨
      ∃ l, Completing s .render l ∧ tr.enabled = true ∧ (advance s.cfg tr l.arg1.toNat).2 = false) ∧
    ((tr'.pwmPhaseIncrement, tr'.pwmDepth) ≠ (tr.pwmPhaseIncrement, tr.pwmDepth) →
      (∃ l, Completing s (.enablePwm k) l ∧ tr'.pwmPhaseIncrement = incr s.cfg l.arg0 ∧ tr'.pwmDepth = l.arg1) ∨
      ∃ l, Completing s (.disablePwm k) l ∧ tr'.pwmPhaseIncrement = 0x00000000#32 ∧ tr'.pwmDepth = 0x00000000#32)
end

