-- ==== Sys2Proof/Laws/Float.lean ====
section
/-! SUPPORT. binary32: encodings, rounding (monotone, exact on representable values), and the primitives on operands
that are not negative, where encodings order as values do. -/

namespace Sys2Proof.Machine

/-! Encodings. -/

theorem fpack_toNat (b : Bool) {m : Nat} (h : m < 0x80000000) :
    (fpack b m).toNat = m + if b then 0x80000000 else 0 := by
  unfold fpack
  rw [BitVec.toNat_ofNat]
  cases b
  · simp only [Bool.false_eq_true, if_false]
    omega
  · simp only [if_true]
    omega

@[simp] theorem fmag_fpack (b : Bool) {m : Nat} (h : m < 0x80000000) : fmag (fpack b m) = m := by
  unfold fmag
  rw [fpack_toNat b h]
  cases b <;> simp <;> omega

@[simp] theorem fsign_fpack (b : Bool) {m : Nat} (h : m < 0x80000000) : fsign (fpack b m) = b := by
  unfold fsign
  rw [fpack_toNat b h]
  cases b <;> simp <;> omega

theorem fmag_lt (x : F32) : fmag x < 0x80000000 := Nat.mod_lt _ (by decide)

/-- An encoding is its sign and its magnitude. -/
theorem fpack_eta (x : F32) : fpack (fsign x) (fmag x) = x := by
  apply BitVec.eq_of_toNat_eq
  rw [fpack_toNat _ (fmag_lt x)]
  have hx := x.isLt
  unfold fsign fmag
  by_cases h : 0x80000000 ≤ x.toNat
  · simp only [h, decide_true, if_true]
    omega
  · simp only [h, decide_false, Bool.false_eq_true, if_false]
    omega

/-! Rounding to an integer. -/

theorem roundNearest_mono {a b d : Nat} (h : a ≤ b) : roundNearest a d ≤ roundNearest b d := by
  unfold roundNearest
  have hq : a / d ≤ b / d := Nat.div_le_div_right h
  have ha := Nat.div_add_mod a d
  have hb := Nat.div_add_mod b d
  rcases Nat.lt_or_eq_of_le hq with hlt | heq
  · simp only
    split <;> split <;> omega
  · have hr : a % d ≤ b % d := by
      rw [heq] at ha
      omega
    simp only [heq]
    split <;> split <;> omega

theorem roundNearest_scale {c : Nat} (a d : Nat) (hc : 0 < c) : roundNearest (a * c) (d * c) = roundNearest a d := by
  unfold roundNearest
  rw [Nat.mul_div_mul_right _ _ hc, Nat.mul_mod_mul_right]
  have h1 : d * c < 2 * (a % d * c) ↔ d < 2 * (a % d) := by
    rw [← Nat.mul_assoc, Nat.mul_lt_mul_right hc]
  have h2 : 2 * (a % d * c) = d * c ↔ 2 * (a % d) = d := by
    rw [← Nat.mul_assoc]
    exact Nat.mul_left_inj (by omega)
  simp only [h1, h2]

theorem roundNearest_exact (m : Nat) {d : Nat} (hd : 0 < d) : roundNearest (m * d) d = m := by
  simp only [roundNearest, Nat.mul_mod_left, Nat.mul_div_cancel _ hd]
  rw [if_neg (by omega)]

theorem roundNearest_le {a d m : Nat} (hd : 0 < d) (h : a ≤ m * d) : roundNearest a d ≤ m :=
  (roundNearest_mono h).trans_eq (roundNearest_exact m hd)

theorem le_roundNearest {a d m : Nat} (hd : 0 < d) (h : m * d ≤ a) : m ≤ roundNearest a d :=
  (roundNearest_exact m hd).symm.trans_le (roundNearest_mono h)

/-! Rounding to a magnitude. -/

theorem log2_mono {a b : Nat} (h : a ≤ b) : Nat.log2 a ≤ Nat.log2 b := by
  rw [Nat.log2_eq_log_two, Nat.log2_eq_log_two]
  exact Nat.log_mono_right h

theorem roundMag_le_inf (num den : Nat) : roundMag num den ≤ 0x7F800000 := Nat.min_le_right _ _

theorem roundMag_lt (num den : Nat) : roundMag num den < 0x80000000 := by
  have := roundMag_le_inf num den
  omega

theorem roundMag_scale {c : Nat} (num den : Nat) (hc : 0 < c) : roundMag (num * c) (den * c) = roundMag num den := by
  unfold roundMag
  rw [Nat.mul_div_mul_right _ _ hc]
  simp only
  rw [Nat.mul_right_comm den c, roundNearest_scale _ _ hc]

@[simp] theorem roundMag_zero (den : Nat) : roundMag 0 den = 0 := by
  unfold roundMag roundShift
  simp only [Nat.zero_div, Nat.log2_zero, roundNearest, Nat.zero_mod]
  rw [if_neg (by omega)]
  simp

/-- The part of a rounded magnitude before it is bounded by infinity. -/
theorem roundMag_eq (num den : Nat) : roundMag num den =
    min (roundShift (num / den) * 0x800000 + roundNearest num (den * 2 ^ roundShift (num / den))) 0x7F800000 := rfl

/-- Rounding keeps order. -/
theorem roundMag_mono {a b d : Nat} (hd : 0 < d) (h : a ≤ b) : roundMag a d ≤ roundMag b d := by
  rw [roundMag_eq, roundMag_eq]
  have hq : a / d ≤ b / d := Nat.div_le_div_right h
  have hk : roundShift (a / d) ≤ roundShift (b / d) := by
    have := log2_mono hq
    unfold roundShift
    omega
  generalize hk1 : roundShift (a / d) = k1 at *
  generalize hk2 : roundShift (b / d) = k2 at *
  apply min_le_min_right
  rcases Nat.lt_or_eq_of_le hk with hlt | heq
  · have ha : roundNearest a (d * 2 ^ k1) ≤ 2 ^ 24 := by
      apply roundNearest_le (by positivity)
      have h1 : a / d < 2 ^ (k1 + 24) := by
        have hl : a / d < 2 ^ (Nat.log2 (a / d) + 1) := Nat.lt_log2_self
        refine hl.trans_le (Nat.pow_le_pow_right (by omega) ?_)
        unfold roundShift at hk1
        omega
      have h2 : a < 2 ^ (k1 + 24) * d := (Nat.div_lt_iff_lt_mul hd).mp h1
      rw [pow_add] at h2
      nlinarith [h2]
    have hb : 2 ^ 23 ≤ roundNearest b (d * 2 ^ k2) := by
      apply le_roundNearest (by positivity)
      have h1 : 2 ^ (k2 + 23) ≤ b / d := by
        have hne : b / d ≠ 0 := by
          intro h0
          rw [h0] at hk2
          simp only [roundShift, Nat.log2_zero] at hk2
          omega
        refine (Nat.pow_le_pow_right (by omega) ?_).trans (Nat.log2_self_le hne)
        unfold roundShift at hk2
        omega
      have h2 : 2 ^ (k2 + 23) * d ≤ b := (Nat.le_div_iff_mul_le hd).mp h1
      rw [pow_add] at h2
      nlinarith [h2]
    omega
  · subst heq
    have := roundNearest_mono (d := d * 2 ^ k1) h
    omega

/-- Rounding keeps the order of quotients. -/
theorem roundMag_mono_cross {a b d d' : Nat} (hd : 0 < d) (hd' : 0 < d') (h : a * d' ≤ b * d) :
    roundMag a d ≤ roundMag b d' := by
  rw [← roundMag_scale a d hd', ← roundMag_scale b d' hd, Nat.mul_comm d' d]
  exact roundMag_mono (by positivity) h

theorem magUnits_small {m : Nat} (h : m < 0x800000) : magUnits m = m := by
  unfold magUnits
  rw [if_pos (by omega)]

theorem magUnits_large {m : Nat} (h : 0x800000 ≤ m) :
    magUnits m = (0x800000 + m % 0x800000) * 2 ^ (m / 0x800000 - 1) := by
  unfold magUnits
  rw [if_neg (by omega)]

/-- Encodings order as the values they stand for. -/
theorem magUnits_mono {m m' : Nat} (h : m ≤ m') : magUnits m ≤ magUnits m' := by
  by_cases h1 : m < 0x800000
  · rw [magUnits_small h1]
    by_cases h2 : m' < 0x800000
    · rwa [magUnits_small h2]
    · rw [magUnits_large (by omega)]
      exact (show m ≤ 0x800000 + m' % 0x800000 by omega).trans (Nat.le_mul_of_pos_right _ (by positivity))
  · rw [magUnits_large (by omega), magUnits_large (by omega)]
    rcases Nat.lt_or_eq_of_le (Nat.div_le_div_right (c := 0x800000) h) with hlt | heq
    · have hp : 2 ^ (m / 0x800000 - 1) * 2 ≤ 2 ^ (m' / 0x800000 - 1) := by
        rw [← pow_succ]
        exact Nat.pow_le_pow_right (by omega) (by omega)
      have hr : m % 0x800000 < 0x800000 := Nat.mod_lt _ (by omega)
      have h3 : (0x800000 + m % 0x800000) * 2 ^ (m / 0x800000 - 1) ≤ 0x800000 * (2 ^ (m / 0x800000 - 1) * 2) := by
        nlinarith [Nat.zero_le (2 ^ (m / 0x800000 - 1))]
      exact h3.trans (Nat.mul_le_mul (by omega) hp)
    · rw [heq]
      exact Nat.mul_le_mul_right _ (by omega)

theorem magUnits_pos {m : Nat} (h : 0 < m) : 0 < magUnits m := by
  have := magUnits_mono (show 1 ≤ m from h)
  rwa [magUnits_small (by omega)] at this

@[simp] theorem magUnits_zero : magUnits 0 = 0 := rfl

/-- Rounding gives a representable value back. -/
theorem roundMag_exact {m d : Nat} (hd : 0 < d) (hm : m ≤ 0x7F800000) : roundMag (magUnits m * d) d = m := by
  rw [roundMag_eq, Nat.mul_div_cancel _ hd]
  by_cases h : m < 0x800000
  · have hk : roundShift (magUnits m) = 0 := by
      rw [magUnits_small h]
      unfold roundShift
      have : Nat.log2 m ≤ Nat.log2 0x7FFFFF := log2_mono (by omega)
      have h2 : Nat.log2 0x7FFFFF = 22 := by decide
      omega
    rw [hk, magUnits_small h, pow_zero, Nat.mul_one, roundNearest_exact m hd]
    omega
  · have hk : roundShift (magUnits m) = m / 0x800000 - 1 := by
      have hne : magUnits m ≠ 0 := Nat.ne_of_gt (magUnits_pos (by omega))
      have : Nat.log2 (magUnits m) = 23 + (m / 0x800000 - 1) := by
        rw [Nat.log2_eq_iff hne, magUnits_large (by omega)]
        have hr : m % 0x800000 < 0x800000 := Nat.mod_lt _ (by omega)
        have hp : 0 < 2 ^ (m / 0x800000 - 1) := by positivity
        constructor
        · rw [pow_add]
          exact Nat.mul_le_mul_right _ (by omega)
        · rw [show 23 + (m / 0x800000 - 1) + 1 = 24 + (m / 0x800000 - 1) by omega, pow_add]
          exact Nat.mul_lt_mul_of_pos_right (by omega) hp
      unfold roundShift
      omega
    rw [hk, magUnits_large (by omega), Nat.mul_assoc, Nat.mul_comm _ d,
      roundNearest_exact _ (by positivity)]
    omega

/-- A quotient at most a representable value rounds to at most it. -/
theorem roundMag_le {num den m : Nat} (hd : 0 < den) (hm : m ≤ 0x7F800000) (h : num ≤ magUnits m * den) :
    roundMag num den ≤ m :=
  (roundMag_mono hd h).trans_eq (roundMag_exact hd hm)

/-- A quotient at least a representable value rounds to at least it. -/
theorem le_roundMag {num den m : Nat} (hd : 0 < den) (hm : m ≤ 0x7F800000) (h : magUnits m * den ≤ num) :
    m ≤ roundMag num den :=
  (roundMag_exact hd hm).symm.trans_le (roundMag_mono hd h)

theorem magUnits_le_iff {m m' : Nat} (hm' : m ≤ 0x7F800000) (hm : m' ≤ 0x7F800000) :
    magUnits m ≤ magUnits m' ↔ m ≤ m' := by
  refine ⟨fun h => ?_, magUnits_mono⟩
  have h1 := roundMag_mono (d := 1) (by omega) (show magUnits m * 1 ≤ magUnits m' * 1 by omega)
  rwa [roundMag_exact (by omega) hm', roundMag_exact (by omega) hm] at h1

/-! Operands that are not negative: an encoding up to +infinity. -/

theorem fmag_of_le {x : F32} (h : x.toNat ≤ 0x7F800000) : fmag x = x.toNat := by
  unfold fmag
  omega

theorem fsign_of_le {x : F32} (h : x.toNat ≤ 0x7F800000) : fsign x = false := by
  unfold fsign
  simp
  omega

theorem isNaN_of_le {x : F32} (h : x.toNat ≤ 0x7F800000) : isNaN x = false := by
  unfold isNaN
  rw [fmag_of_le h]
  simpa using h

theorem isInf_of_lt {x : F32} (h : x.toNat < 0x7F800000) : isInf x = false := by
  unfold isInf
  rw [fmag_of_le (by omega)]
  simp
  omega

theorem funits_of_le {x : F32} (h : x.toNat ≤ 0x7F800000) : funits x = magUnits x.toNat := by
  unfold funits
  rw [fmag_of_le h]

theorem fvalue_of_le {x : F32} (h : x.toNat ≤ 0x7F800000) : fvalue x = (magUnits x.toNat : Int) := by
  unfold fvalue
  rw [fsign_of_le h, funits_of_le h]
  simp

theorem fkey_of_le {x : F32} (h : x.toNat ≤ 0x7F800000) : fkey x = (x.toNat : Int) := by
  unfold fkey
  rw [fsign_of_le h, fmag_of_le h]
  simp

theorem flt_of_le {a b : F32} (ha : a.toNat ≤ 0x7F800000) (hb : b.toNat ≤ 0x7F800000) :
    flt a b = decide (a.toNat < b.toNat) := by
  unfold flt
  rw [isNaN_of_le ha, isNaN_of_le hb, fkey_of_le ha, fkey_of_le hb]
  simp

theorem fle_of_le {a b : F32} (ha : a.toNat ≤ 0x7F800000) (hb : b.toNat ≤ 0x7F800000) :
    fle a b = decide (a.toNat ≤ b.toNat) := by
  unfold fle
  rw [isNaN_of_le ha, isNaN_of_le hb, fkey_of_le ha, fkey_of_le hb]
  simp

theorem roundMag_fpack_toNat (num den : Nat) : (fpack false (roundMag num den)).toNat = roundMag num den := by
  rw [fpack_toNat false (roundMag_lt num den)]
  simp

/-- The sum of two finite values that are not negative. -/
theorem fadd_toNat {a b : F32} (ha : a.toNat < 0x7F800000) (hb : b.toNat < 0x7F800000) :
    (fadd a b).toNat = roundMag (magUnits a.toNat + magUnits b.toNat) 1 := by
  unfold fadd
  rw [isNaN_of_le (by omega), isNaN_of_le (by omega), isInf_of_lt ha, isInf_of_lt hb, fsign_of_le (by omega),
    fsign_of_le (by omega), fvalue_of_le (by omega), fvalue_of_le (by omega)]
  simp only [Bool.or_self, Bool.false_eq_true, if_false]
  split
  · rename_i h
    have : magUnits a.toNat + magUnits b.toNat = 0 := by omega
    rw [this]
    simp [fpack]
  · unfold roundUnits
    have h1 : ¬ ((magUnits a.toNat : Int) + (magUnits b.toNat : Int) < 0) := by omega
    have h2 : ((magUnits a.toNat : Int) + (magUnits b.toNat : Int)).natAbs = magUnits a.toNat + magUnits b.toNat := by
      omega
    rw [h2, decide_eq_false h1, roundMag_fpack_toNat]

theorem fnegate_of_lt {b : F32} (hb : b.toNat < 0x7F800000) : fnegate b = fpack true b.toNat := by
  unfold fnegate
  rw [fsign_of_le (by omega), fmag_of_le (by omega)]
  rfl

/-- The negative of a finite magnitude. -/
theorem fpack_true_facts {m : Nat} (h : m < 0x7F800000) :
    isNaN (fpack true m) = false ∧ isInf (fpack true m) = false ∧ fvalue (fpack true m) = -(magUnits m : Int) := by
  unfold isNaN isInf fvalue funits
  rw [fsign_fpack true (by omega), fmag_fpack true (by omega)]
  refine ⟨?_, ?_, by simp⟩ <;> simp <;> omega

/-- The difference of two finite values that are not negative, the first at least the second. -/
theorem fsub_toNat {a b : F32} (ha : a.toNat < 0x7F800000) (hb : b.toNat ≤ a.toNat) :
    (fsub a b).toNat = roundMag (magUnits a.toNat - magUnits b.toNat) 1 := by
  have hb' : b.toNat < 0x7F800000 := by omega
  have hm : magUnits b.toNat ≤ magUnits a.toNat := magUnits_mono hb
  unfold fsub
  rw [isNaN_of_le (by omega), isNaN_of_le (by omega), isInf_of_lt ha, fnegate_of_lt hb']
  simp only [Bool.or_self, Bool.false_eq_true, if_false, Bool.false_and]
  obtain ⟨hN, hI, hV⟩ := fpack_true_facts hb'
  unfold fadd
  rw [isNaN_of_le (by omega), hN, isInf_of_lt ha, hI, hV, fsign_of_le (by omega), fvalue_of_le (by omega)]
  simp only [Bool.or_self, Bool.false_eq_true, if_false, Bool.false_and]
  split
  · rename_i h
    have : magUnits a.toNat - magUnits b.toNat = 0 := by omega
    rw [this]
    simp [fpack]
  · unfold roundUnits
    have h1 : ¬ ((magUnits a.toNat : Int) + -(magUnits b.toNat : Int) < 0) := by omega
    have h2 : ((magUnits a.toNat : Int) + -(magUnits b.toNat : Int)).natAbs = magUnits a.toNat - magUnits b.toNat := by
      omega
    rw [h2, decide_eq_false h1, roundMag_fpack_toNat]

/-- The difference of two values that are not negative, the first finite and below the second, is negative, and in
magnitude at most the second. -/
theorem fsub_neg {a b : F32} (ha : a.toNat < 0x7F800000) (hb : b.toNat ≤ 0x7F800000) (hlt : a.toNat < b.toNat) :
    ∃ m, 0 < m ∧ m ≤ b.toNat ∧ fsub a b = fpack true m := by
  unfold fsub
  rw [isNaN_of_le (by omega), isNaN_of_le hb, isInf_of_lt ha]
  simp only [Bool.or_self, Bool.false_eq_true, if_false, Bool.false_and]
  rcases Nat.lt_or_eq_of_le hb with hb' | heq
  · have hu : magUnits a.toNat < magUnits b.toNat := by
      have := magUnits_le_iff (m := b.toNat) (m' := a.toNat) (by omega) (by omega)
      omega
    rw [fnegate_of_lt hb']
    obtain ⟨hN, hI, hV⟩ := fpack_true_facts hb'
    unfold fadd
    rw [isNaN_of_le (by omega), hN, isInf_of_lt ha, hI, hV, fvalue_of_le (by omega)]
    simp only [Bool.or_self, Bool.false_eq_true, if_false]
    rw [if_neg (by omega)]
    refine ⟨roundMag (magUnits b.toNat - magUnits a.toNat) 1, ?_, roundMag_le (by omega) (by omega) (by omega), ?_⟩
    · have : 1 ≤ roundMag (magUnits b.toNat - magUnits a.toNat) 1 :=
        le_roundMag (m := 1) (by omega) (by omega) (by rw [magUnits_small (by omega)]; omega)
      omega
    · unfold roundUnits
      have h1 : (magUnits a.toNat : Int) + -(magUnits b.toNat : Int) < 0 := by omega
      have h2 : ((magUnits a.toNat : Int) + -(magUnits b.toNat : Int)).natAbs =
          magUnits b.toNat - magUnits a.toNat := by omega
      rw [h2, decide_eq_true h1]
  · refine ⟨0x7F800000, by omega, by omega, ?_⟩
    have hb2 : b = 0x7F800000#32 := BitVec.eq_of_toNat_eq (by simpa using heq)
    subst hb2
    have h1 : isNaN (fnegate 0x7F800000#32) = false := by decide
    have h2 : isInf (fnegate 0x7F800000#32) = true := by decide
    unfold fadd
    rw [isNaN_of_le (by omega), isInf_of_lt ha, h1, h2]
    simp only [Bool.or_self, Bool.false_eq_true, if_false, if_true]
    decide

/-- Adding a negative value is subtracting its magnitude, in either order. -/
theorem fadd_fpack_true {a b : F32} (ha : a.toNat < 0x7F800000) (hb : b.toNat < 0x7F800000) :
    fadd a (fpack true b.toNat) = fsub a b ∧ fadd (fpack true b.toNat) a = fsub a b := by
  obtain ⟨hN, hI, hV⟩ := fpack_true_facts hb
  have h : fadd a (fpack true b.toNat) = fsub a b := by
    unfold fsub
    rw [isNaN_of_le (by omega), isNaN_of_le (by omega), isInf_of_lt ha, fnegate_of_lt hb]
    simp only [Bool.or_self, Bool.false_eq_true, if_false, Bool.false_and]
  refine ⟨h, ?_⟩
  rw [← h]
  unfold fadd
  rw [hN, isNaN_of_le (by omega), hI, isInf_of_lt ha]
  simp only [Bool.or_self, Bool.false_eq_true, if_false, Int.add_comm, Bool.and_comm]

/-- The product of two finite values that are not negative. -/
theorem fmul_toNat {a b : F32} (ha : a.toNat < 0x7F800000) (hb : b.toNat < 0x7F800000) :
    (fmul a b).toNat = roundMag (magUnits a.toNat * magUnits b.toNat) unitScale := by
  unfold fmul
  rw [isNaN_of_le (by omega), isNaN_of_le (by omega), isInf_of_lt ha, isInf_of_lt hb, fsign_of_le (by omega),
    fsign_of_le (by omega), funits_of_le (by omega), funits_of_le (by omega)]
  simp only [Bool.or_self, Bool.false_eq_true, if_false, bne_self_eq_false]
  rw [roundMag_fpack_toNat]

/-- The quotient of two finite values that are not negative, the divisor not zero. -/
theorem fdiv_toNat {a b : F32} (ha : a.toNat < 0x7F800000) (hb : b.toNat < 0x7F800000) (h0 : 0 < b.toNat) :
    (fdiv a b).toNat = roundMag (magUnits a.toNat * unitScale) (magUnits b.toNat) := by
  unfold fdiv
  rw [isNaN_of_le (by omega), isNaN_of_le (by omega), isInf_of_lt ha, isInf_of_lt hb, fsign_of_le (by omega),
    fsign_of_le (by omega), funits_of_le (by omega), funits_of_le (by omega), fmag_of_le (x := b) (by omega)]
  simp only [Bool.or_self, Bool.false_eq_true, if_false, bne_self_eq_false]
  rw [if_neg (by omega), roundMag_fpack_toNat]

/-- A finite value that is not negative over +infinity is zero. -/
theorem fdiv_inf_toNat {a b : F32} (ha : a.toNat < 0x7F800000) (hb : b.toNat = 0x7F800000) : (fdiv a b).toNat = 0 := by
  have hb2 : b = 0x7F800000#32 := BitVec.eq_of_toNat_eq (by simpa using hb)
  subst hb2
  have h1 : isNaN 0x7F800000#32 = false := by decide
  have h2 : isInf 0x7F800000#32 = true := by decide
  unfold fdiv
  rw [isNaN_of_le (by omega), isInf_of_lt ha, fsign_of_le (by omega), h1, h2]
  simp only [Bool.or_self, Bool.false_eq_true, if_false, if_true]
  decide

theorem toF32_toNat (n : Nat) : (toF32 n).toNat = roundMag (n * unitScale) 1 := by
  unfold toF32 roundRatio
  exact roundMag_fpack_toNat _ _

end Sys2Proof.Machine
end

