-- ==== Sys2Proof/Laws/Memory.lean ====
section
/-! SUPPORT. Host memory: reading after writing, the canonical form, and what writing a run of words does. -/

namespace Sys2Proof.Machine

theorem cellsFrom_weaken {lo lo' : Nat} (h : lo' ≤ lo) : ∀ {m : Memory}, cellsFrom lo m = true → cellsFrom lo' m = true
  | [], _ => rfl
  | (a, _) :: rest, hm => by
    simp only [cellsFrom, Bool.and_eq_true, decide_eq_true_eq] at hm ⊢
    exact ⟨by omega, hm.2⟩

theorem writeByte_cellsFrom {lo a : Nat} (b : Byte) (h : lo ≤ a) :
    ∀ {m : Memory}, cellsFrom lo m = true → cellsFrom lo (writeByte m a b) = true
  | [], _ => by simp [writeByte, cellsFrom, h]
  | (k, v) :: rest, hm => by
    simp only [cellsFrom, Bool.and_eq_true, decide_eq_true_eq] at hm
    unfold writeByte
    split
    · rename_i hlt
      simp only [cellsFrom, Bool.and_eq_true, decide_eq_true_eq]
      exact ⟨h, by omega, hm.2⟩
    · split
      · rename_i heq
        subst heq
        simp only [cellsFrom, Bool.and_eq_true, decide_eq_true_eq]
        exact ⟨hm.1, hm.2⟩
      · rename_i h1 h2
        simp only [cellsFrom, Bool.and_eq_true, decide_eq_true_eq]
        exact ⟨hm.1, writeByte_cellsFrom b (by omega) hm.2⟩

/-- A byte write keeps the canonical form. -/
theorem writeByte_wf {m : Memory} (a : Nat) (b : Byte) (h : memWf m = true) : memWf (writeByte m a b) = true :=
  writeByte_cellsFrom b (Nat.zero_le a) h

/-- A word write keeps the canonical form. -/
theorem writeWord_wf {m : Memory} (a : Nat) (v : Word) (h : memWf m = true) : memWf (writeWord m a v) = true :=
  writeByte_wf _ _ (writeByte_wf _ _ (writeByte_wf _ _ (writeByte_wf _ _ h)))

@[simp] theorem readByte_writeByte_same (m : Memory) (a : Nat) (b : Byte) :
    readByte (writeByte m a b) a = some b := by
  induction m with
  | nil => simp [writeByte, readByte]
  | cons c rest ih =>
    obtain ⟨k, v⟩ := c
    unfold writeByte
    split
    · simp [readByte]
    · split
      · simp [readByte]
      · rename_i h
        simp [readByte, h, ih]

theorem readByte_below {a lo : Nat} (h : a < lo) : ∀ {m : Memory}, cellsFrom lo m = true → readByte m a = none
  | [], _ => rfl
  | (k, v) :: rest, hm => by
    simp only [cellsFrom, Bool.and_eq_true, decide_eq_true_eq] at hm
    have hne : a ≠ k := by omega
    simp only [readByte, hne, if_false]
    exact readByte_below (by omega) hm.2

@[simp] theorem readByte_writeByte_other (m : Memory) {a a' : Nat} (b : Byte) (h : a' ≠ a) :
    readByte (writeByte m a b) a' = readByte m a' := by
  induction m with
  | nil => simp [writeByte, readByte, h]
  | cons c rest ih =>
    obtain ⟨k, v⟩ := c
    unfold writeByte
    split
    · simp [readByte, h]
    · split
      · rename_i heq
        subst heq
        simp [readByte, h]
      · simp only [readByte, ih]

/-- A byte write lists no address but its own and those listed before. -/
theorem writeByte_inSpace {m : Memory} {a : Nat} (b : Byte) (ha : a < 4294967296)
    (h : m.all (fun c => c.1 < 4294967296) = true) : (writeByte m a b).all (fun c => c.1 < 4294967296) = true := by
  induction m with
  | nil => simpa [writeByte] using ha
  | cons c rest ih =>
    obtain ⟨k, v⟩ := c
    simp only [List.all_cons, Bool.and_eq_true, decide_eq_true_eq] at h
    unfold writeByte
    split
    · simp only [List.all_cons, Bool.and_eq_true, decide_eq_true_eq]
      exact ⟨ha, h.1, h.2⟩
    · split
      · simp only [List.all_cons, Bool.and_eq_true, decide_eq_true_eq]
        exact ⟨ha, h.2⟩
      · simp only [List.all_cons, Bool.and_eq_true, decide_eq_true_eq]
        exact ⟨h.1, ih h.2⟩

theorem writeWord_inSpace {m : Memory} {a : Nat} (v : Word) (ha : a + 4 ≤ 4294967296)
    (h : m.all (fun c => c.1 < 4294967296) = true) : (writeWord m a v).all (fun c => c.1 < 4294967296) = true :=
  writeByte_inSpace _ (by omega) (writeByte_inSpace _ (by omega) (writeByte_inSpace _ (by omega)
    (writeByte_inSpace _ (by omega) h)))

theorem byteOfWord_toNat (v : Word) (k : Nat) : (byteOfWord v k).toNat = v.toNat / 256 ^ k % 256 := by
  simp [byteOfWord]

/-- The four bytes of a word make the word again (R73). -/
@[simp] theorem wordOfBytes_bytes (v : Word) :
    wordOfBytes (byteOfWord v 0) (byteOfWord v 1) (byteOfWord v 2) (byteOfWord v 3) = v := by
  apply BitVec.eq_of_toNat_eq
  have hv := v.isLt
  simp only [wordOfBytes, byteOfWord_toNat, BitVec.toNat_ofNat]
  omega

/-- A word write leaves every byte outside its four alone. -/
theorem readByte_writeWord_other (m : Memory) {a x : Nat} (v : Word) (h : x < a ∨ a + 4 ≤ x) :
    readByte (writeWord m a v) x = readByte m x := by
  unfold writeWord
  rw [readByte_writeByte_other _ _ (by omega), readByte_writeByte_other _ _ (by omega),
    readByte_writeByte_other _ _ (by omega), readByte_writeByte_other _ _ (by omega)]

/-- A word write puts byte k of the word at `a + k` (R73). -/
theorem readByte_writeWord_at (m : Memory) (a : Nat) (v : Word) {k : Nat} (hk : k < 4) :
    readByte (writeWord m a v) (a + k) = some (byteOfWord v k) := by
  unfold writeWord
  obtain rfl | rfl | rfl | rfl : k = 0 ∨ k = 1 ∨ k = 2 ∨ k = 3 := by omega
  · rw [readByte_writeByte_other _ _ (by omega), readByte_writeByte_other _ _ (by omega),
      readByte_writeByte_other _ _ (by omega)]
    exact readByte_writeByte_same _ _ _
  · rw [readByte_writeByte_other _ _ (by omega), readByte_writeByte_other _ _ (by omega), readByte_writeByte_same]
  · rw [readByte_writeByte_other _ _ (by omega), readByte_writeByte_same]
  · rw [readByte_writeByte_same]

/-- Reading a word just written gives it back. -/
@[simp] theorem readWord_writeWord_same (m : Memory) (a : Nat) (v : Word) : readWord (writeWord m a v) a = some v := by
  have h0 := readByte_writeWord_at m a v (k := 0) (by omega)
  have h1 := readByte_writeWord_at m a v (k := 1) (by omega)
  have h2 := readByte_writeWord_at m a v (k := 2) (by omega)
  have h3 := readByte_writeWord_at m a v (k := 3) (by omega)
  simp only [Nat.add_zero] at h0
  simp [readWord, h0, h1, h2, h3]

/-- Writing a word leaves a word that does not overlap it alone. -/
theorem readWord_writeWord_other (m : Memory) {a x : Nat} (v : Word) (h : x + 4 ≤ a ∨ a + 4 ≤ x) :
    readWord (writeWord m a v) x = readWord m x := by
  unfold readWord
  rw [readByte_writeWord_other m v (by omega), readByte_writeWord_other m v (by omega),
    readByte_writeWord_other m v (by omega), readByte_writeWord_other m v (by omega)]

/-- Equal memories are equal data: two canonical memories that read alike are the same list. -/
theorem memory_ext {lo : Nat} : ∀ {m m' : Memory}, cellsFrom lo m = true → cellsFrom lo m' = true →
    (∀ a, readByte m a = readByte m' a) → m = m'
  | [], [], _, _, _ => rfl
  | [], (k, v) :: r, _, _, h => by simpa [readByte] using h k
  | (k, v) :: r, [], _, _, h => by simpa [readByte] using h k
  | (k, v) :: r, (k', v') :: r', hm, hm', h => by
    simp only [cellsFrom, Bool.and_eq_true, decide_eq_true_eq] at hm hm'
    have hk : k = k' := by
      rcases Nat.lt_trichotomy k k' with hlt | heq | hgt
      · have := h k
        simp only [readByte, if_true, Nat.ne_of_lt hlt, if_false, readByte_below (by omega : k < k' + 1) hm'.2] at this
        cases this
      · exact heq
      · have := h k'
        simp only [readByte, if_true, Nat.ne_of_lt hgt, if_false, readByte_below (by omega : k' < k + 1) hm.2] at this
        cases this
    subst hk
    have hv : v = v' := by simpa [readByte] using h k
    subst hv
    rw [memory_ext hm.2 hm'.2 (fun a => ?_)]
    by_cases ha : a = k
    · rw [ha, readByte_below (by omega) hm.2, readByte_below (by omega) hm'.2]
    · simpa [readByte, ha] using h a

/-! What writing a run of words from an address on does (R76, R86, R216, R262). -/

theorem commitWords_wf (fate : Nat → WordFate) : ∀ (ws : List Word) (a : Nat) {m : Memory} (k : Nat),
    memWf m = true → memWf (commitWords fate ws a m k).1 = true
  | [], _, _, _, h => h
  | v :: vs, a, m, k, h => by
    unfold commitWords
    cases fate a with
    | rendered => exact commitWords_wf fate vs _ _ (writeWord_wf a v h)
    | either =>
      refine commitWords_wf fate vs _ _ ?_
      split
      · exact writeWord_wf a v h
      · exact h
    | kept => exact commitWords_wf fate vs _ _ h

theorem commitWords_inSpace (fate : Nat → WordFate) : ∀ (ws : List Word) (a : Nat) {m : Memory} (k : Nat),
    a + 4 * ws.length ≤ 4294967296 → m.all (fun c => c.1 < 4294967296) = true →
    (commitWords fate ws a m k).1.all (fun c => c.1 < 4294967296) = true
  | [], _, _, _, _, h => h
  | v :: vs, a, m, k, ha, h => by
    simp only [List.length_cons] at ha
    unfold commitWords
    cases fate a with
    | rendered => exact commitWords_inSpace fate vs _ _ (by omega) (writeWord_inSpace v (by omega) h)
    | either =>
      refine commitWords_inSpace fate vs _ _ (by omega) ?_
      split
      · exact writeWord_inSpace v (by omega) h
      · exact h
    | kept => exact commitWords_inSpace fate vs _ _ (by omega) h

/-- No byte outside the run is written (R76). -/
theorem commitWords_outside (fate : Nat → WordFate) : ∀ (ws : List Word) (a : Nat) (m : Memory) (k : Nat) {x : Nat},
    (x < a ∨ a + 4 * ws.length ≤ x) → readByte (commitWords fate ws a m k).1 x = readByte m x
  | [], _, _, _, _, _ => rfl
  | v :: vs, a, m, k, x, h => by
    simp only [List.length_cons] at h
    unfold commitWords
    cases fate a with
    | rendered =>
      simp only
      rw [commitWords_outside fate vs _ _ _ (by omega), readByte_writeWord_other m v (by omega)]
    | either =>
      simp only
      rw [commitWords_outside fate vs _ _ _ (by omega)]
      split
      · rw [readByte_writeWord_other m v (by omega)]
      · rfl
    | kept =>
      simp only
      rw [commitWords_outside fate vs _ _ _ (by omega)]

theorem readWord_congr {m m' : Memory} {a : Nat} (h : ∀ x, a ≤ x → x < a + 4 → readByte m x = readByte m' x) :
    readWord m a = readWord m' a := by
  unfold readWord
  rw [h a (by omega) (by omega), h (a + 1) (by omega) (by omega), h (a + 2) (by omega) (by omega),
    h (a + 3) (by omega) (by omega)]

/-- Word j of the run ends as its fate says. -/
theorem commitWords_word (fate : Nat → WordFate) : ∀ (ws : List Word) (a : Nat) (m : Memory) (k : Nat) {j : Nat} {v : Word},
    ws[j]? = some v →
    match fate (a + 4 * j) with
    | .rendered => readWord (commitWords fate ws a m k).1 (a + 4 * j) = some v
    | .either => readWord (commitWords fate ws a m k).1 (a + 4 * j) = some v ∨
        readWord (commitWords fate ws a m k).1 (a + 4 * j) = readWord m (a + 4 * j)
    | .kept => readWord (commitWords fate ws a m k).1 (a + 4 * j) = readWord m (a + 4 * j)
  | [], _, _, _, j, v, h => by simp at h
  | w :: vs, a, m, k, 0, v, h => by
    simp only [List.getElem?_cons_zero, Option.some.injEq] at h
    subst h
    simp only [Nat.mul_zero, Nat.add_zero]
    have tail : ∀ m' k', readWord (commitWords fate vs (a + 4) m' k').1 a = readWord m' a := fun m' k' =>
      readWord_congr fun x _ h2 => commitWords_outside fate vs (a + 4) m' k' (by omega)
    unfold commitWords
    cases fate a with
    | rendered => simp only [tail, readWord_writeWord_same]
    | either =>
      simp only [tail]
      split
      · left
        exact readWord_writeWord_same m a w
      · right
        rfl
    | kept => simp only [tail]
  | w :: vs, a, m, k, j + 1, v, h => by
    simp only [List.getElem?_cons_succ] at h
    have hadd : a + 4 * (j + 1) = a + 4 + 4 * j := by omega
    have head : ∀ u, readWord (writeWord m a u) (a + 4 + 4 * j) = readWord m (a + 4 + 4 * j) := fun u =>
      readWord_writeWord_other m u (by omega)
    rw [hadd]
    unfold commitWords
    cases fate a with
    | rendered =>
      simp only
      have ih := commitWords_word fate vs (a + 4) (writeWord m a w) k h
      rwa [head] at ih
    | either =>
      cases freeBit k with
      | true =>
        have ih := commitWords_word fate vs (a + 4) (writeWord m a w) (k + 1) h
        rwa [head] at ih
      | false => exact commitWords_word fate vs (a + 4) m (k + 1) h
    | kept =>
      simp only
      exact commitWords_word fate vs (a + 4) m k h

end Sys2Proof.Machine
end

