-- ==== Sys2Proof/Laws/Nearest.lean ====
section
/-! SUPPORT. Rounding gives a nearest representable value (R11, R12): no other encoding lies closer. -/

namespace Sys2Proof.Machine

/-- The nearest integer is off by at most one half. -/
theorem roundNearest_err (a : Nat) {d : Nat} (hd : 0 < d) :
    2 * (roundNearest a d * d) ≤ 2 * a + d ∧ 2 * a ≤ 2 * (roundNearest a d * d) + d := by
  have ha := Nat.div_add_mod a d
  have hr := Nat.mod_lt a hd
  rw [Nat.mul_comm] at ha
  unfold roundNearest
  simp only
  split
  · rw [Nat.add_mul, Nat.one_mul]
    omega
  · omega

/-- No multiple lies closer than the nearest one. -/
theorem roundNearest_nearest (a w : Nat) {d : Nat} (hd : 0 < d) :
    |((roundNearest a d * d : Nat) : ℤ) - a| ≤ |((w * d : Nat) : ℤ) - a| := by
  obtain ⟨h1, h2⟩ := roundNearest_err a hd
  generalize roundNearest a d = r at *
  rcases Nat.lt_trichotomy w r with h | rfl | h
  · have h3 : w * d + d ≤ r * d := by
      rw [← Nat.succ_mul]
      exact Nat.mul_le_mul_right _ h
    generalize w * d = x at *
    generalize r * d = y at *
    rw [abs_of_nonpos (show (x : ℤ) - a ≤ 0 by omega), abs_le]
    constructor <;> omega
  · exact le_rfl
  · have h3 : r * d + d ≤ w * d := by
      rw [← Nat.succ_mul]
      exact Nat.mul_le_mul_right _ h
    generalize w * d = x at *
    generalize r * d = y at *
    rw [abs_of_nonneg (show 0 ≤ (x : ℤ) - a by omega), abs_le]
    constructor <;> omega

/-- The value of the encoding with k shifts and the rounded significand r. -/
theorem magUnits_shift {k r : Nat} (h : r ≤ 2 ^ 24) (hk : k = 0 ∨ 2 ^ 23 ≤ r) :
    magUnits (k * 0x800000 + r) = r * 2 ^ k := by
  by_cases h1 : r < 0x800000
  · obtain rfl : k = 0 := by omega
    rw [magUnits_small (by omega)]
    omega
  · rw [magUnits_large (by omega)]
    by_cases h2 : r = 2 ^ 24
    · subst h2
      have e1 : (k * 0x800000 + 2 ^ 24) / 0x800000 = k + 2 := by omega
      have e2 : (k * 0x800000 + 2 ^ 24) % 0x800000 = 0 := by omega
      rw [e1, e2, show k + 2 - 1 = k + 1 by omega, pow_succ]
      ring
    · have e1 : (k * 0x800000 + r) / 0x800000 = k + 1 := by omega
      have e2 : (k * 0x800000 + r) % 0x800000 = r - 0x800000 := by omega
      rw [e1, e2, show k + 1 - 1 = k by omega, show 0x800000 + (r - 0x800000) = r by omega]

/-- A representable value of at least 2^(23+k) units is a multiple of 2^k units. -/
theorem magUnits_multiple {m k : Nat} (h : 2 ^ (23 + k) ≤ magUnits m) : ∃ w, magUnits m = w * 2 ^ k := by
  by_cases h1 : m < 0x800000
  · rw [magUnits_small h1] at h ⊢
    have : (2 : Nat) ^ 23 ≤ 2 ^ (23 + k) := Nat.pow_le_pow_right (by omega) (by omega)
    omega
  · rw [magUnits_large (by omega)] at h ⊢
    generalize he : m / 0x800000 - 1 = e at *
    have hr : m % 0x800000 < 0x800000 := Nat.mod_lt _ (by omega)
    have hlt : (2 : Nat) ^ (23 + k) < 2 ^ (24 + e) := by
      rw [pow_add 2 24 e]
      refine h.trans_lt ?_
      exact Nat.mul_lt_mul_of_pos_right (by omega) (by positivity)
    have hke : k ≤ e := by
      have := (Nat.pow_lt_pow_iff_right (show 1 < 2 by omega)).mp hlt
      omega
    refine ⟨(0x800000 + m % 0x800000) * 2 ^ (e - k), ?_⟩
    rw [Nat.mul_assoc, ← pow_add, show e - k + k = e by omega]

/-- The bounds of the rounded significand. -/
theorem roundNearest_bounds (num : Nat) {den : Nat} (hd : 0 < den) :
    roundNearest num (den * 2 ^ roundShift (num / den)) ≤ 2 ^ 24 ∧
    (roundShift (num / den) = 0 ∨
      (2 ^ (23 + roundShift (num / den)) * den ≤ num ∧
        2 ^ 23 ≤ roundNearest num (den * 2 ^ roundShift (num / den)))) := by
  generalize hk : roundShift (num / den) = k
  constructor
  · apply roundNearest_le (by positivity)
    have h1 : num / den < 2 ^ (k + 24) := by
      have hl : num / den < 2 ^ (Nat.log2 (num / den) + 1) := Nat.lt_log2_self
      refine hl.trans_le (Nat.pow_le_pow_right (by omega) ?_)
      unfold roundShift at hk
      omega
    have h2 : num < 2 ^ (k + 24) * den := (Nat.div_lt_iff_lt_mul hd).mp h1
    rw [pow_add] at h2
    nlinarith [h2]
  · rcases Nat.eq_zero_or_pos k with h0 | h0
    · exact .inl h0
    · right
      have h1 : 2 ^ (23 + k) ≤ num / den := by
        have hne : num / den ≠ 0 := by
          intro hz
          rw [hz] at hk
          simp only [roundShift, Nat.log2_zero] at hk
          omega
        refine (Nat.pow_le_pow_right (by omega) ?_).trans (Nat.log2_self_le hne)
        unfold roundShift at hk
        omega
      have h2 : 2 ^ (23 + k) * den ≤ num := (Nat.le_div_iff_mul_le hd).mp h1
      refine ⟨h2, le_roundNearest (by positivity) ?_⟩
      rw [pow_add] at h2
      nlinarith [h2]

/-- A magnitude rounds to infinity exactly from half a step above the largest finite value on (R11, roundTiesToEven). -/
theorem roundMag_overflow {num den : Nat} (hd : 0 < den) :
    roundMag num den < 0x7F800000 ↔ num < (2 ^ 25 - 1) * 2 ^ 252 * den := by
  constructor
  · intro h
    by_contra hge
    have h1 := roundMag_mono hd (Nat.le_of_not_lt hge)
    have h2 : roundMag ((2 ^ 25 - 1) * 2 ^ 252 * den) den = 0x7F800000 := by
      have := roundMag_scale ((2 ^ 25 - 1) * 2 ^ 252) 1 hd
      rw [Nat.one_mul] at this
      rw [this]
      decide +kernel
    omega
  · intro h
    obtain ⟨h1, -⟩ := roundNearest_bounds num hd
    rw [roundMag_eq]
    refine (Nat.min_le_left _ _).trans_lt ?_
    have hq : num / den < (2 ^ 25 - 1) * 2 ^ 252 := (Nat.div_lt_iff_lt_mul hd).mpr h
    have hk : roundShift (num / den) ≤ 253 := by
      have : Nat.log2 (num / den) < 277 := by
        rcases Nat.eq_zero_or_pos (num / den) with h0 | h0
        · rw [h0]
          decide
        · exact (Nat.log2_lt h0.ne').mpr (by omega)
      unfold roundShift
      omega
    generalize roundShift (num / den) = k at *
    rcases Nat.lt_or_ge k 253 with hk' | hk'
    · omega
    · obtain rfl : k = 253 := by omega
      obtain ⟨h3, -⟩ := roundNearest_err num (show 0 < den * 2 ^ 253 by positivity)
      generalize roundNearest num (den * 2 ^ 253) = r at *
      have h4 : 2 * (r * (den * 2 ^ 253)) < 2 * (2 ^ 24 * (den * 2 ^ 253)) := by
        generalize den = x at *
        omega
      have h5 : r < 2 ^ 24 := by
        by_contra hr
        have := Nat.mul_le_mul_right (den * 2 ^ 253) (Nat.le_of_not_lt hr)
        omega
      omega

/-- `roundMag` rounds to nearest: no encoding stands for a value closer to num / den units. -/
theorem roundMag_nearest {num den : Nat} (hd : 0 < den) (hfin : roundMag num den < 0x7F800000) (m : Nat) :
    |((magUnits (roundMag num den) * den : Nat) : ℤ) - num| ≤ |((magUnits m * den : Nat) : ℤ) - num| := by
  obtain ⟨h1, h2⟩ := roundNearest_bounds num hd
  have hval : magUnits (roundMag num den) =
      roundNearest num (den * 2 ^ roundShift (num / den)) * 2 ^ roundShift (num / den) := by
    rw [roundMag_eq] at hfin ⊢
    rw [min_eq_left (by omega)]
    exact magUnits_shift h1 (h2.imp id And.right)
  rw [hval]
  generalize roundShift (num / den) = k at *
  have key : ∀ w : Nat, |((roundNearest num (den * 2 ^ k) * 2 ^ k * den : Nat) : ℤ) - num| ≤
      |((w * 2 ^ k * den : Nat) : ℤ) - num| := by
    intro w
    have := roundNearest_nearest num w (show 0 < den * 2 ^ k by positivity)
    have e : ∀ x : Nat, x * (den * 2 ^ k) = x * 2 ^ k * den := fun x => by ring
    rwa [e, e] at this
  rcases h2 with rfl | ⟨h3, -⟩
  · have := key (magUnits m)
    rwa [pow_zero, Nat.mul_one (magUnits m)] at this
  · by_cases h4 : 2 ^ (23 + k) ≤ magUnits m
    · obtain ⟨w, hw⟩ := magUnits_multiple h4
      rw [hw]
      exact key w
    · refine (key (2 ^ 23)).trans ?_
      rw [← pow_add]
      have h5 : magUnits m * den ≤ 2 ^ (23 + k) * den := Nat.mul_le_mul_right _ (by omega)
      generalize 2 ^ (23 + k) * den = x at *
      generalize magUnits m * den = y at *
      rw [abs_of_nonpos (by omega), abs_of_nonpos (by omega)]
      omega

/-- A tie goes to the even integer. -/
theorem roundNearest_even (a w : Nat) {d : Nat} (hd : 0 < d) (hne : w ≠ roundNearest a d)
    (heq : |((w * d : Nat) : ℤ) - a| = |((roundNearest a d * d : Nat) : ℤ) - a|) : roundNearest a d % 2 = 0 := by
  obtain ⟨h1, h2⟩ := roundNearest_err a hd
  have ht : 2 * (roundNearest a d * d) = 2 * a + d ∨ 2 * a = 2 * (roundNearest a d * d) + d := by
    generalize roundNearest a d = r at *
    rcases Nat.lt_or_gt_of_ne hne with h | h
    · have h3 : w * d + d ≤ r * d := by
        rw [← Nat.succ_mul]
        exact Nat.mul_le_mul_right _ h
      generalize w * d = x at *
      generalize r * d = y at *
      rw [abs_of_nonpos (show (x : ℤ) - a ≤ 0 by omega)] at heq
      rcases abs_cases ((y : ℤ) - a) with ⟨h4, -⟩ | ⟨h4, -⟩ <;> rw [h4] at heq <;> omega
    · have h3 : r * d + d ≤ w * d := by
        rw [← Nat.succ_mul]
        exact Nat.mul_le_mul_right _ h
      generalize w * d = x at *
      generalize r * d = y at *
      rw [abs_of_nonneg (show 0 ≤ (x : ℤ) - a by omega)] at heq
      rcases abs_cases ((y : ℤ) - a) with ⟨h4, -⟩ | ⟨h4, -⟩ <;> rw [h4] at heq <;> omega
  have ha := Nat.div_add_mod a d
  have hr := Nat.mod_lt a hd
  rw [Nat.mul_comm] at ha
  unfold roundNearest at ht ⊢
  simp only at ht ⊢
  split at ht
  · rename_i h
    rw [if_pos h]
    rw [Nat.add_mul, Nat.one_mul] at ht
    omega
  · rename_i h
    rw [if_neg h]
    omega

/-- A tie between two encodings goes to the one with an even significand (R11). -/
theorem roundMag_even {num den m : Nat} (hd : 0 < den) (hfin : roundMag num den < 0x7F800000)
    (hne : magUnits m ≠ magUnits (roundMag num den))
    (heq : |((magUnits m * den : Nat) : ℤ) - num| = |((magUnits (roundMag num den) * den : Nat) : ℤ) - num|) :
    roundMag num den % 2 = 0 := by
  obtain ⟨h1, h2⟩ := roundNearest_bounds num hd
  have henc : roundMag num den = roundShift (num / den) * 0x800000 +
      roundNearest num (den * 2 ^ roundShift (num / den)) := by
    rw [roundMag_eq] at hfin ⊢
    omega
  have hval := magUnits_shift h1 (h2.imp id And.right)
  rw [← henc] at hval
  rw [hval] at heq hne
  rw [henc]
  generalize roundShift (num / den) = k at *
  have e : ∀ x : Nat, x * (den * 2 ^ k) = x * 2 ^ k * den := fun x => by ring
  have key : ∀ w : Nat, magUnits m = w * 2 ^ k → roundNearest num (den * 2 ^ k) % 2 = 0 := by
    intro w hw
    refine roundNearest_even num w (show 0 < den * 2 ^ k by positivity) ?_ ?_
    · rintro rfl
      exact hne hw
    · rw [e, e, ← hw]
      exact heq
  have : roundNearest num (den * 2 ^ k) % 2 = 0 := by
    by_cases h4 : k = 0 ∨ 2 ^ (23 + k) ≤ magUnits m
    · rcases h4 with rfl | h4
      · exact key (magUnits m) (by omega)
      · obtain ⟨w, hw⟩ := magUnits_multiple h4
        exact key w hw
    · exfalso
      have h3 : 2 ^ (23 + k) * den ≤ num := by
        rcases h2 with rfl | h2
        · exact absurd (.inl rfl) h4
        · exact h2.1
      have h5 : magUnits m * den < 2 ^ (23 + k) * den := Nat.mul_lt_mul_of_pos_right (by omega) hd
      have h6 := roundNearest_nearest num (2 ^ 23) (show 0 < den * 2 ^ k by positivity)
      rw [e, e, ← heq, ← pow_add] at h6
      generalize 2 ^ (23 + k) * den = x at *
      generalize magUnits m * den = y at *
      rw [abs_of_nonpos (by omega), abs_of_nonpos (by omega)] at h6
      omega
  omega

end Sys2Proof.Machine
end

