-- ==== Sys2Proof/Laws/State.lean ====
section
/-! SUPPORT. What each shared update leaves in each field of the state, one lemma per field, so that no proof unfolds a
record update. -/

namespace Sys2Proof.Machine

@[simp] theorem reject_cfg (e : ErrCode) (s : State) : (reject e s).cfg = s.cfg := rfl
@[simp] theorem reject_tracks (e : ErrCode) (s : State) : (reject e s).tracks = s.tracks := rfl
@[simp] theorem reject_cmd (e : ErrCode) (s : State) : (reject e s).cmd = s.cmd := rfl
@[simp] theorem reject_arg0 (e : ErrCode) (s : State) : (reject e s).arg0 = s.arg0 := rfl
@[simp] theorem reject_arg1 (e : ErrCode) (s : State) : (reject e s).arg1 = s.arg1 := rfl
@[simp] theorem reject_err (e : ErrCode) (s : State) : (reject e s).err = e := rfl
@[simp] theorem reject_latch (e : ErrCode) (s : State) : (reject e s).latch = s.latch := rfl
@[simp] theorem reject_inReset (e : ErrCode) (s : State) : (reject e s).inReset = s.inReset := rfl
@[simp] theorem reject_mem (e : ErrCode) (s : State) : (reject e s).mem = s.mem := rfl
@[simp] theorem reject_raced (e : ErrCode) (s : State) : (reject e s).raced = s.raced := rfl
@[simp] theorem reject_noiseDrawn (e : ErrCode) (s : State) : (reject e s).noiseDrawn = s.noiseDrawn := rfl
@[simp] theorem reject_fresh (e : ErrCode) (s : State) : (reject e s).fresh = s.fresh := rfl
@[simp] theorem reject_rdata (e : ErrCode) (s : State) : (reject e s).rdata = s.rdata := rfl
@[simp] theorem reject_agenda (e : ErrCode) (s : State) : (reject e s).agenda = s.agenda := rfl

@[simp] theorem accept_cfg (w : Word) (s : State) : (accept w s).cfg = s.cfg := rfl
@[simp] theorem accept_tracks (w : Word) (s : State) : (accept w s).tracks = s.tracks := rfl
@[simp] theorem accept_cmd (w : Word) (s : State) : (accept w s).cmd = s.cmd := rfl
@[simp] theorem accept_arg0 (w : Word) (s : State) : (accept w s).arg0 = s.arg0 := rfl
@[simp] theorem accept_arg1 (w : Word) (s : State) : (accept w s).arg1 = s.arg1 := rfl
@[simp] theorem accept_err (w : Word) (s : State) : (accept w s).err = .ok := rfl
@[simp] theorem accept_latch (w : Word) (s : State) : (accept w s).latch = some ⟨w, s.arg0, s.arg1⟩ := rfl
@[simp] theorem accept_inReset (w : Word) (s : State) : (accept w s).inReset = s.inReset := rfl
@[simp] theorem accept_mem (w : Word) (s : State) : (accept w s).mem = s.mem := rfl
@[simp] theorem accept_raced (w : Word) (s : State) : (accept w s).raced = s.raced := rfl
@[simp] theorem accept_noiseDrawn (w : Word) (s : State) : (accept w s).noiseDrawn = s.noiseDrawn := rfl
@[simp] theorem accept_fresh (w : Word) (s : State) : (accept w s).fresh = s.fresh := rfl
@[simp] theorem accept_rdata (w : Word) (s : State) : (accept w s).rdata = s.rdata := rfl
@[simp] theorem accept_agenda (w : Word) (s : State) : (accept w s).agenda = s.agenda := rfl

@[simp] theorem finish_cfg (s : State) : (finish s).cfg = s.cfg := rfl
@[simp] theorem finish_tracks (s : State) : (finish s).tracks = s.tracks := rfl
@[simp] theorem finish_cmd (s : State) : (finish s).cmd = s.cmd := rfl
@[simp] theorem finish_arg0 (s : State) : (finish s).arg0 = s.arg0 := rfl
@[simp] theorem finish_arg1 (s : State) : (finish s).arg1 = s.arg1 := rfl
@[simp] theorem finish_err (s : State) : (finish s).err = s.err := rfl
@[simp] theorem finish_latch (s : State) : (finish s).latch = none := rfl
@[simp] theorem finish_inReset (s : State) : (finish s).inReset = s.inReset := rfl
@[simp] theorem finish_mem (s : State) : (finish s).mem = s.mem := rfl
@[simp] theorem finish_raced (s : State) : (finish s).raced = [] := rfl
@[simp] theorem finish_noiseDrawn (s : State) : (finish s).noiseDrawn = s.noiseDrawn := rfl
@[simp] theorem finish_fresh (s : State) : (finish s).fresh = s.fresh := rfl
@[simp] theorem finish_rdata (s : State) : (finish s).rdata = s.rdata := rfl
@[simp] theorem finish_agenda (s : State) : (finish s).agenda = s.agenda := rfl

@[simp] theorem modifyTrack_cfg (t : Nat) (f : Track → Track) (s : State) : (modifyTrack t f s).cfg = s.cfg := rfl
@[simp] theorem modifyTrack_tracks (t : Nat) (f : Track → Track) (s : State) : (modifyTrack t f s).tracks = s.tracks.modify t f := rfl
@[simp] theorem modifyTrack_cmd (t : Nat) (f : Track → Track) (s : State) : (modifyTrack t f s).cmd = s.cmd := rfl
@[simp] theorem modifyTrack_arg0 (t : Nat) (f : Track → Track) (s : State) : (modifyTrack t f s).arg0 = s.arg0 := rfl
@[simp] theorem modifyTrack_arg1 (t : Nat) (f : Track → Track) (s : State) : (modifyTrack t f s).arg1 = s.arg1 := rfl
@[simp] theorem modifyTrack_err (t : Nat) (f : Track → Track) (s : State) : (modifyTrack t f s).err = s.err := rfl
@[simp] theorem modifyTrack_latch (t : Nat) (f : Track → Track) (s : State) : (modifyTrack t f s).latch = s.latch := rfl
@[simp] theorem modifyTrack_inReset (t : Nat) (f : Track → Track) (s : State) : (modifyTrack t f s).inReset = s.inReset := rfl
@[simp] theorem modifyTrack_mem (t : Nat) (f : Track → Track) (s : State) : (modifyTrack t f s).mem = s.mem := rfl
@[simp] theorem modifyTrack_raced (t : Nat) (f : Track → Track) (s : State) : (modifyTrack t f s).raced = s.raced := rfl
@[simp] theorem modifyTrack_noiseDrawn (t : Nat) (f : Track → Track) (s : State) : (modifyTrack t f s).noiseDrawn = s.noiseDrawn := rfl
@[simp] theorem modifyTrack_fresh (t : Nat) (f : Track → Track) (s : State) : (modifyTrack t f s).fresh = s.fresh := rfl
@[simp] theorem modifyTrack_rdata (t : Nat) (f : Track → Track) (s : State) : (modifyTrack t f s).rdata = s.rdata := rfl
@[simp] theorem modifyTrack_agenda (t : Nat) (f : Track → Track) (s : State) : (modifyTrack t f s).agenda = s.agenda := rfl

@[simp] theorem isBusy_finish (s : State) : isBusy (finish s) = false := rfl
@[simp] theorem isBusy_accept (w : Word) (s : State) : isBusy (accept w s) = true := rfl
@[simp] theorem isBusy_reject (e : ErrCode) (s : State) : isBusy (reject e s) = isBusy s := rfl
@[simp] theorem isBusy_modifyTrack (t : Nat) (f : Track → Track) (s : State) :
    isBusy (modifyTrack t f s) = isBusy s := rfl

theorem isBusy_iff (s : State) : isBusy s = true ↔ ∃ l, s.latch = some l := by
  simp [isBusy, Option.isSome_iff_exists]

theorem not_isBusy_iff (s : State) : isBusy s = false ↔ s.latch = none := by
  simp [isBusy]

end Sys2Proof.Machine
end

