-- ==== Sys2Proof/Laws/Ops.lean ====
section
/-! SUPPORT. What one command and one step can do, said once: presentation, completion, and the moves of the agenda. -/

namespace Sys2Proof.Machine

/-- The change a track command makes to its track at completion (R162–R164, R187, R188, R203, R204). -/
def changeOf (c : Config) (l : Latch) : Instr → Track → Track
  | .render => id
  | .noteOn _ => noteOnChange c l
  | .noteOff _ => noteOffChange c l
  | .setFrequency _ => setFrequencyChange c l
  | .setWaveform _ => setWaveformChange c l
  | .setEnvelope _ => setEnvelopeChange c l
  | .enablePwm _ => enablePwmChange c l
  | .disablePwm _ => disablePwmChange c l

theorem runCommand_presented (i : Instr) (check : State → Option ErrCode) (effect : Latch → State → Out) {s : State}
    (h : s.latch = none) : runCommand i check effect s =
      match check s with
      | some e => .next (reject e s)
      | none => .next (accept (encode i) s) := by
  simp only [runCommand, h] <;> rfl

theorem runCommand_completed (i : Instr) (check : State → Option ErrCode) (effect : Latch → State → Out) {s : State}
    {l : Latch} (h : s.latch = some l) : runCommand i check effect s = effect l s := by
  simp only [runCommand, h]

/-- A presented command is rejected with the first error of its checks, or accepted (R121, R124). -/
theorem exec_presented (i : Instr) {s : State} (h : s.latch = none) : exec i s =
    match firstError s.cfg i s.arg0 s.arg1 with
    | some e => .next (reject e s)
    | none => .next (accept (encode i) s) := by
  cases i <;>
    (simp only [exec, execRender, execNoteOn, execNoteOff, execSetFrequency, execSetWaveform, execSetEnvelope,
      execEnablePwm, execDisablePwm, trackCommand, runCommand_presented _ _ _ h, firstError, trackCheck, noCheck,
      Instr.track])

/-- A track command completes with one change of its track (R125, R243). -/
theorem exec_completed {i : Instr} (hi : i ≠ .render) {s : State} {l : Latch} (h : s.latch = some l) :
    exec i s = .next (finish (modifyTrack i.track (changeOf s.cfg l i) s)) := by
  cases i with
  | render => exact absurd rfl hi
  | _ =>
    simp only [exec, execNoteOn, execNoteOff, execSetFrequency, execSetWaveform, execSetEnvelope, execEnablePwm,
      execDisablePwm, trackCommand, runCommand_completed _ _ _ h, changeOf]

theorem exec_render_completed {s : State} {l : Latch} (h : s.latch = some l) :
    exec .render s = completeRender l s := by
  simp only [exec, execRender, runCommand_completed _ _ _ h]

/-- The state a completed RENDER leaves (R210). -/
def renderedState (l : Latch) (s : State) : State :=
  finish { s with
    tracks := (rendering l s).tracks
    mem := (renderedMemory l s).1
    fresh := (renderedMemory l s).2
    noiseDrawn := (rendering l s).drawn }

/-- If a RENDER completes, it completes so. -/
theorem completeRender_next {l : Latch} {s t : State} (h : completeRender l s = .next t) :
    bufferDeclared s.cfg l.arg0.toNat l.arg1.toNat = true ∧
    drawsInRange s.cfg s.noiseDrawn (rendering l s).drawn = true ∧ t = renderedState l s := by
  unfold completeRender at h
  split at h
  · cases h
  · split at h
    · cases h
    · rename_i h1 h2
      injection h with h3
      exact ⟨by simpa using h1, by simpa using h2, h3.symm⟩

theorem completeRender_of {l : Latch} {s : State} (h1 : bufferDeclared s.cfg l.arg0.toNat l.arg1.toNat = true)
    (h2 : drawsInRange s.cfg s.noiseDrawn (rendering l s).drawn = true) :
    completeRender l s = .next (renderedState l s) := by
  unfold completeRender renderedState
  simp [h1, h2]

/-- Everything a command can do when it answers a next state: be rejected, be accepted, change its track, or render. -/
theorem exec_next {i : Instr} {s t : State} (h : exec i s = .next t) :
    (s.latch = none ∧ ∃ e, firstError s.cfg i s.arg0 s.arg1 = some e ∧ t = reject e s) ∨
    (s.latch = none ∧ firstError s.cfg i s.arg0 s.arg1 = none ∧ t = accept (encode i) s) ∨
    (∃ l, s.latch = some l ∧ i ≠ .render ∧ t = finish (modifyTrack i.track (changeOf s.cfg l i) s)) ∨
    (∃ l, s.latch = some l ∧ i = .render ∧ completeRender l s = .next t) := by
  cases hl : s.latch with
  | none =>
    rw [exec_presented i hl] at h
    cases hf : firstError s.cfg i s.arg0 s.arg1 with
    | none =>
      rw [hf] at h
      injection h with h
      exact .inr (.inl ⟨rfl, rfl, h.symm⟩)
    | some e =>
      rw [hf] at h
      injection h with h
      exact .inl ⟨rfl, e, rfl, h.symm⟩
  | some l =>
    by_cases hi : i = .render
    · subst hi
      rw [exec_render_completed hl] at h
      exact .inr (.inr (.inr ⟨l, rfl, rfl, h⟩))
    · rw [exec_completed hi hl] at h
      injection h with h
      exact .inr (.inr (.inl ⟨l, rfl, hi, h.symm⟩))

/-- A command that answers a next state leaves the build, the agenda and the reset input alone. -/
theorem exec_frame {i : Instr} {s t : State} (h : exec i s = .next t) :
    t.cfg = s.cfg ∧ t.agenda = s.agenda ∧ t.inReset = s.inReset ∧ t.cmd = s.cmd ∧ t.arg0 = s.arg0 ∧ t.arg1 = s.arg1 ∧
    t.rdata = s.rdata := by
  rcases exec_next h with ⟨-, e, -, rfl⟩ | ⟨-, -, rfl⟩ | ⟨l, -, -, rfl⟩ | ⟨l, -, -, hc⟩
  · simp
  · simp
  · simp
  · obtain ⟨-, -, rfl⟩ := completeRender_next hc
    simp [renderedState]

theorem registerAccess_next {width addr : Nat} {act : Nat → State → Out} {s t : State}
    (h : registerAccess width addr act s = .next t) :
    s.inReset = false ∧ ∃ off, regOffset s.cfg addr = some off ∧ width = 4 ∧ off % 4 = 0 ∧ act off s = .next t := by
  unfold registerAccess at h
  split at h
  · cases h
  · rename_i hr
    split at h
    · cases h
    · rename_i off ho
      split at h
      · cases h
      · rename_i hw
        exact ⟨by simpa using hr, off, ho, by omega, by omega, h⟩

theorem memoryAccess_next {a : Nat} {act : State → Out} {s t : State} (h : memoryAccess a act s = .next t) :
    a % 4 = 0 ∧ a + 4 ≤ 4294967296 ∧ wordDeclared s.cfg a = true ∧ act s = .next t := by
  unfold memoryAccess at h
  split at h
  · cases h
  · split at h
    · cases h
    · rename_i h1 h2
      have h3 := not_not.mp h2
      exact ⟨by omega, h3.1, h3.2, h⟩

theorem regOffset_base (c : Config) {off : Nat} (h : off < 0x2000) : regOffset c (c.regBase + off) = some off := by
  unfold regOffset
  rw [if_pos (by omega)]
  congr 1
  omega

theorem regOffset_some {c : Config} {addr off : Nat} (h : regOffset c addr = some off) :
    addr = c.regBase + off ∧ off < 0x2000 := by
  unfold regOffset at h
  split at h
  · injection h with h
    omega
  · cases h

/-- Everything a read of a register can do: only the data read, and for a busy window a free value, are new. -/
theorem readRegister_eq (off : Nat) (s : State) : ∃ d k, readRegister off s = .next { s with rdata := d, fresh := k } := by
  unfold readRegister
  split
  · exact ⟨_, _, rfl⟩
  · exact ⟨_, s.fresh, rfl⟩

theorem readMemory_eq (a : Nat) (s : State) : ∃ d k, readMemory a s = .next { s with rdata := d, fresh := k } := by
  unfold readMemory
  split
  · exact ⟨_, s.fresh, rfl⟩
  · exact ⟨_, _, rfl⟩

/-- Completion runs the latched command, or keeps an idle block as it is. -/
theorem completeCommand_next {s t : State} (h : completeCommand exec s = .next t) :
    (s.latch = none ∧ t = s) ∨ ∃ l i, Completing s i l ∧ exec i s = .next t := by
  unfold completeCommand at h
  split at h
  · rename_i hl
    injection h with h
    exact .inl ⟨hl, h.symm⟩
  · rename_i l hl
    split at h
    · rename_i i hd
      exact .inr ⟨l, i, ⟨hl, hd⟩, h⟩
    · cases h

theorem completeCommand_of {s : State} {i : Instr} {l : Latch} (h : Completing s i l) :
    completeCommand exec s = exec i s := by
  unfold completeCommand
  rw [h.1]
  simp only [h.2]

/-- Everything a step can do when it answers a next state. `u` is the state the step works in: the one it was given, or
that state with the next move taken off the agenda. A command completes in the block's turn or by the agenda's completion. -/
theorem step_next {s t : State} (h : step s = .next t) :
    ∃ u, (u = s ∨ ∃ e, s.agenda = e :: u.agenda ∧ u = { s with agenda := u.agenda }) ∧
    ((t = u) ∨
     (∃ l i, (BlockTurn s ∨ s.agenda = .complete :: u.agenda) ∧ Completing u i l ∧ exec i u = .next t) ∨
     (∃ d k, t = { u with rdata := d, fresh := k }) ∨
     (∃ w, s.agenda = .regWrite 4 s.cfg.regBase w :: u.agenda ∧ u.inReset = false ∧
       ((isBusy u = true ∧ t = reject .busy { u with cmd := w }) ∨
        (isBusy u = false ∧ ∃ e, decode w = .error e ∧ t = reject .illegalCommand { u with cmd := w }) ∨
        (isBusy u = false ∧ ∃ i, decode w = .ok i ∧ exec i { u with cmd := w } = .next t))) ∨
     (∃ v, t = { u with arg0 := v }) ∨ (∃ v, t = { u with arg1 := v }) ∨
     (∃ a v, a % 4 = 0 ∧ a + 4 ≤ 4294967296 ∧ t = { u with mem := writeWord u.mem a v, raced := raceWord u a }) ∨
     ((∃ rest, s.agenda = .resetAssert :: rest) ∧ t = assertReset u) ∨
     t = { u with inReset := false }) := by
  unfold step stepWith at h
  split at h
  · rename_i ha
    refine ⟨s, .inl rfl, ?_⟩
    rcases completeCommand_next h with ⟨-, rfl⟩ | ⟨l, i, hc⟩
    · exact .inl rfl
    · exact .inr (.inl ⟨l, i, .inl (.inl ha), hc⟩)
  · rename_i e rest ha
    split at h
    · rename_i hw
      refine ⟨s, .inl rfl, ?_⟩
      rcases completeCommand_next h with ⟨-, rfl⟩ | ⟨l, i, hc⟩
      · exact .inl rfl
      · exact .inr (.inl ⟨l, i, .inl (.inr ⟨rest, by rw [ha, hw.1], hw.2⟩), hc⟩)
    · refine ⟨{ s with agenda := rest }, .inr ⟨e, ha, rfl⟩, ?_⟩
      generalize hu : ({ s with agenda := rest } : State) = u at h ⊢
      cases e with
      | regRead width addr =>
        obtain ⟨-, off, -, -, -, h⟩ := registerAccess_next h
        obtain ⟨d, k, hd⟩ := readRegister_eq off u
        rw [hd] at h
        injection h with h
        exact .inr (.inr (.inl ⟨d, k, h.symm⟩))
      | regWrite width addr data =>
        obtain ⟨hr, off, ho, rfl, -, h⟩ := registerAccess_next h
        unfold writeRegister at h
        split at h
        · have hadr := (regOffset_some ho).1
          have hcfg : u.cfg = s.cfg := by rw [← hu]
          have hag : u.agenda = rest := by rw [← hu]
          refine .inr (.inr (.inr (.inl ⟨data, ?_, hr, ?_⟩)))
          · rw [ha, hag, hadr, hcfg]
            rfl
          · unfold presentWord at h
            split at h
            · rename_i hb
              injection h with h
              exact .inl ⟨hb, h.symm⟩
            · rename_i hb
              have hb' : isBusy u = false := by simpa using hb
              split at h
              · rename_i e he
                injection h with h
                exact .inr (.inl ⟨hb', e, he, h.symm⟩)
              · rename_i i hi
                exact .inr (.inr ⟨hb', i, hi, h⟩)
        · injection h with h
          exact .inr (.inr (.inr (.inr (.inl ⟨data, h.symm⟩))))
        · injection h with h
          exact .inr (.inr (.inr (.inr (.inr (.inl ⟨data, h.symm⟩)))))
        · injection h with h
          exact .inl h.symm
      | wait =>
        obtain ⟨-, off, -, -, -, h⟩ := registerAccess_next h
        obtain ⟨d, k, hd⟩ := readRegister_eq off u
        rw [hd] at h
        injection h with h
        exact .inr (.inr (.inl ⟨d, k, h.symm⟩))
      | complete =>
        rcases completeCommand_next h with ⟨-, rfl⟩ | ⟨l, i, hc⟩
        · exact .inl rfl
        · exact .inr (.inl ⟨l, i, .inr (by rw [ha, ← hu]), hc⟩)
      | memRead a =>
        obtain ⟨-, -, -, h⟩ := memoryAccess_next h
        obtain ⟨d, k, hd⟩ := readMemory_eq a u
        rw [hd] at h
        injection h with h
        exact .inr (.inr (.inl ⟨d, k, h.symm⟩))
      | memWrite a v =>
        obtain ⟨h1, h2, -, h⟩ := memoryAccess_next h
        injection h with h
        exact .inr (.inr (.inr (.inr (.inr (.inr (.inl ⟨a, v, h1, h2, h.symm⟩))))))
      | resetAssert =>
        injection h with h
        exact .inr (.inr (.inr (.inr (.inr (.inr (.inr (.inl ⟨⟨rest, ha⟩, h.symm⟩)))))))
      | resetRelease =>
        injection h with h
        exact .inr (.inr (.inr (.inr (.inr (.inr (.inr (.inr h.symm)))))))

/-- What a completion does to the tracks, and that nothing else of a command does anything to them. -/
theorem exec_tracks {i : Instr} {s t : State} (h : exec i s = .next t) :
    (s.latch = none ∧ t.tracks = s.tracks) ∨
    ∃ l, s.latch = some l ∧ t.tracks =
      if i = .render then (rendering l s).tracks else s.tracks.modify i.track (changeOf s.cfg l i) := by
  rcases exec_next h with ⟨hn, e, -, rfl⟩ | ⟨hn, -, rfl⟩ | ⟨l, hl, hi, rfl⟩ | ⟨l, hl, rfl, hc⟩
  · exact .inl ⟨hn, rfl⟩
  · exact .inl ⟨hn, rfl⟩
  · exact .inr ⟨l, hl, by rw [if_neg hi]; rfl⟩
  · obtain ⟨-, -, rfl⟩ := completeRender_next hc
    exact .inr ⟨l, hl, rfl⟩

/-- What a step does to the tracks: nothing, their reset values, or the completion of the command in flight. -/
theorem step_tracks {s t : State} (h : step s = .next t) :
    t.tracks = s.tracks ∨
    ((∃ rest, s.agenda = .resetAssert :: rest) ∧ t.tracks = resetTracks s.cfg) ∨
    ∃ l i, (BlockTurn s ∨ ∃ rest, s.agenda = .complete :: rest) ∧ Completing s i l ∧ t.tracks =
      if i = .render then (rendering l s).tracks else s.tracks.modify i.track (changeOf s.cfg l i) := by
  obtain ⟨u, hu, hs⟩ := step_next h
  have hw : u.tracks = s.tracks ∧ u.latch = s.latch ∧ u.cfg = s.cfg ∧ u.noiseDrawn = s.noiseDrawn := by
    rcases hu with rfl | ⟨-, -, hu⟩
    · exact ⟨rfl, rfl, rfl, rfl⟩
    · rw [hu]
      exact ⟨rfl, rfl, rfl, rfl⟩
  obtain ⟨h1, h2, h3, h4⟩ := hw
  rcases hs with rfl | ⟨l, i, ht, hc, he⟩ | ⟨d, k, rfl⟩ | ⟨w, -, -, hw⟩ | ⟨v, rfl⟩ | ⟨v, rfl⟩ | ⟨a, v, -, -, rfl⟩ | ⟨hr, rfl⟩ |
    rfl
  · exact .inl h1
  · refine .inr (.inr ⟨l, i, ht.imp id (fun e => ⟨_, e⟩), ⟨h2 ▸ hc.1, hc.2⟩, ?_⟩)
    rcases exec_tracks he with ⟨hn, -⟩ | ⟨l', hl, ht⟩
    · rw [hc.1] at hn
      cases hn
    · obtain rfl : l = l' := by simpa [hc.1] using hl
      rw [ht, h1, h3]
      unfold rendering
      rw [h1, h3, h4]
  · exact .inl h1
  · rcases hw with ⟨-, rfl⟩ | ⟨-, e, -, rfl⟩ | ⟨hb, i, -, he⟩
    · exact .inl h1
    · exact .inl h1
    · rcases exec_tracks he with ⟨-, ht⟩ | ⟨l, hl, -⟩
      · exact .inl (ht.trans h1)
      · rw [not_isBusy_iff] at hb
        rw [show u.latch = some l from hl] at hb
        cases hb
  · exact .inl h1
  · exact .inl h1
  · exact .inl h1
  · refine .inr (.inl ⟨hr, ?_⟩)
    unfold assertReset
    rw [← h3]
    split <;> rfl
  · exact .inl h1

/-- The memory of the state after reset has the canonical form, in every build. -/
theorem resetOf_memWf (c : Config) : memWf (State.resetOf c).mem = true := rfl

end Sys2Proof.Machine
end

