-- ==== Sys2Proof/Laws/PerInstr.lean ====
section
/-! SUPPORT. One fact per command: the three fields of its word (R90, R92–R94). -/

namespace Sys2Proof.Laws.Encoding

/-- The word of a command that fits its fields carries its opcode, its track and zero reserved bits. -/
def Statement (i : Instr) : Prop :=
  i.wellFormed = true → opcField (encode i) = i.opcode ∧ trackField (encode i) = i.track ∧ rsvdField (encode i) = 0

/-- What every case rests on: a word built from an opcode and a track that fit their bytes. -/
theorem fields {opc t : Nat} (ho : opc < 256) (ht : t < 256) :
    opcField (BitVec.ofNat 32 (opc + 256 * t)) = opc ∧ trackField (BitVec.ofNat 32 (opc + 256 * t)) = t ∧
    rsvdField (BitVec.ofNat 32 (opc + 256 * t)) = 0 := by
  unfold opcField trackField rsvdField
  rw [BitVec.toNat_ofNat]
  omega

theorem render : Statement .render := fun _ => fields (by decide) (by decide)
theorem noteOn (t : Nat) : Statement (.noteOn t) := fun h => fields (opc := 0x02) (by decide) (by simpa [Instr.wellFormed] using h)
theorem noteOff (t : Nat) : Statement (.noteOff t) := fun h => fields (opc := 0x03) (by decide) (by simpa [Instr.wellFormed] using h)
theorem setFrequency (t : Nat) : Statement (.setFrequency t) :=
  fun h => fields (opc := 0x04) (by decide) (by simpa [Instr.wellFormed] using h)
theorem setWaveform (t : Nat) : Statement (.setWaveform t) :=
  fun h => fields (opc := 0x05) (by decide) (by simpa [Instr.wellFormed] using h)
theorem setEnvelope (t : Nat) : Statement (.setEnvelope t) :=
  fun h => fields (opc := 0x06) (by decide) (by simpa [Instr.wellFormed] using h)
theorem enablePwm (t : Nat) : Statement (.enablePwm t) :=
  fun h => fields (opc := 0x07) (by decide) (by simpa [Instr.wellFormed] using h)
theorem disablePwm (t : Nat) : Statement (.disablePwm t) :=
  fun h => fields (opc := 0x08) (by decide) (by simpa [Instr.wellFormed] using h)

end Sys2Proof.Laws.Encoding
end

