-- ==== Sys2Proof/Laws/Ranges.lean ====
section
/-! SUPPORT. The ranges of R44 as ranges of encodings, and the ranges of the envelope's and the oscillator's operands. -/

namespace Sys2Proof.Machine

/-! Encodings in a range that starts at +0.0. -/

theorem fle_zero_iff {x : F32} : (fle fZero x && x != 0x80000000#32) = true ↔ x.toNat ≤ 0x7F800000 := by
  constructor
  · intro h
    rw [Bool.and_eq_true] at h
    obtain ⟨h1, h2⟩ := h
    have hne : x.toNat ≠ 0x80000000 := fun he => (bne_iff_ne.1 h2) (BitVec.eq_of_toNat_eq (by simpa using he))
    have hlt := x.isLt
    unfold fle at h1
    simp only [Bool.and_eq_true, Bool.not_eq_true', decide_eq_true_eq] at h1
    have hn := h1.1.2
    have hk := h1.2
    unfold isNaN fmag at hn
    have hz : fkey fZero = 0 := by decide
    rw [hz] at hk
    unfold fkey fsign fmag at hk
    simp only [decide_eq_false_iff_not, decide_eq_true_eq] at hn hk
    split at hk <;> omega
  · intro h
    have hz : fZero.toNat = 0 := rfl
    rw [fle_of_le (by rw [hz]; omega) h, hz]
    simp only [Nat.zero_le, decide_true, Bool.true_and, bne_iff_ne]
    rintro rfl
    exact absurd h (by decide)

theorem phaseOk_iff {x : F32} : phaseOk x = true ↔ x.toNat < 0x40C90FDB := by
  have ht : fTwoPi.toNat = 0x40C90FDB := rfl
  have hr : phaseOk x = (fle fZero x && x != 0x80000000#32 && flt x fTwoPi) := by
    unfold phaseOk
    cases fle fZero x <;> cases flt x fTwoPi <;> cases (x != 0x80000000#32) <;> rfl
  rw [hr, Bool.and_eq_true, fle_zero_iff]
  constructor
  · rintro ⟨h1, h2⟩
    rw [flt_of_le h1 (by rw [ht]; omega), ht] at h2
    simpa using h2
  · intro h
    refine ⟨by omega, ?_⟩
    rw [flt_of_le (by omega) (by rw [ht]; omega), ht]
    simpa using h

theorem factorOk_iff {x : F32} : factorOk x = true ↔ x.toNat ≤ 0x3F800000 := by
  have ht : fOne.toNat = 0x3F800000 := rfl
  have hr : factorOk x = (fle fZero x && x != 0x80000000#32 && fle x fOne) := by
    unfold factorOk
    cases fle fZero x <;> cases fle x fOne <;> cases (x != 0x80000000#32) <;> rfl
  rw [hr, Bool.and_eq_true, fle_zero_iff]
  constructor
  · rintro ⟨h1, h2⟩
    rw [fle_of_le h1 (by rw [ht]; omega), ht] at h2
    simpa using h2
  · intro h
    refine ⟨by omega, ?_⟩
    rw [fle_of_le (by omega) (by rw [ht]; omega), ht]
    simpa using h

theorem flt_zero {x : F32} : flt fZero x = true ↔ 0 < x.toNat ∧ x.toNat ≤ 0x7F800000 := by
  constructor
  · intro h
    unfold flt at h
    simp only [Bool.and_eq_true, Bool.not_eq_true', decide_eq_true_eq] at h
    have hn := h.1.2
    have hk := h.2
    have hz : fkey fZero = 0 := by decide
    have hlt := x.isLt
    rw [hz] at hk
    unfold isNaN fmag at hn
    unfold fkey fsign fmag at hk
    simp only [decide_eq_false_iff_not, decide_eq_true_eq] at hn hk
    split at hk <;> omega
  · rintro ⟨h1, h2⟩
    have hz : fZero.toNat = 0 := rfl
    rw [flt_of_le (by rw [hz]; omega) h2, hz]
    simpa using h1

theorem depthValid_iff {x : F32} : depthValid x = true ↔ 0 < x.toNat ∧ x.toNat ≤ 0x3F800000 := by
  have ht : fOne.toNat = 0x3F800000 := rfl
  unfold depthValid
  rw [Bool.and_eq_true, flt_zero]
  constructor
  · rintro ⟨⟨h0, h1⟩, h2⟩
    rw [fle_of_le h1 (by rw [ht]; omega), ht] at h2
    exact ⟨h0, by simpa using h2⟩
  · rintro ⟨h0, h⟩
    refine ⟨⟨h0, by omega⟩, ?_⟩
    rw [fle_of_le (by omega) (by rw [ht]; omega), ht]
    simpa using h

theorem depthOk_iff {x : F32} : depthOk x = true ↔ x.toNat ≤ 0x3F800000 := by
  unfold depthOk
  rw [Bool.or_eq_true, depthValid_iff, beq_iff_eq]
  constructor
  · rintro (rfl | h)
    · decide
    · exact h.2
  · intro h
    rcases Nat.eq_zero_or_pos x.toNat with h0 | h0
    · exact .inl (BitVec.eq_of_toNat_eq h0)
    · exact .inr ⟨h0, h⟩

/-! Sums and differences of encodings that are not negative. -/

theorem le_fadd {a b : F32} (ha : a.toNat < 0x7F800000) (hb : b.toNat < 0x7F800000) : a.toNat ≤ (fadd a b).toNat := by
  rw [fadd_toNat ha hb]
  exact le_roundMag (by omega) (by omega) (by omega)

theorem fadd_le_inf {a b : F32} (ha : a.toNat < 0x7F800000) (hb : b.toNat < 0x7F800000) :
    (fadd a b).toNat ≤ 0x7F800000 := by
  rw [fadd_toNat ha hb]
  exact roundMag_le_inf _ _

theorem fadd_zero {a b : F32} (ha : a.toNat < 0x7F800000) (hb : b.toNat = 0) : fadd a b = a := by
  apply BitVec.eq_of_toNat_eq
  rw [fadd_toNat ha (by omega), hb, magUnits_zero, Nat.add_zero]
  have := roundMag_exact (m := a.toNat) (d := 1) (by omega) (by omega)
  rwa [Nat.mul_one] at this

theorem fsub_le {a b : F32} (ha : a.toNat < 0x7F800000) (hb : b.toNat ≤ a.toNat) : (fsub a b).toNat ≤ a.toNat := by
  rw [fsub_toNat ha hb]
  exact roundMag_le (by omega) (by omega) (by omega)

/-! The build's constants. -/

/-- The bounds a legal build gives its numbers, as encodings (R7). -/
theorem wellFormed_bounds {c : Config} (h : c.wellFormed = true) :
    1 ≤ c.sampleRate ∧ c.sampleRate ≤ 16777216 ∧ 1 ≤ c.trackCount ∧ c.trackCount ≤ 256 ∧ 2 ≤ c.sineTableBits ∧
    c.sineTableBits ≤ 16 ∧ 0x3F800000 ≤ c.maxStageTimeMs.toNat ∧ c.maxStageTimeMs.toNat < 0x7F800000 ∧
    c.noise.all noiseInRange = true := by
  simp only [Config.wellFormed, Bool.and_eq_true, decide_eq_true_eq] at h
  obtain ⟨⟨⟨⟨⟨⟨⟨⟨⟨⟨h1, h2⟩, h3⟩, h4⟩, h5⟩, h6⟩, h7⟩, h8⟩, h9⟩, h10⟩, h11⟩ := h
  exact ⟨h1, h2, h3, h4, h5, h6, h7, h8, h11⟩

theorem toF32_bounds {n : Nat} (h1 : 1 ≤ n) (h2 : n ≤ 536870912) :
    0x3F800000 ≤ (toF32 n).toNat ∧ (toF32 n).toNat ≤ 0x4E000000 := by
  have hu : unitScale = 2 ^ 149 := rfl
  rw [toF32_toNat]
  constructor
  · refine le_roundMag (by omega) (by omega) ?_
    have : magUnits 0x3F800000 = 2 ^ 149 := by decide +kernel
    rw [this, hu]
    omega
  · refine roundMag_le (by omega) (by omega) ?_
    have : magUnits 0x4E000000 = 536870912 * 2 ^ 149 := by decide +kernel
    rw [this, hu, Nat.mul_one]
    exact Nat.mul_le_mul_right _ h2

theorem sampleRateF_bounds {c : Config} (h : c.wellFormed = true) :
    0x3F800000 ≤ (sampleRateF c).toNat ∧ (sampleRateF c).toNat ≤ 0x4E000000 := by
  obtain ⟨h1, h2, -⟩ := wellFormed_bounds h
  exact toF32_bounds h1 (by omega)

/-- The stage unit is at least RN(1/127), and finite. -/
theorem stageUnitMs_bounds {c : Config} (h : c.wellFormed = true) :
    0x3C010204 ≤ (stageUnitMs c).toNat ∧ (stageUnitMs c).toNat < 0x7F800000 := by
  obtain ⟨-, -, -, -, -, -, h1, h2, -⟩ := wellFormed_bounds h
  have hd : (0x42FE0000#32 : F32).toNat = 0x42FE0000 := rfl
  have hu : unitScale = 2 ^ 149 := rfl
  unfold stageUnitMs
  rw [fdiv_toNat h2 (by rw [hd]; omega) (by rw [hd]; omega), hd]
  have hm : magUnits 0x3F800000 ≤ magUnits c.maxStageTimeMs.toNat := magUnits_mono h1
  have hm2 : magUnits c.maxStageTimeMs.toNat ≤ magUnits 0x7F7FFFFF := magUnits_mono (by omega)
  constructor
  · have : roundMag (magUnits 0x3F800000 * unitScale) (magUnits 0x42FE0000) = 0x3C010204 := by decide +kernel
    rw [← this]
    exact roundMag_mono (by decide +kernel) (Nat.mul_le_mul_right _ hm)
  · have h3 : roundMag (magUnits 0x7F7FFFFF * unitScale) (magUnits 0x42FE0000) < 0x7F800000 := by decide +kernel
    exact (roundMag_mono (by decide +kernel) (Nat.mul_le_mul_right _ hm2)).trans_lt h3

/-- A stage time of a parameter that is not 0 is above +0.0; only a sum past the largest finite value is infinite. -/
theorem stageTime_bounds {c : Config} {p : BitVec 7} (h : c.wellFormed = true) (hp : p.toNat ≠ 0) :
    0x3C010204 ≤ (stageTime c p).toNat ∧ (stageTime c p).toNat ≤ 0x7F800000 := by
  have hlt := p.isLt
  obtain ⟨h1, h2⟩ := stageUnitMs_bounds h
  obtain ⟨h3, h4⟩ := toF32_bounds (n := p.toNat) (by omega) (by omega)
  unfold stageTime
  rw [fmul_toNat (by omega) (by omega)]
  refine ⟨?_, roundMag_le_inf _ _⟩
  refine le_roundMag (by decide +kernel) (by omega) ?_
  have e1 : unitScale = magUnits 0x3F800000 := by decide +kernel
  rw [e1, Nat.mul_comm]
  exact Nat.mul_le_mul (magUnits_mono h3) (magUnits_mono h1)

theorem elapsedMs_zero {c : Config} (h : c.wellFormed = true) : (elapsedMs c 0).toNat = 0 := by
  obtain ⟨h1, h2⟩ := sampleRateF_bounds h
  have hz : fmul (toF32 0) fThousand = 0x00000000#32 := by decide +kernel
  unfold elapsedMs
  rw [hz, fdiv_toNat (by decide) (by omega) (by omega)]
  simp

theorem elapsedMs_le {c : Config} {n : Nat} (h : c.wellFormed = true) (hn : n < 536870912) :
    (elapsedMs c n).toNat ≤ 0x52FA0000 := by
  obtain ⟨h1, h2⟩ := sampleRateF_bounds h
  rcases Nat.eq_zero_or_pos n with rfl | h0
  · rw [elapsedMs_zero h]
    omega
  obtain ⟨h3, h4⟩ := toF32_bounds (n := n) h0 (by omega)
  have ht : fThousand.toNat = 0x447A0000 := rfl
  have hp : (fmul (toF32 n) fThousand).toNat ≤ 0x52FA0000 := by
    rw [fmul_toNat (by omega) (by rw [ht]; omega), ht]
    have : roundMag (magUnits 0x4E000000 * magUnits 0x447A0000) unitScale = 0x52FA0000 := by decide +kernel
    rw [← this]
    exact roundMag_mono (by decide +kernel) (Nat.mul_le_mul_right _ (magUnits_mono h4))
  unfold elapsedMs
  rw [fdiv_toNat (by omega) (by omega) (by omega)]
  refine roundMag_le (magUnits_pos (by omega)) (by omega) ?_
  have e1 : unitScale = magUnits 0x3F800000 := by decide +kernel
  rw [e1]
  exact Nat.mul_le_mul (magUnits_mono hp) (magUnits_mono h1)

/-- What an advance adds to or takes from the factor is finite and not negative, and nothing for n = 0. -/
theorem stageStep_bounds {c : Config} {n : Nat} {p : BitVec 7} (h : c.wellFormed = true) (hn : n < 536870912)
    (hp : p.toNat ≠ 0) : (fdiv (elapsedMs c n) (stageTime c p)).toNat < 0x7F800000 ∧
      (n = 0 → (fdiv (elapsedMs c n) (stageTime c p)).toNat = 0) := by
  have h1 := elapsedMs_le h hn
  obtain ⟨h2, h3⟩ := stageTime_bounds h hp
  rcases Nat.lt_or_eq_of_le h3 with h4 | h4
  · rw [fdiv_toNat (by omega) h4 (by omega)]
    constructor
    · have h5 : roundMag (magUnits 0x52FA0000 * unitScale) (magUnits 0x3C010204) < 0x7F800000 := by decide +kernel
      refine (roundMag_mono_cross (magUnits_pos (by omega)) (by decide +kernel) ?_).trans_lt h5
      exact Nat.mul_le_mul (Nat.mul_le_mul_right _ (magUnits_mono h1)) (magUnits_mono h2)
    · rintro rfl
      rw [elapsedMs_zero h]
      simp
  · have := fdiv_inf_toNat (a := elapsedMs c n) (b := stageTime c p) (by omega) h4
    omega

/-- Every sustain level of a legal parameter lies in [ZERO, ONE] (R153). -/
theorem sustainLevel_le : ∀ s : BitVec 7, s.toNat ≤ 126 → (sustainLevel s).toNat ≤ 0x3F800000 := by
  decide +kernel

end Sys2Proof.Machine
end

