-- ==== Sys2Proof/Laws/Render.lean ====
section
/-! SUPPORT. What an advance and a rendering keep: the shape of a track, the number of frames, tracks and words; and the
machine's invariant taken apart. -/

namespace Sys2Proof.Machine

/-- An advance changes the factor and the stage, and nothing else (R154). -/
theorem advance_shape (c : Config) (tr : Track) (n : Nat) : (advance c tr n).1 =
    { tr with currentFactor := (advance c tr n).1.currentFactor, envState := (advance c tr n).1.envState } := by
  unfold advance advanceAttack advanceDecay advanceSustain advanceRelease
  cases tr.envState <;> simp only <;> split_ifs <;> rfl

theorem advance_waveform (c : Config) (tr : Track) (n : Nat) : (advance c tr n).1.waveform = tr.waveform := by
  rw [advance_shape]

theorem renderFrames_length (c : Config) (g : F32) : ∀ (acc : List Frame) (tr : Track) (d : Nat),
    (renderFrames c g acc tr d).1.length = acc.length
  | [], _, _ => rfl
  | (_, _) :: rest, _, _ => by simp [renderFrames, renderFrames_length c g rest]

theorem renderTrack_length (c : Config) (n : Nat) (acc : List Frame) (tr : Track) (d : Nat) :
    (renderTrack c n acc tr d).1.length = acc.length := by
  unfold renderTrack
  split
  · split
    · rfl
    · exact renderFrames_length _ _ _ _ _
  · rfl

theorem renderTracks_length (c : Config) (n : Nat) : ∀ (trs : List Track) (acc : List Frame) (d : Nat),
    (renderTracks c n trs acc d).acc.length = acc.length ∧ (renderTracks c n trs acc d).tracks.length = trs.length
  | [], _, _ => ⟨rfl, rfl⟩
  | tr :: trs, acc, d => by
    have ih := renderTracks_length c n trs (renderTrack c n acc tr d).1 (renderTrack c n acc tr d).2.2
    simp only [renderTracks]
    exact ⟨ih.1.trans (renderTrack_length _ _ _ _ _), by simp [ih.2]⟩

/-- The per-sample loop changes the two phases and nothing else of the track (R214). -/
theorem renderFrames_shape (c : Config) (g : F32) : ∀ (acc : List Frame) (tr : Track) (d : Nat),
    (renderFrames c g acc tr d).2.1 = { tr with
      phase := (renderFrames c g acc tr d).2.1.phase
      pwmPhase := (renderFrames c g acc tr d).2.1.pwmPhase }
  | [], _, _ => rfl
  | (_, _) :: rest, tr, d => by
    simp only [renderFrames]
    rw [renderFrames_shape c g rest]
    rfl

/-- What a RENDER does to one track (R213, R217): nothing to a disabled one; an ended one is disabled in the state the advance
left; another takes the advance's factor and stage and new phases. -/
theorem renderTrack_track (c : Config) (n : Nat) (acc : List Frame) (tr : Track) (d : Nat) :
    (tr.enabled = false ∧ (renderTrack c n acc tr d).2.1 = tr) ∨
    (tr.enabled = true ∧ (advance c tr n).2 = true ∧
      (renderTrack c n acc tr d).2.1 = { (advance c tr n).1 with enabled := false }) ∨
    (tr.enabled = true ∧ (advance c tr n).2 = false ∧ ∃ p q,
      (renderTrack c n acc tr d).2.1 = { (advance c tr n).1 with phase := p, pwmPhase := q }) := by
  unfold renderTrack
  cases he : tr.enabled with
  | false => exact .inl ⟨rfl, rfl⟩
  | true =>
    refine .inr ?_
    rw [if_pos rfl]
    rcases advance c tr n with ⟨tr1, _ | _⟩
    · exact .inr ⟨rfl, rfl, _, _, renderFrames_shape _ _ _ _ _⟩
    · exact .inl ⟨rfl, rfl, rfl⟩

/-- Each track of a rendering is one track's part of it, at the frames and the draws the tracks before it left (R212). -/
theorem renderTracks_get (c : Config) (n : Nat) : ∀ (trs : List Track) (acc : List Frame) (d k : Nat),
    ∃ acc' d', (renderTracks c n trs acc d).tracks[k]? = (trs[k]?).map (fun tr => (renderTrack c n acc' tr d').2.1)
  | [], acc, d, _ => ⟨acc, d, by simp [renderTracks]⟩
  | tr :: trs, acc, d, 0 => ⟨acc, d, by simp [renderTracks]⟩
  | tr :: trs, acc, d, k + 1 => by
    obtain ⟨acc', d', h⟩ := renderTracks_get c n trs (renderTrack c n acc tr d).1 (renderTrack c n acc tr d).2.2 k
    exact ⟨acc', d', by simpa [renderTracks] using h⟩

theorem frameWords_length : ∀ acc : List Frame, (frameWords acc).length = 2 * acc.length
  | [] => rfl
  | (_, _) :: rest => by
    simp only [frameWords, List.length_cons, frameWords_length rest]
    omega

/-- A latched RENDER of n frames writes 2n words (R74). -/
theorem renderedWords_length (l : Latch) (s : State) : (renderedWords l s).length = 2 * l.arg1.toNat := by
  unfold renderedWords rendering render
  rw [frameWords_length, (renderTracks_length _ _ _ _ _).1]
  simp [zeroFrames]

/-- Words 2k and 2k+1 are frame k's left and right sample (R74). -/
theorem frameWords_get : ∀ (acc : List Frame) (k : Nat) (left right : F32), acc[k]? = some (left, right) →
    (frameWords acc)[2 * k]? = some left ∧ (frameWords acc)[2 * k + 1]? = some right
  | [], _, _, _, h => by simp at h
  | (_, _) :: _, 0, _, _, h => by
    simp only [List.getElem?_cons_zero, Option.some.injEq, Prod.mk.injEq] at h
    simp [frameWords, h]
  | (_, _) :: rest, k + 1, left, right, h => by
    simp only [List.getElem?_cons_succ] at h
    have ih := frameWords_get rest k left right h
    simpa [frameWords, show 2 * (k + 1) = 2 * k + 1 + 1 by ring] using ih

theorem trackOk_iff (tr : Track) : trackOk tr = true ↔
    phaseOk tr.phase = true ∧ phaseOk tr.phaseIncrement = true ∧ phaseOk tr.pwmPhase = true ∧
    phaseOk tr.pwmPhaseIncrement = true ∧ factorOk tr.currentFactor = true ∧ depthOk tr.pwmDepth = true ∧
    (tr.pwmDepth = fZero → tr.pwmPhaseIncrement = fZero) ∧ tr.attack.toNat ≤ 126 ∧ tr.decay.toNat ≤ 126 ∧
    tr.sustain.toNat ≤ 126 ∧ tr.release.toNat ≤ 126 := by
  unfold trackOk maxParam
  simp only [Bool.and_eq_true, decide_eq_true_eq, Bool.or_eq_true, bne_iff_ne, beq_iff_eq, and_assoc]
  have h : (tr.pwmDepth ≠ fZero ∨ tr.pwmPhaseIncrement = fZero) ↔
      (tr.pwmDepth = fZero → tr.pwmPhaseIncrement = fZero) := by tauto
  rw [h]

theorem inv_iff (s : State) : s.Inv = true ↔
    s.cfg.wellFormed = true ∧ resetIncrementOk s.cfg = true ∧ s.tracks.length = s.cfg.trackCount ∧
    s.tracks.all trackOk = true ∧ memWf s.mem = true ∧ memInSpace s.mem = true ∧ latchOk s.cfg s.latch = true ∧
    (s.inReset = true → s.latch = none) ∧ (s.latch = none → s.raced = []) := by
  unfold State.Inv
  simp only [Bool.and_eq_true, Bool.or_eq_true, Bool.not_eq_true', bne_iff_ne, beq_iff_eq, and_assoc]
  have h1 : (s.inReset = false ∨ s.latch = none) ↔ (s.inReset = true → s.latch = none) := by
    cases s.inReset <;> simp
  have h2 : (s.latch ≠ none ∨ s.raced = []) ↔ (s.latch = none → s.raced = []) := by tauto
  rw [h1, h2]

end Sys2Proof.Machine
end

