-- ==== Sys2Proof/Laws/Sine.lean ====
section
/-! SUPPORT. The fixed-point sine of the table is the sine, to within 2^-62 (log 11). -/

namespace Sys2Proof.Machine

/-- The value of the series that starts with 1 at place k, for the square s of the angle. -/
noncomputable def seriesRatio (s : ℝ) : Nat → Nat → ℝ
  | 0, _ => 0
  | f + 1, k => 1 - s / ((2 * k + 2) * (2 * k + 3)) * seriesRatio s f (k + 1)

theorem factorial_step (k : Nat) : (6 : ℝ) ≤ (2 * k + 2) * (2 * k + 3) := by
  have : (0 : ℝ) ≤ k := Nat.cast_nonneg k
  nlinarith

theorem seriesRatio_bounds {s : ℝ} (h0 : 0 ≤ s) (h1 : s ≤ 3) : ∀ f k, 0 ≤ seriesRatio s f k ∧ seriesRatio s f k ≤ 1
  | 0, _ => by simp [seriesRatio]
  | f + 1, k => by
    obtain ⟨h2, h3⟩ := seriesRatio_bounds h0 h1 f (k + 1)
    have hc := factorial_step k
    have hq0 : 0 ≤ s / ((2 * k + 2) * (2 * k + 3)) := by positivity
    have hq1 : s / ((2 * k + 2) * (2 * k + 3)) ≤ 1 := by
      rw [div_le_one (by linarith)]
      linarith
    simp only [seriesRatio]
    constructor <;> nlinarith

/-- The series depends on the square of the angle with slope at most 1. -/
theorem seriesRatio_sub {s s' : ℝ} (h0 : 0 ≤ s) (h1 : s ≤ 3) (h0' : 0 ≤ s') (h1' : s' ≤ 3) :
    ∀ f k, |seriesRatio s f k - seriesRatio s' f k| ≤ |s - s'|
  | 0, _ => by simp [seriesRatio]
  | f + 1, k => by
    have ih := seriesRatio_sub h0 h1 h0' h1' f (k + 1)
    obtain ⟨h2, h3⟩ := seriesRatio_bounds h0' h1' f (k + 1)
    have hc := factorial_step k
    simp only [seriesRatio]
    generalize seriesRatio s f (k + 1) = x at *
    generalize seriesRatio s' f (k + 1) = y at *
    generalize ((2 * (k : ℝ) + 2) * (2 * k + 3)) = c at *
    have e : 1 - s / c * x - (1 - s' / c * y) = -(s / c * (x - y) + (s - s') / c * y) := by ring
    rw [e, abs_neg]
    have hq0 : 0 ≤ s / c := by positivity
    have hq1 : s / c ≤ 1 / 2 := by
      rw [div_le_iff₀ (by linarith)]
      linarith
    have h5 : |s / c * (x - y)| ≤ 1 / 2 * |s - s'| := by
      rw [abs_mul, abs_of_nonneg hq0]
      exact mul_le_mul hq1 ih (abs_nonneg _) (by norm_num)
    have h6 : |(s - s') / c * y| ≤ 1 / 2 * |s - s'| := by
      rw [abs_mul, abs_div, abs_of_nonneg h2, abs_of_nonneg (show 0 ≤ c by linarith)]
      have h7 : |s - s'| / c ≤ 1 / 2 * |s - s'| := by
        rw [div_le_iff₀ (by linarith)]
        nlinarith [abs_nonneg (s - s')]
      nlinarith [abs_nonneg (s - s'), div_nonneg (abs_nonneg (s - s')) (show 0 ≤ c by linarith)]
    calc _ ≤ _ := abs_add_le _ _
      _ ≤ |s - s'| := by linarith

/-- Two floors after one another lose less than 2. -/
theorem floors_err (x : ℤ) {a b : Nat} (ha : 0 < a) (hb : 1 ≤ b) :
    |((x / (a : ℤ) / (b : ℤ) : ℤ) : ℝ) - (x : ℝ) / a / b| ≤ 2 := by
  have h1 := Int.emod_nonneg x (show (a : ℤ) ≠ 0 by omega)
  have h2 := Int.emod_lt_of_pos x (show 0 < (a : ℤ) by omega)
  have h3 := Int.mul_ediv_add_emod x a
  have h4 := Int.emod_nonneg (x / a) (show (b : ℤ) ≠ 0 by omega)
  have h5 := Int.emod_lt_of_pos (x / a) (show 0 < (b : ℤ) by omega)
  have h6 := Int.mul_ediv_add_emod (x / a) b
  generalize x / (a : ℤ) / (b : ℤ) = z at *
  generalize x / (a : ℤ) = y at *
  generalize x % (a : ℤ) = r at *
  generalize y % (b : ℤ) = u at *
  have ha' : (0 : ℝ) < a := by exact_mod_cast ha
  have hb' : (1 : ℝ) ≤ b := by exact_mod_cast hb
  have e3 : (x : ℝ) / a = y + (r : ℝ) / a := by
    rw [← h3]
    push_cast
    field_simp
  have e6 : (y : ℝ) / b = z + (u : ℝ) / b := by
    rw [← h6]
    push_cast
    field_simp
  have r0 : 0 ≤ (r : ℝ) / a := div_nonneg (by exact_mod_cast h1) ha'.le
  have r1 : (r : ℝ) / a ≤ 1 := by
    rw [div_le_one ha']
    exact_mod_cast h2.le
  have u0 : 0 ≤ (u : ℝ) / b := div_nonneg (by exact_mod_cast h4) (by linarith)
  have u1 : (u : ℝ) / b ≤ 1 := by
    rw [div_le_one (by linarith)]
    exact_mod_cast h5.le
  have s0 : 0 ≤ (r : ℝ) / a / b := div_nonneg r0 (by linarith)
  have s1 : (r : ℝ) / a / b ≤ 1 := by
    rw [div_le_one (by linarith)]
    linarith
  rw [e3, add_div, e6, abs_le]
  constructor <;> linarith

/-- The fixed-point series is the series, up to 2 per term. -/
theorem sineSeries_err {sq : Nat} (h : (sq : ℝ) / 2 ^ 128 ≤ 3) : ∀ (f k : Nat) (t : ℤ),
    |(sineSeries sq f k t : ℝ) - t * seriesRatio (sq / 2 ^ 128) f k| ≤ 2 * f
  | 0, _, _ => by simp [sineSeries, seriesRatio]
  | f + 1, k, t => by
    have hfl := floors_err (t * sq) (a := 2 ^ fixBits) (b := (2 * k + 2) * (2 * k + 3)) (by positivity) (by nlinarith)
    obtain ⟨h2, h3⟩ := seriesRatio_bounds (s := (sq : ℝ) / 2 ^ 128) (by positivity) h f (k + 1)
    simp only [sineSeries, seriesRatio]
    generalize ht : t * (sq : ℤ) / ((2 ^ fixBits : Nat) : ℤ) / (((2 * k + 2) * (2 * k + 3) : Nat) : ℤ) = t' at *
    have ih := sineSeries_err h f (k + 1) t'
    have hx : ((t * (sq : ℤ) : ℤ) : ℝ) / ((2 ^ fixBits : Nat) : ℝ) / (((2 * k + 2) * (2 * k + 3) : Nat) : ℝ) =
        t * ((sq : ℝ) / 2 ^ 128 / ((2 * k + 2) * (2 * k + 3))) := by
      unfold fixBits
      push_cast
      field_simp
      norm_num
    rw [hx] at hfl
    generalize (sq : ℝ) / 2 ^ 128 / ((2 * k + 2) * (2 * k + 3)) = q at *
    generalize seriesRatio (↑sq / 2 ^ 128) f (k + 1) = e at *
    generalize sineSeries sq f (k + 1) t' = w at *
    have h5 : |((t' : ℝ) - t * q) * e| ≤ 2 := by
      rw [abs_mul, abs_of_nonneg h2]
      nlinarith [abs_nonneg ((t' : ℝ) - t * q)]
    have e1 : ((t - w : ℤ) : ℝ) - t * (1 - q * e) = -((w - t' * e) + ((t' : ℝ) - t * q) * e) := by
      push_cast
      ring
    rw [e1, abs_neg]
    push_cast
    calc _ ≤ _ := abs_add_le _ _
      _ ≤ 2 * ((f : ℝ) + 1) := by linarith

/-- The term x^(2k+1)/(2k+1)! of the sine's power series. -/
noncomputable def sineTerm (x : ℝ) (k : Nat) : ℝ := x ^ (2 * k + 1) / (2 * k + 1).factorial

theorem sineTerm_succ (x : ℝ) (k : Nat) : sineTerm x (k + 1) = sineTerm x k * (x ^ 2 / ((2 * k + 2) * (2 * k + 3))) := by
  unfold sineTerm
  rw [show 2 * (k + 1) + 1 = 2 * k + 1 + 1 + 1 by ring, Nat.factorial_succ, Nat.factorial_succ]
  have : ((2 * k + 1).factorial : ℝ) ≠ 0 := by exact_mod_cast (Nat.factorial_pos _).ne'
  push_cast
  have h1 : (2 * (k : ℝ) + 1 + 1) ≠ 0 := by positivity
  have h2 : (2 * (k : ℝ) + 1 + 1 + 1) ≠ 0 := by positivity
  have h3 : (2 * (k : ℝ) + 2) ≠ 0 := by positivity
  have h4 : (2 * (k : ℝ) + 3) ≠ 0 := by positivity
  field_simp
  ring

theorem seriesRatio_sum (x : ℝ) : ∀ f k, sineTerm x k * seriesRatio (x ^ 2) f k =
    ∑ j ∈ Finset.range f, (-1) ^ j * sineTerm x (k + j)
  | 0, _ => by simp [seriesRatio]
  | f + 1, k => by
    have ih := seriesRatio_sum x f (k + 1)
    rw [Finset.sum_range_succ', seriesRatio]
    have e : ∑ j ∈ Finset.range f, (-1 : ℝ) ^ (j + 1) * sineTerm x (k + (j + 1)) =
        -∑ j ∈ Finset.range f, (-1) ^ j * sineTerm x (k + 1 + j) := by
      rw [← Finset.sum_neg_distrib]
      refine Finset.sum_congr rfl fun j _ => ?_
      rw [show k + (j + 1) = k + 1 + j by ring, pow_succ]
      ring
    rw [e, ← ih, sineTerm_succ]
    simp only [pow_zero, Nat.add_zero, one_mul]
    ring

/-- Past the 24th term nothing of weight is left. -/
theorem sine_tail {x : ℝ} (h0 : 0 ≤ x) (h1 : x ≤ 8 / 5) :
    |Real.sin x - ∑ j ∈ Finset.range 24, (-1) ^ j * sineTerm x j| ≤ 1 / 2 ^ 100 := by
  have hs := Real.hasSum_sin x
  have ht := (hasSum_nat_add_iff' 24).mpr hs
  have hx2 : x ^ 2 ≤ 3 := by nlinarith
  have hterm : ∀ j, 0 ≤ sineTerm x (j + 24) ∧ sineTerm x (j + 24) ≤ 1 / 2 ^ 102 * (1 / 2) ^ j := by
    intro j
    induction j with
    | zero =>
      constructor
      · unfold sineTerm
        positivity
      · unfold sineTerm
        have h2 : x ^ (2 * (0 + 24) + 1) ≤ (8 / 5) ^ 49 := pow_le_pow_left₀ h0 h1 _
        have h3 : ((2 * (0 + 24) + 1).factorial : ℝ) = 608281864034267560872252163321295376887552831379210240000000000 := by
          norm_num [Nat.factorial]
        rw [h3, div_le_iff₀ (by norm_num)]
        refine h2.trans ?_
        norm_num
    | succ j ih =>
      obtain ⟨ih0, ih1⟩ := ih
      rw [show j + 1 + 24 = (j + 24) + 1 by ring, sineTerm_succ]
      have hc := factorial_step (j + 24)
      have hq1 : x ^ 2 / ((2 * ((j + 24 : Nat) : ℝ) + 2) * (2 * ((j + 24 : Nat) : ℝ) + 3)) ≤ 1 / 2 := by
        rw [div_le_iff₀ (by linarith)]
        linarith
      have hq0 : 0 ≤ x ^ 2 / ((2 * ((j + 24 : Nat) : ℝ) + 2) * (2 * ((j + 24 : Nat) : ℝ) + 3)) := by positivity
      refine ⟨mul_nonneg ih0 hq0, ?_⟩
      rw [pow_succ (1 / 2 : ℝ) j, ← mul_assoc]
      exact mul_le_mul ih1 hq1 hq0 (by positivity)
  have hg : HasSum (fun j : Nat => (1 : ℝ) / 2 ^ 102 * (1 / 2) ^ j) (1 / 2 ^ 102 * 2) :=
    hasSum_geometric_two.mul_left _
  have hb := HasSum.norm_le_of_bounded ht hg (fun j => by
    have := hterm j
    rw [Real.norm_eq_abs, mul_div_assoc, abs_mul, abs_pow, abs_neg, abs_one, one_pow, one_mul]
    change |sineTerm x (j + 24)| ≤ _
    rw [abs_of_nonneg this.1]
    exact this.2)
  rw [Real.norm_eq_abs] at hb
  have e : ∑ j ∈ Finset.range 24, (-1) ^ j * sineTerm x j =
      ∑ i ∈ Finset.range 24, (-1) ^ i * x ^ (2 * i + 1) / ((2 * i + 1).factorial : ℝ) :=
    Finset.sum_congr rfl fun j _ => by
      unfold sineTerm
      ring
  rw [e]
  refine hb.trans ?_
  norm_num

/-- The fixed-point sine of every quarter-circle angle. -/
theorem sineFixed_err {m : Nat} (hm : m ≤ 16384) :
    |(sineFixed m : ℝ) / 2 ^ 128 - Real.sin (Real.pi * m / 32768)| ≤ 1 / 2 ^ 62 := by
  have hp1 := Real.pi_gt_d20
  have hp2 := Real.pi_lt_d20
  have hm0 : (0 : ℝ) ≤ m := Nat.cast_nonneg m
  have hm1 : (m : ℝ) ≤ 16384 := by exact_mod_cast hm
  -- the angle
  obtain ⟨angle, hangle⟩ : ∃ angle, angle = piFixed * m / 32768 := ⟨_, rfl⟩
  have ha1 : (angle : ℝ) ≤ (piFixed : ℝ) * m / 32768 := by
    rw [hangle]
    have := @Nat.cast_div_le ℝ _ _ _ (piFixed * m) 32768
    push_cast at this
    exact this
  have ha2 : (piFixed : ℝ) * m / 32768 ≤ angle + 1 := by
    have h : piFixed * m < (angle + 1) * 32768 := by
      rw [hangle]
      omega
    rw [div_le_iff₀ (by norm_num)]
    exact_mod_cast h.le
  have hpf : (piFixed : ℝ) = 1069028584064966747859680373161870783300 := by
    unfold piFixed
    norm_num
  rw [hpf] at ha1 ha2
  obtain ⟨a, ha⟩ : ∃ a : ℝ, a = angle / 2 ^ 128 := ⟨_, rfl⟩
  have haF : (angle : ℝ) = a * 2 ^ 128 := by
    rw [ha]
    field_simp
  have ha0 : 0 ≤ a := by
    rw [ha]
    positivity
  rw [haF] at ha1 ha2
  have ha8 : a ≤ 8 / 5 := by nlinarith
  -- its square
  obtain ⟨sq, hsq⟩ : ∃ sq, sq = angle * angle / 2 ^ fixBits := ⟨_, rfl⟩
  have hs1 : (sq : ℝ) / 2 ^ 128 ≤ a ^ 2 := by
    have := @Nat.cast_div_le ℝ _ _ _ (angle * angle) (2 ^ fixBits)
    rw [← hsq] at this
    unfold fixBits at this
    push_cast at this
    rw [haF] at this
    rw [div_le_iff₀ (by positivity)]
    refine this.trans (le_of_eq ?_)
    field_simp
    norm_num
  have hs2 : a ^ 2 ≤ (sq : ℝ) / 2 ^ 128 + 1 / 2 ^ 128 := by
    have h : angle * angle < (sq + 1) * 2 ^ 128 := by
      rw [hsq]
      unfold fixBits
      omega
    have h' : (angle : ℝ) * angle ≤ ((sq : ℝ) + 1) * 2 ^ 128 := by exact_mod_cast h.le
    rw [haF] at h'
    rw [← add_div, le_div_iff₀ (by positivity)]
    have h2 : a ^ 2 * 2 ^ 128 * 2 ^ 128 ≤ ((sq : ℝ) + 1) * 2 ^ 128 := by linarith
    exact le_of_mul_le_mul_right h2 (by positivity)
  have ha3 : a ^ 2 ≤ 3 := by nlinarith
  have hs0 : 0 ≤ (sq : ℝ) / 2 ^ 128 := by positivity
  -- the series
  have h1 := sineSeries_err (sq := sq) (by linarith) 24 0 (angle : ℤ)
  have h2 := seriesRatio_sub (s := (sq : ℝ) / 2 ^ 128) (s' := a ^ 2) hs0 (by linarith) (by positivity) ha3 24 0
  have h3 := sine_tail ha0 ha8
  have h4 := seriesRatio_sum a 24 0
  simp only [Nat.zero_add] at h4
  rw [← h4] at h3
  have hT : sineTerm a 0 = a := by simp [sineTerm]
  rw [hT] at h3
  have h5 : |(sq : ℝ) / 2 ^ 128 - a ^ 2| ≤ 1 / 2 ^ 128 := by
    rw [abs_le]
    constructor <;> linarith
  have h6 : |a - Real.pi * m / 32768| ≤ 1 / 2 ^ 63 := by
    rw [abs_le]
    constructor <;> nlinarith
  have h7 : |Real.sin a - Real.sin (Real.pi * m / 32768)| ≤ |a - Real.pi * m / 32768| := by
    have := Real.lipschitzWith_sin.dist_le_mul a (Real.pi * m / 32768)
    simpa [Real.dist_eq] using this
  have hpos : 0 ≤ Real.sin (Real.pi * m / 32768) := by
    apply Real.sin_nonneg_of_nonneg_of_le_pi
    · positivity
    · rw [div_le_iff₀ (by norm_num)]
      nlinarith
  have hA : |(sineSeries sq 24 0 (angle : ℤ) : ℝ) / 2 ^ 128 - Real.sin (Real.pi * m / 32768)| ≤ 1 / 2 ^ 62 := by
    push_cast at h1
    rw [haF] at h1
    generalize seriesRatio (↑sq / 2 ^ 128) 24 0 = e at *
    generalize seriesRatio (a ^ 2) 24 0 = e' at *
    generalize (sineSeries sq 24 0 (angle : ℤ) : ℝ) = w at *
    have h1' : |w / 2 ^ 128 - a * e| ≤ 48 / 2 ^ 128 := by
      have : w / 2 ^ 128 - a * e = (w - a * 2 ^ 128 * e) / 2 ^ 128 := by field_simp
      rw [this, abs_div, abs_of_pos (show (0 : ℝ) < 2 ^ 128 by positivity)]
      apply div_le_div_of_nonneg_right _ (by positivity)
      linarith
    have h2' : |a * e - a * e'| ≤ 2 / 2 ^ 128 := by
      rw [← mul_sub, abs_mul, abs_of_nonneg ha0]
      have := h2.trans h5
      nlinarith [abs_nonneg (e - e')]
    have h7' := h7.trans h6
    clear h1 h2 h5 h6 h7 hs1 hs2 ha1 ha2
    rw [abs_le] at h1' h2' h3 h7' ⊢
    norm_num at h1' h2' h3 h7' ⊢
    constructor <;> linarith [h1'.1, h1'.2, h2'.1, h2'.2, h3.1, h3.2, h7'.1, h7'.2]
  unfold sineFixed
  simp only
  rw [← hangle, ← hsq]
  generalize sineSeries sq 24 0 (angle : ℤ) = w at hA
  rcases le_or_gt 0 w with hw | hw
  · have : ((w.toNat : Nat) : ℝ) = (w : ℝ) := by
      have := Int.toNat_of_nonneg hw
      exact_mod_cast this
    rw [this]
    exact hA
  · have hz : w.toNat = 0 := by omega
    rw [hz]
    have hw' : (w : ℝ) ≤ 0 := by exact_mod_cast hw.le
    have hw2 : (w : ℝ) / 2 ^ 128 ≤ 0 := div_nonpos_of_nonpos_of_nonneg hw' (by positivity)
    rw [abs_le] at hA ⊢
    constructor <;> push_cast <;> linarith [hA.1, hA.2]

end Sys2Proof.Machine
end

