-- ==== Sys2Proof/Tests/Slice0.lean ====
section
/-! SUPPORT. The model's own tests: ill-formed terms the checks refuse, words written out from the spec's encodings, at most
two small steps per command with results from spec/95_test_vectors.md, and a witness for the hypotheses of every
obligation. -/

namespace Sys2Proof.Tests

-- One proof at a time: each waits for the kernel, and many waiting at once would need a thread each.
set_option Elab.async false

open Sys2Proof.Machine

/-! ## WellFormed refuses ill-formed terms (R7, R70, R92, R186) -/

theorem test_wellFormed_smoke :
    resetBuild.wellFormed = true ∧ (Instr.noteOn 255).wellFormed = true ∧ (Instr.noteOn 256).wellFormed = false ∧
    Instr.render.wellFormed = true ∧ (Instr.disablePwm 256).wellFormed = false := by decide

theorem test_config_smoke :
    ({ resetBuild with sampleRate := 0 } : Config).wellFormed = false ∧
    ({ resetBuild with sampleRate := 16777217 } : Config).wellFormed = false ∧
    ({ resetBuild with trackCount := 0 } : Config).wellFormed = false ∧
    ({ resetBuild with trackCount := 257 } : Config).wellFormed = false ∧
    ({ resetBuild with sineTableBits := 1 } : Config).wellFormed = false ∧
    ({ resetBuild with sineTableBits := 17 } : Config).wellFormed = false ∧
    ({ resetBuild with maxStageTimeMs := 0x3F7FFFFF#32 } : Config).wellFormed = false ∧
    ({ resetBuild with maxStageTimeMs := 0x7F800000#32 } : Config).wellFormed = false ∧
    ({ resetBuild with regBase := 0x1000 } : Config).wellFormed = false ∧
    ({ resetBuild with memory := [⟨4294967295, 2⟩] } : Config).wellFormed = false ∧
    ({ resetBuild with noise := [0x3F800001#32] } : Config).wellFormed = false := by decide

/-! ## Decoding: words written out bit by bit, RSVD TRACK OPC (R90, R94) -/

theorem test_decode_render : decode 0b00000000000000000000000000000001#32 = .ok .render := rfl
theorem test_decode_noteOn : decode 0b00000000000000000000001100000010#32 = .ok (.noteOn 3) := rfl
theorem test_decode_noteOff : decode 0b00000000000000001111111100000011#32 = .ok (.noteOff 255) := rfl
theorem test_decode_setFrequency : decode 0b00000000000000000000000100000100#32 = .ok (.setFrequency 1) := rfl
theorem test_decode_setWaveform : decode 0b00000000000000000000001000000101#32 = .ok (.setWaveform 2) := rfl
theorem test_decode_setEnvelope : decode 0b00000000000000000000010000000110#32 = .ok (.setEnvelope 4) := rfl
theorem test_decode_enablePwm : decode 0b00000000000000000000000100000111#32 = .ok (.enablePwm 1) := rfl
theorem test_decode_disablePwm : decode 0b00000000000000001000000000001000#32 = .ok (.disablePwm 128) := rfl

/-- The illegal words of R93 and R100, each by its name. -/
theorem test_decode_rejects :
    decode 0x00000000#32 = .error .unassignedOpcode ∧ decode 0x00000009#32 = .error .unassignedOpcode ∧
    decode 0x000000FF#32 = .error .unassignedOpcode ∧ decode 0x00010002#32 = .error .reservedBitsSet ∧
    decode 0x80000003#32 = .error .reservedBitsSet ∧ decode 0x00000101#32 = .error .renderWithTrack ∧
    decodeBytes [0x02#8, 0x00#8, 0x00#8] = .error .truncated := ⟨rfl, rfl, rfl, rfl, rfl, rfl, rfl⟩

/-- The encodings of L2.10. -/
theorem test_encode :
    encode .render = 0x00000001#32 ∧ encode (.noteOn 3) = 0x00000302#32 ∧ encode (.noteOff 255) = 0x0000FF03#32 ∧
    encode (.setFrequency 1) = 0x00000104#32 ∧ encode (.setWaveform 2) = 0x00000205#32 ∧
    encode (.setEnvelope 4) = 0x00000406#32 ∧ encode (.enablePwm 1) = 0x00000107#32 ∧
    encode (.disablePwm 1) = 0x00000108#32 := by decide

theorem test_decodeTableWord :
    decodeTableWord 32 0x00000302 = some (.noteOn 3) ∧ decodeTableWord 32 0x00000101 = none ∧
    decodeBytes [0x02#8, 0x03#8, 0x00#8, 0x00#8, 0x77#8] = .ok (.noteOn 3, [0x77#8]) := ⟨rfl, rfl, rfl⟩

/-- A line and a pseudo-instruction (R104, R105, L2.10). -/
theorem test_expand :
    expandLine resetBuild (.setEnvelope 0 10 5 63 20) =
      [.regWrite 4 0x004 0x143F050A#32, .regWrite 4 0x000 0x00000006#32, .wait] ∧
    expandLine resetBuild (.note 0 (.decimal false 440 1)) =
      [.regWrite 4 0x004 0x43DC0000#32, .regWrite 4 0x000 0x00000004#32, .wait, .regWrite 4 0x000 0x00000002#32,
        .wait] := by decide +kernel

/-- Spaces around an operand are left out, one inside it is not (log 26): `NOTE_ON  1 ` and `NOTE_ON 1 2`. -/
theorem test_readLine_spaces :
    readLine ['N', 'O', 'T', 'E', '_', 'O', 'N', ' ', ' ', '1', ' '] = some (.noteOn 1) ∧
    readLine ['N', 'O', 'T', 'E', '_', 'O', 'N', ' ', '1', ' ', '2'] = none ∧
    readLine ['W', 'A', 'I', 'T', ' '] = some .wait := by decide

/-- Two lines as they are spelled (R103): `SET_FREQUENCY 1, 0x472C4400f` and `SET_FREQUENCY 0, 441.0`. -/
theorem test_readLine :
    readLine (['S', 'E', 'T', '_', 'F', 'R', 'E', 'Q', 'U', 'E', 'N', 'C', 'Y', ' ', '1', ',', ' '] ++
      ['0', 'x', '4', '7', '2', 'C', '4', '4', '0', '0', 'f']) = some (.setFrequency 1 (.encoding 0x472C4400#32)) ∧
    (readLine ['S', 'E', 'T', '_', 'F', 'R', 'E', 'Q', 'U', 'E', 'N', 'C', 'Y', ' ', '0', ',', ' ', '4', '4', '1', '.',
      '0']).map (expandLine resetBuild) =
      some [.regWrite 4 0x004 0x43DC8000#32, .regWrite 4 0x000 0x00000004#32, .wait] := by decide +kernel

/-! ## Small states -/

/-- The common setup with two tracks. -/
def two : Config := { resetBuild with trackCount := 2 }

/-- Idle, with operands, about to write a word to CMD. -/
def presenting (w a0 a1 : Word) : State :=
  { State.resetOf two with arg0 := a0, arg1 := a1, agenda := [.regWrite 4 0x000 w] }

/-- A command in flight. -/
def flying (w a0 a1 : Word) : State := { State.resetOf two with latch := some ⟨w, a0, a1⟩ }

/-- A command in flight, and the host about to write another word to CMD. -/
def colliding (w v : Word) : State := { flying w 0 0 with agenda := [.regWrite 4 0x000 v] }

/-- Idle, with one move to come. -/
def idle (e : Event) : State := { State.resetOf two with agenda := [e] }

/-- What a view of the next state shows, if there is a next state. -/
def after {α : Type} (o : Out) (f : State → α) : Option α :=
  match o with
  | .next t => some (f t)
  | _ => none

/-- A register of the next state. -/
def reg (o : Out) (off : Nat) : Option Word := after o (fun t => registerWord t off)

/-- A track with an envelope, a stage and a factor. -/
def voice (e : EnvState) (f : F32) (a d s r : BitVec 7) : Track :=
  { resetTrack resetBuild with envState := e, currentFactor := f, attack := a, decay := d, sustain := s, release := r }

/-! ## The commands, one step each (results from 95_test_vectors.md) -/

theorem test_noteOn_completes :
    let o := exec (.noteOn 1) (flying 0x00000102#32 0 0)
    reg o 0x1020 = some 0x00000001#32 ∧ reg o 0x1028 = some 0x00000000#32 ∧ reg o 0x1000 = some 0x00000004#32 := by
  decide +kernel

theorem test_noteOn_bad_track : reg (step (presenting 0x00000202#32 0 0)) 0x010 = some 0x00000100#32 := by
  decide +kernel

theorem test_noteOff_keeps_factor :
    let s := { flying 0x00000003#32 0 0 with tracks := [voice .attack 0x3E683315#32 1 0 126 0] }
    reg (exec (.noteOff 0) s) 0x1000 = some 0x00000006#32 ∧ reg (exec (.noteOff 0) s) 0x1008 = some 0x3E683315#32 := by
  decide +kernel

theorem test_setFrequency_completes :
    reg (exec (.setFrequency 0) (flying 0x00000004#32 0x472C4400#32 0)) 0x1010 = some 0x40C90FDA#32 := by
  decide +kernel

theorem test_setFrequency_rejects :
    reg (step (presenting 0x00000004#32 0x472C4401#32 0)) 0x010 = some 0x00000300#32 ∧
    reg (step (presenting 0x00000004#32 0x00000001#32 0)) 0x010 = some 0x00000001#32 ∧
    reg (step (presenting 0x00000004#32 0x7FC00000#32 0)) 0x010 = some 0x00000300#32 := by decide +kernel

theorem test_setWaveform_completes :
    reg (exec (.setWaveform 0) (flying 0x00000005#32 3 0)) 0x1000 = some 0x0000001C#32 := by decide +kernel

theorem test_setWaveform_rejects : reg (step (presenting 0x00000005#32 4 0)) 0x010 = some 0x00000200#32 := by
  decide +kernel

theorem test_setEnvelope_completes :
    reg (exec (.setEnvelope 0) (flying 0x00000006#32 0x143F050A#32 0)) 0x1004 = some 0x143F050A#32 := by decide +kernel

theorem test_setEnvelope_rejects :
    reg (step (presenting 0x00000006#32 0x7F000000#32 0)) 0x010 = some 0x00000200#32 ∧
    reg (step (presenting 0x00000006#32 0x7E7E7E7E#32 0)) 0x010 = some 0x00000001#32 := by decide +kernel

theorem test_enablePwm_completes :
    let o := exec (.enablePwm 0) (flying 0x00000007#32 0x40A00000#32 0x3F000000#32)
    reg o 0x1018 = some 0x3A3ABEF7#32 ∧ reg o 0x101C = some 0x3F000000#32 ∧ reg o 0x1000 = some 0x00000024#32 := by
  decide +kernel

theorem test_enablePwm_rejects :
    reg (step (presenting 0x00000007#32 0x40A00000#32 0x3F800001#32)) 0x010 = some 0x00000200#32 ∧
    reg (step (presenting 0x00000007#32 0xBF800000#32 0x40000000#32)) 0x010 = some 0x00000300#32 := by decide +kernel

theorem test_disablePwm_completes :
    let s := { flying 0x00000008#32 0 0 with
      tracks := [{ resetTrack two with pwmDepth := 0x3F000000#32, pwmPhaseIncrement := 0x3A3ABEF7#32 }] }
    reg (exec (.disablePwm 0) s) 0x1018 = some 0 ∧ reg (exec (.disablePwm 0) s) 0x101C = some 0 := by decide +kernel

/-- Frames 0 to 2 of program P1, with the right channel and the phase. -/
theorem test_render_completes :
    let s := { flying 0x00000001#32 0x1000#32 3#32 with
      tracks := [{ voice .attack 0 0 0 126 0 with enabled := true, phaseIncrement := 0x3D80ADFD#32 }] }
    after (exec .render s) (fun t => [0x1000, 0x1004, 0x1008, 0x1010, 0x1014, 0x1018].map (readWord t.mem)) =
      some [some 0x00000000#32, some 0x00000000#32, some 0x3D7B2B74#32, some 0x3DFAB273#32, some 0x3DFAB273#32, none] ∧
    reg (exec .render s) 0x1000 = some 0x00000003#32 := by decide +kernel

theorem test_render_rejects :
    reg (step (presenting 0x00000001#32 0 0)) 0x010 = some 0x00000400#32 ∧
    reg (step (presenting 0x00000001#32 2 0)) 0x010 = some 0x00000600#32 ∧
    reg (step (presenting 0x00000001#32 0xFFFFFFF8#32 2)) 0x010 = some 0x00000200#32 ∧
    reg (step (presenting 0x00000001#32 0xFFFFFFF8#32 1)) 0x010 = some 0x00000001#32 := by decide +kernel

/-! ## The engines (95_test_vectors.md L2.1 to L2.8) -/

theorem test_constants :
    factorPerStep = 0x3C010204#32 ∧ tableScale resetBuild = 0x4322F983#32 ∧ stageUnitMs resetBuild = 0x41200000#32 ∧
    incr resetBuild 0x43DC0000#32 = 0x3D80634A#32 ∧ sampleRateF resetBuild = 0x472C4400#32 := by decide +kernel

theorem test_wrap :
    wrap (fadd 0x40C90FDA#32 0x3D80ADFD#32) = 0x3D80ADC0#32 ∧ wrap 0x41490FDA#32 = 0x40C90FD9#32 ∧
    wrap 0x40C90FDB#32 = 0x00000000#32 ∧ wrap 0x40C90FDA#32 = 0x40C90FDA#32 := by decide +kernel

theorem test_sine_table :
    [0, 1, 128, 255, 256, 512, 513, 768, 1023].map (sineEntry resetBuild) =
      [0x00000000#32, 0x3BC90F88#32, 0x3F3504F3#32, 0x3F7FFEC4#32, 0x3F800000#32, 0x00000000#32, 0xBBC90F88#32,
        0xBF800000#32, 0xBBC90F88#32] := by decide +kernel

theorem test_lookup :
    lookup resetBuild 0x3F800000#32 = 0x3F5695E5#32 ∧ lookup resetBuild 0x42C80000#32 = 0xBF0242B1#32 ∧
    lookup { resetBuild with sineInterp := true } 0x40C90FDA#32 = 0xB4C90000#32 := by decide +kernel

/-- E-3, E-7, E-9 and E-14. -/
theorem test_advance :
    advance resetBuild (voice .attack 0x3F666666#32 1 0 126 0) 441 = (voice .decay 0x3F800000#32 1 0 126 0, false) ∧
    advance resetBuild (voice .decay 0x3F800000#32 0 1 0 0) 100 = (voice .decay 0x3F45F33B#32 0 1 0 0, false) ∧
    advance resetBuild (voice .decay 0x3E4CCCCD#32 0 50 126 0) 1 = (voice .sustain 0x3F800000#32 0 50 126 0, false) ∧
    advance resetBuild (voice .release 0x3C23D70A#32 0 0 126 1) 441 = (voice .release 0x00000000#32 0 0 126 1, true) := by
  decide +kernel

theorem test_generators :
    squareGen resetBuild 0x404A3D71#32 0x3D80ADFD#32 0 = 0xBF000660#32 ∧
    squareGen resetBuild 0x40C90FDA#32 0x3D80ADFD#32 0 = 0xB7480000#32 ∧
    sawGen resetBuild 0x40C80000#32 0x3D80ADFD#32 = 0x3F444D6C#32 ∧
    sawGen { resetBuild with bandlimit := .naive } 0x40C80000#32 0x3D80ADFD#32 = 0x3F7D4BBA#32 := by decide +kernel

theorem test_pwm_offset :
    pwmOffset resetBuild { resetTrack resetBuild with pwmPhase := 0x4096CBE4#32, pwmDepth := 0x3F800000#32 } =
      0xC0490FDB#32 := by decide +kernel

/-- The worked periodicity of R190. -/
theorem test_periodicity : (fun p => wrap (fadd p 0x3D80ADFD#32))^[100] 0x00000000#32 = 0x36000000#32 := by
  decide +kernel

/-! ## The protocol and the registers (L2.9, L2.11, P3) -/

/-- A word written while BUSY is not decoded, but stored. -/
theorem test_busy_write :
    reg (step (colliding 0x00000002#32 0x00FF0009#32)) 0x010 = some 0x00000701#32 ∧
    reg (step (colliding 0x00000002#32 0x00FF0009#32)) 0x000 = some 0x00FF0009#32 := by decide +kernel

theorem test_priority :
    reg (step (presenting 0x00FF0009#32 0 0)) 0x010 = some 0x00000500#32 ∧
    reg (step (presenting 0x0000C806#32 0x000000C8#32 0)) 0x010 = some 0x00000100#32 ∧
    reg (step (presenting 0x00000101#32 0x00001000#32 1)) 0x010 = some 0x00000500#32 := by decide +kernel

theorem test_reset_registers :
    [0x000, 0x004, 0x008, 0x00C, 0x010, 0x014, 0x018, 0x01C, 0x1000, 0x1004, 0x1008, 0x1010, 0x1020].map
        (registerWord State.reset) =
      [0x00000000#32, 0x00000000#32, 0x00000000#32, 0x00000000#32, 0x00000000#32, 0x0000AC44#32, 0x000CA001#32,
        0x449EC000#32, 0x00000004#32, 0x007E0000#32, 0x3F800000#32, 0x3D80634A#32, 0x00000000#32] := by decide +kernel

theorem test_reset_memory : memWf State.reset.mem = true := rfl

/-- A word placed where the next step takes it is presented by that step. -/
theorem test_withFetchWord :
    reg (step (State.reset.withFetchWord 32 0x00000002)) 0x010 = some 0x00000001#32 ∧
    after (step (State.reset.withFetchWord 32 0x00000002)) (fun t => t.latch) = some (some ⟨0x00000002#32, 0, 0⟩) := by
  decide +kernel

/-! ## Witnesses: the hypotheses of each obligation can be met, all together -/

theorem test_witness_DecodeReadsEncodedCommand : (Instr.setEnvelope 255).wellFormed = true := rfl

theorem test_witness_DecodedWordIsTheCommandsOwn : decode 0x0000FF08#32 = .ok (.disablePwm 255) := rfl

theorem test_witness_IllegalWordsAreRejected :
    Presenting (presenting 0x00000101#32 0 0) 0x00000101#32 [] ∧ isBusy (presenting 0x00000101#32 0 0) = false ∧
    ((0x00000000#32 : Word).toNat % 256 = 0) ∧ (8 < (0x00000009#32 : Word).toNat % 256) ∧
    ((0x00010001#32 : Word).toNat / 65536 ≠ 0) ∧
    ((0x00000101#32 : Word).toNat % 256 = 1 ∧ (0x00000101#32 : Word).toNat / 256 % 256 ≠ 0) ∧
    ¬ ((0x0000FF08#32 : Word).toNat % 256 = 0 ∨ 8 < (0x0000FF08#32 : Word).toNat % 256 ∨
      (0x0000FF08#32 : Word).toNat / 65536 ≠ 0 ∨
      ((0x0000FF08#32 : Word).toNat % 256 = 1 ∧ (0x0000FF08#32 : Word).toNat / 256 % 256 ≠ 0)) :=
  ⟨⟨rfl, rfl⟩, rfl, by decide, by decide, by decide, by decide, by decide⟩

theorem test_witness_StepPresentsTheDecodedCommand :
    Presenting (presenting 0x00000102#32 0 0) 0x00000102#32 [] ∧ isBusy (presenting 0x00000102#32 0 0) = false ∧
    decode 0x00000102#32 = .ok (.noteOn 1) := ⟨⟨rfl, rfl⟩, rfl, rfl⟩

theorem test_witness_StepCompletesTheLatchedCommand :
    Completing (flying 0x00000003#32 0 0) (.noteOff 0) ⟨0x00000003#32, 0, 0⟩ ∧ BlockTurn (flying 0x00000003#32 0 0) ∧
    Completing { flying 0x00000003#32 0 0 with agenda := [.wait] } (.noteOff 0) ⟨0x00000003#32, 0, 0⟩ ∧
    BlockTurn { flying 0x00000003#32 0 0 with agenda := [.wait] } ∧
    Completing { flying 0x00000003#32 0 0 with agenda := [.complete] } (.noteOff 0) ⟨0x00000003#32, 0, 0⟩ ∧
    ({ flying 0x00000003#32 0 0 with agenda := [.complete] } : State).agenda = .complete :: [] :=
  ⟨⟨rfl, rfl⟩, .inl rfl, ⟨rfl, rfl⟩, .inr ⟨[], rfl, rfl, rfl⟩, ⟨rfl, rfl⟩, rfl⟩

theorem test_witness_BusyCommandWriteIsRejected :
    Presenting (colliding 0x00000002#32 0x00000302#32) 0x00000302#32 [] ∧
    isBusy (colliding 0x00000002#32 0x00000302#32) = true ∧
    ∃ u, exec (.noteOn 0) (colliding 0x00000002#32 0x00000302#32) = .next u := ⟨⟨rfl, rfl⟩, rfl, _, rfl⟩

/-- Each check of R124 fails on its own in some presentation, and the boundaries of the operand checks. -/
theorem test_witness_ChecksRunInOrder :
    Presenting (colliding 0x00000002#32 0x00FF0009#32) 0x00FF0009#32 [] ∧
    isBusy (colliding 0x00000002#32 0x00FF0009#32) = true ∧
    Presenting (presenting 0x00000009#32 0 0) 0x00000009#32 [] ∧ isBusy (presenting 0x00000009#32 0 0) = false ∧
    decode 0x00000009#32 = .error .unassignedOpcode ∧
    decode 0x00000202#32 = .ok (.noteOn 2) ∧ (presenting 0x00000202#32 0 0).cfg.trackCount ≤ (Instr.noteOn 2).track ∧
    (presenting 0x00000001#32 0 0).arg0.toNat = 0 ∧
    ((presenting 0x00000001#32 2 0).arg0.toNat ≠ 0 ∧ (presenting 0x00000001#32 2 0).arg0.toNat % 4 ≠ 0) ∧
    ((presenting 0x00000001#32 0xFFFFFFF8#32 2).arg0.toNat % 4 = 0 ∧
      4294967296 < (presenting 0x00000001#32 0xFFFFFFF8#32 2).arg0.toNat +
        8 * (presenting 0x00000001#32 0xFFFFFFF8#32 2).arg1.toNat) ∧
    freqValid two 0x472C4401#32 = false ∧ 3 < (4#32 : Word).toNat ∧ 126 < (0x0000007F#32 : Word).toNat % 256 ∧
    126 < (0x7F000000#32 : Word).toNat / 16777216 ∧ freqValid two 0x472C4400#32 = true ∧
    ¬ (flt fZero 0x3F800001#32 = true ∧ fle 0x3F800001#32 fOne = true) :=
  ⟨⟨rfl, rfl⟩, rfl, ⟨rfl, rfl⟩, rfl, rfl, rfl, by decide, rfl, by decide, by decide, by decide +kernel, by decide,
    by decide, by decide, by decide +kernel, by decide +kernel⟩

theorem test_witness_AcceptanceCondition :
    Presenting (presenting 0x00000001#32 4 0) 0x00000001#32 [] ∧ isBusy (presenting 0x00000001#32 4 0) = false ∧
    firstError two .render 4 0 = none ∧ firstError two .render 0 0 = some .nullBuffer :=
  ⟨⟨rfl, rfl⟩, rfl, by decide, by decide⟩

theorem test_witness_CompletionUsesLatchedOperands :
    (presenting 0x00000005#32 3 0).latch = none ∧ firstError two (.setWaveform 0) 3 0 = none ∧
    (flying 0x00000005#32 3 0).latch = some ⟨0x00000005#32, 3, 0⟩ ∧
    ∃ t, exec (.setWaveform 0) (flying 0x00000005#32 3 0) = .next t := ⟨rfl, by decide, rfl, _, rfl⟩

theorem test_witness_CompletionClearsBusyAndKeepsErr :
    (flying 0x00000002#32 0 0).latch = some ⟨0x00000002#32, 0, 0⟩ ∧
    ∃ t, exec (.noteOn 0) (flying 0x00000002#32 0 0) = .next t := ⟨rfl, _, rfl⟩

theorem test_witness_AcceptedCommandAlwaysCompletes :
    (flying 0x00000001#32 0xFFFFFFF8#32 1).Inv = true ∧
    Completing (flying 0x00000001#32 0xFFFFFFF8#32 1) .render ⟨0x00000001#32, 0xFFFFFFF8#32, 1⟩ ∧
    bufferDeclared two 0xFFFFFFF8 1 = true ∧ (flying 0x00000004#32 0x43DC8000#32 0).Inv = true ∧
    Completing (flying 0x00000004#32 0x43DC8000#32 0) (.setFrequency 0) ⟨0x00000004#32, 0x43DC8000#32, 0⟩ :=
  ⟨by decide +kernel, ⟨rfl, rfl⟩, by decide +kernel, by decide +kernel, ⟨rfl, rfl⟩⟩

theorem test_witness_OnlyCmdWritesAndResetChangeErr :
    ∃ t, step (presenting 0x00000000#32 0 0) = .next t ∧ t.err ≠ (presenting 0x00000000#32 0 0).err :=
  ⟨_, rfl, by decide⟩

/-- The hypotheses of `PresentedAs`, idle and busy, at the largest track of the field. -/
theorem test_witness_PresentedAs :
    (255 : Nat) < 256 ∧ Presenting (presenting 0x0000FF02#32 0 0) 0x0000FF02#32 [] ∧
    isBusy (presenting 0x0000FF02#32 0 0) = false ∧
    Presenting (colliding 0x00000002#32 0x0000FF02#32) 0x0000FF02#32 [] ∧
    isBusy (colliding 0x00000002#32 0x0000FF02#32) = true ∧ two.sampleRate = 44100 :=
  ⟨by decide, ⟨rfl, rfl⟩, rfl, ⟨rfl, rfl⟩, rfl, rfl⟩

/-- The clauses of NOTE_ON, NOTE_OFF and DISABLE_PWM at the boundary of the track range, and a completion. -/
theorem test_witness_NoteOnMeaning :
    (presenting 0 0 0).latch = none ∧ (presenting 0 0 0).cfg.trackCount ≤ 2 ∧ 1 < (presenting 0 0 0).cfg.trackCount ∧
    Completing (flying 0x00000102#32 0 0) (.noteOn 1) ⟨0x00000102#32, 0, 0⟩ ∧
    (flying 0x00000102#32 0 0).tracks[1]? = some (resetTrack two) := ⟨rfl, by decide, by decide, ⟨rfl, rfl⟩, rfl⟩

theorem test_witness_NoteOffMeaning :
    (presenting 0 0 0).latch = none ∧ (presenting 0 0 0).cfg.trackCount ≤ 2 ∧ 1 < (presenting 0 0 0).cfg.trackCount ∧
    Completing (flying 0x00000103#32 0 0) (.noteOff 1) ⟨0x00000103#32, 0, 0⟩ ∧
    (flying 0x00000103#32 0 0).tracks[1]? = some (resetTrack two) ∧ (resetTrack two).release.toNat = 0 ∧
    { resetTrack two with enabled := true, envState := .release }.enabled = true ∧
    { resetTrack two with enabled := true, envState := .release }.envState = .release :=
  ⟨rfl, by decide, by decide, ⟨rfl, rfl⟩, rfl, rfl, rfl, rfl⟩

theorem test_witness_DisablePwmMeaning :
    (presenting 0 0 0).latch = none ∧ (presenting 0 0 0).cfg.trackCount ≤ 2 ∧ 1 < (presenting 0 0 0).cfg.trackCount ∧
    Completing (flying 0x00000108#32 0 0) (.disablePwm 1) ⟨0x00000108#32, 0, 0⟩ ∧
    (flying 0x00000108#32 0 0).tracks[1]? = some (resetTrack two) := ⟨rfl, by decide, by decide, ⟨rfl, rfl⟩, rfl⟩

theorem test_witness_SetEnvelopeMeaning :
    (presenting 0 0x7F000000#32 0).latch = none ∧ (presenting 0 0 0).cfg.trackCount ≤ 2 ∧
    1 < (presenting 0 0 0).cfg.trackCount ∧ 126 < (0x0000007F#32 : Word).toNat % 256 ∧
    126 < (0x00007F00#32 : Word).toNat / 256 % 256 ∧ 126 < (0x007F0000#32 : Word).toNat / 65536 % 256 ∧
    126 < (0x7F000000#32 : Word).toNat / 16777216 ∧
    ((0x7E7E7E7E#32 : Word).toNat % 256 ≤ 126 ∧ (0x7E7E7E7E#32 : Word).toNat / 256 % 256 ≤ 126 ∧
      (0x7E7E7E7E#32 : Word).toNat / 65536 % 256 ≤ 126 ∧ (0x7E7E7E7E#32 : Word).toNat / 16777216 ≤ 126) ∧
    Completing (flying 0x00000106#32 0x7E7E7E7E#32 0) (.setEnvelope 1) ⟨0x00000106#32, 0x7E7E7E7E#32, 0⟩ ∧
    (flying 0x00000106#32 0x7E7E7E7E#32 0).tracks[1]? = some (resetTrack two) :=
  ⟨rfl, by decide, by decide, by decide, by decide, by decide, by decide, by decide, ⟨rfl, rfl⟩, rfl⟩

theorem test_witness_SetFrequencyMeaning :
    (presenting 0 0 0).latch = none ∧ (presenting 0 0 0).cfg.trackCount ≤ 2 ∧ 1 < (presenting 0 0 0).cfg.trackCount ∧
    freqValid two 0x472C4401#32 = false ∧ freqValid two 0x472C4400#32 = true ∧ freqValid two 0x00000001#32 = true ∧
    Completing (flying 0x00000104#32 0x472C4400#32 0) (.setFrequency 1) ⟨0x00000104#32, 0x472C4400#32, 0⟩ ∧
    (flying 0x00000104#32 0x472C4400#32 0).tracks[1]? = some (resetTrack two) :=
  ⟨rfl, by decide, by decide, by decide +kernel, by decide +kernel, by decide +kernel, ⟨rfl, rfl⟩, rfl⟩

theorem test_witness_SetWaveformMeaning :
    (presenting 0 0 0).latch = none ∧ (presenting 0 0 0).cfg.trackCount ≤ 2 ∧ 1 < (presenting 0 0 0).cfg.trackCount ∧
    3 < (4#32 : Word).toNat ∧ (3#32 : Word).toNat ≤ 3 ∧
    Completing (flying 0x00000105#32 3 0) (.setWaveform 1) ⟨0x00000105#32, 3, 0⟩ ∧
    (flying 0x00000105#32 3 0).tracks[1]? = some (resetTrack two) :=
  ⟨rfl, by decide, by decide, by decide, by decide, ⟨rfl, rfl⟩, rfl⟩

theorem test_witness_EnablePwmMeaning :
    (presenting 0 0 0).latch = none ∧ (presenting 0 0 0).cfg.trackCount ≤ 2 ∧ 1 < (presenting 0 0 0).cfg.trackCount ∧
    freqValid two 0x00000000#32 = false ∧ freqValid two 0x40A00000#32 = true ∧
    ¬ (flt 0x00000000#32 0x3F800001#32 = true ∧ fle 0x3F800001#32 0x3F800000#32 = true) ∧
    flt 0x00000000#32 0x3F800000#32 = true ∧ fle 0x3F800000#32 0x3F800000#32 = true ∧
    Completing (flying 0x00000107#32 0x40A00000#32 0x3F800000#32) (.enablePwm 1)
      ⟨0x00000107#32, 0x40A00000#32, 0x3F800000#32⟩ ∧
    (flying 0x00000107#32 0x40A00000#32 0x3F800000#32).tracks[1]? = some (resetTrack two) :=
  ⟨rfl, by decide, by decide, by decide +kernel, by decide +kernel, by decide, by decide, by decide, ⟨rfl, rfl⟩, rfl⟩

/-- The clauses of R155: instant, clamped, still rising, and no samples. -/
theorem test_witness_AttackAdvance :
    resetBuild.wellFormed = true ∧ factorOk 0x3F800000#32 = true ∧ factorOk 0x00000000#32 = true ∧
    (voice .attack 0 0 0 126 0).envState = .attack ∧ (voice .attack 0 0 0 126 0).attack.toNat = 0 ∧
    (voice .attack 0 1 0 126 0).attack.toNat ≠ 0 ∧ (536870911 : Nat) < 536870912 ∧
    fle 0x3F800000#32 (attackRaise resetBuild (voice .attack 0x3F666666#32 1 0 126 0) 441) = true ∧
    fle 0x3F800000#32 (attackRaise resetBuild (voice .attack 0 1 0 126 0) 100) = false := by decide +kernel

theorem test_witness_DecayAdvance :
    resetBuild.wellFormed = true ∧ factorOk 0x3F800000#32 = true ∧ (voice .decay 0 0 0 126 0).envState = .decay ∧
    (voice .decay 0 0 0 126 0).sustain.toNat ≤ 126 ∧ (voice .decay 0 0 0 126 0).decay.toNat = 0 ∧
    (voice .decay 0 0 1 126 0).decay.toNat ≠ 0 ∧ (voice .decay 0 0 0 126 0).sustain.toNat = 126 ∧
    fle (decayFall resetBuild (voice .decay 0x3F000000#32 0 1 63 0) 441) (sustainLevel 63#7) = true ∧
    fle (decayFall resetBuild (voice .decay 0x3F800000#32 0 1 0 0) 100) (sustainLevel 0#7) = false ∧
    fle 0x3E4CCCCD#32 (sustainLevel 126#7) = true := by decide +kernel

theorem test_witness_SustainLevels :
    (voice .sustain 0 0 0 63 0).envState = .sustain ∧ (125#7 : BitVec 7).toNat < 126 ∧ (126#7 : BitVec 7).toNat ≤ 126 ∧
    (flying 0x00000003#32 0 0).tracks[0]? = some (resetTrack two) ∧ (resetTrack two).envState = .sustain ∧
    after (step (flying 0x00000003#32 0 0)) (fun t => (t.tracks[0]?).map (·.envState)) = some (some .release) ∧
    after (step (flying 0x00000002#32 0 0)) (fun t => (t.tracks[0]?).map (·.envState)) = some (some .attack) := by
  decide +kernel

theorem test_witness_ReleaseAdvance :
    resetBuild.wellFormed = true ∧ (voice .release 0 0 0 126 0).envState = .release ∧
    (voice .release 0 0 0 126 0).release.toNat = 0 ∧ (voice .release 0 0 0 126 1).release.toNat ≠ 0 ∧
    fle (releaseFall resetBuild (voice .release 0x3C23D70A#32 0 0 126 1) 441) 0x00000000#32 = true ∧
    fle (releaseFall resetBuild (voice .release 0x3F800000#32 0 0 126 1) 100) 0x00000000#32 = false ∧
    (voice .release 0 0 0 126 126).currentFactor = 0x00000000#32 := by decide +kernel

theorem test_witness_EndedOnlyFromReleaseAtZero :
    (advance resetBuild { voice .release 0 0 0 126 126 with enabled := true } 0).2 = true := by decide +kernel

theorem test_witness_EnvelopeStaysInRange :
    resetBuild.wellFormed = true ∧ factorOk (voice .attack 0x3F800000#32 1 0 126 0).currentFactor = true ∧
    (voice .attack 0x3F800000#32 1 0 126 0).sustain.toNat ≤ 126 ∧ (536870911 : Nat) < 536870912 := by decide +kernel

/-- The largest finite value and 2^103 sum to the overflow bound itself, and to less with the value below 2^103. -/
theorem test_witness_ArithmeticRoundsToNearestEven :
    isFinite 0x7F7FFFFF#32 = true ∧ isFinite 0x73000000#32 = true ∧ isFinite 0x72FFFFFF#32 = true ∧
    overflowUnits * |1| ≤ |fvalue 0x7F7FFFFF#32 + fvalue 0x73000000#32| ∧
    |fvalue 0x7F7FFFFF#32 + fvalue 0x72FFFFFF#32| < overflowUnits * |1| ∧
    fvalue 0x7F7FFFFF#32 + fvalue 0x73000000#32 ≠ 0 ∧ fvalue 0x7F7FFFFF#32 ≠ 0 ∧ isFinite 0x80000000#32 = true ∧
    fvalue 0x00000000#32 + fvalue 0x80000000#32 = 0 ∧ fvalue 0x00000000#32 - fvalue 0x80000000#32 = 0 ∧
    isFinite 0x00000000#32 = true ∧ fvalue 0x00000000#32 = 0 ∧ fvalue 0x80000000#32 = 0 := by decide +kernel

/-- The sums at the overflow bound and just below it, by R11's roundTiesToEven. -/
theorem test_fadd_overflow :
    fadd 0x7F7FFFFF#32 0x73000000#32 = 0x7F800000#32 ∧ fadd 0x7F7FFFFF#32 0x72FFFFFF#32 = 0x7F7FFFFF#32 := by
  decide +kernel

theorem test_witness_LegalFrequencies :
    isNaN 0x7FC00000#32 = true ∧ isInf 0xFF800000#32 = true ∧ flt 0xBF800000#32 0x00000000#32 = true ∧
    resetBuild.wellFormed = true ∧ freqValid resetBuild 0x472C4400#32 = true := by decide +kernel

/-- The three outcomes of R15 at the ends of its domain, and the largest phase and increment. -/
theorem test_witness_WrapStaysInRange :
    fle 0x00000000#32 0x41490FDB#32 = true ∧ (0x41490FDB#32 : F32) ≠ 0x80000000#32 ∧
    fle 0x41490FDB#32 (fmul 0x40000000#32 0x40C90FDB#32) = true ∧ fle 0x40C90FDB#32 0x40C90FDA#32 = false ∧
    (fle 0x40C90FDB#32 0x40C90FDB#32 = true ∧ fle 0x40C90FDB#32 (fsub 0x40C90FDB#32 0x40C90FDB#32) = false) ∧
    (fle 0x40C90FDB#32 0x41490FDB#32 = true ∧ fle 0x40C90FDB#32 (fsub 0x41490FDB#32 0x40C90FDB#32) = true) ∧
    phaseOk 0x40C90FDA#32 = true ∧ phaseOk 0x00000000#32 = true := by decide +kernel

theorem test_witness_NoCorrectionAtZeroIncrement :
    phaseOk 0x40C90FDA#32 = true ∧ resetBuild.bandlimit = .polyblep ∧
    ({ resetBuild with bandlimit := .naive } : Config).bandlimit = .naive ∧
    flt 0x00000000#32 0x3F7FFFFF#32 = true ∧ flt 0x3F7FFFFF#32 0x3F800000#32 = true ∧
    (fle 0xC0490FDB#32 0xC0490FDB#32 = true ∧ fle 0xC0490FDB#32 0x40490FDB#32 = true) ∧
    (fle 0xC0490FDB#32 0x40490FDB#32 = true ∧ fle 0x40490FDB#32 0x40490FDB#32 = true) ∧
    phaseOk 0x40490FDB#32 = true ∧ flt 0x00000000#32 (fdiv 0x40490FDB#32 0x40C90FDB#32) = true := by decide +kernel

theorem test_witness_NoiseDrawsStayInRange :
    ({ resetBuild with noise := [0xBF800000#32, 0x80000000#32, 0x3F800000#32] } : Config).wellFormed = true ∧
    Waveform.sine ≠ .noise := by decide

theorem test_witness_SineTableFacts :
    2 ≤ resetBuild.sineTableBits ∧ resetBuild.sineTableBits ≤ 16 ∧ 1023 < tableSize resetBuild ∧
    (1 ≤ 511 ∧ 511 < tableSize resetBuild / 2) ∧ 256 ≤ tableSize resetBuild / 4 := by decide +kernel

theorem test_witness_SineTableIsNearest :
    2 ≤ resetBuild.sineTableBits ∧ resetBuild.sineTableBits ≤ 16 ∧ 1023 < tableSize resetBuild ∧
    isFinite 0x3F800000#32 = true := by decide +kernel

theorem test_witness_TableScaleIsNearest :
    ({ resetBuild with sineTableBits := 16 } : Config).sineTableBits ≤ 16 ∧ isFinite 0x4322F983#32 = true := by decide

theorem test_witness_LookupReadsTheTable :
    resetBuild.sineInterp = false ∧ ({ resetBuild with sineInterp := true } : Config).sineInterp = true := ⟨rfl, rfl⟩

theorem test_witness_PwmOffsetIsBounded :
    resetBuild.wellFormed = true ∧ flt 0x00000000#32 (resetTrack resetBuild).pwmDepth = false ∧
    phaseOk (resetTrack resetBuild).pwmPhase = true ∧ (resetTrack resetBuild).pwmPhaseIncrement = 0x00000000#32 ∧
    resetBuild.sineInterp = false ∧ depthOk 0x3F800000#32 = true ∧ depthOk 0x00000000#32 = true := by decide +kernel

theorem test_witness_RenderIsChecked :
    (presenting 0 0 0).latch = none ∧ (0#32 : Word).toNat = 0 ∧ ((2#32 : Word).toNat ≠ 0 ∧ (2#32 : Word).toNat % 4 ≠ 0) ∧
    ((0xFFFFFFF8#32 : Word).toNat % 4 = 0 ∧ 4294967296 < (0xFFFFFFF8#32 : Word).toNat + 8 * (2#32 : Word).toNat) ∧
    (0xFFFFFFF8#32 : Word).toNat + 8 * (1#32 : Word).toNat ≤ 4294967296 :=
  ⟨rfl, rfl, by decide, by decide, by decide⟩

theorem test_witness_RenderWritesItsBuffer :
    Completing (flying 0x00000001#32 0x1000 1) .render ⟨0x00000001#32, 0x1000, 1⟩ ∧
    bufferDeclared two 0x1000 1 = true ∧
    drawsInRange two 0 (rendering ⟨0x00000001#32, 0x1000, 1⟩ (flying 0x00000001#32 0x1000 1)).drawn = true ∧
    (flying 0x00000001#32 0x1000 1).raced = [] ∧
    (rendering ⟨0x00000001#32, 0x1000, 1⟩ (flying 0x00000001#32 0x1000 1)).acc[0]? = some (0, 0) ∧
    (∃ t, exec .render (presenting 0x00000001#32 0x1000 1) = .next t) ∧
    ∃ t, exec (.noteOn 0) (flying 0x00000002#32 0 0) = .next t :=
  ⟨⟨rfl, rfl⟩, by decide +kernel, by decide +kernel, rfl, by decide +kernel, ⟨_, rfl⟩, _, rfl⟩

/-- The first and the last word of a buffer of one frame are raced. -/
theorem test_witness_RacedWordEndsAsEither :
    Completing { flying 0x00000001#32 0x1000 1 with agenda := [.memWrite 0x1004 7] } .render ⟨0x00000001#32, 0x1000, 1⟩ ∧
    (0x1004 % 4 = 0 ∧ 0x1004 + 4 ≤ 4294967296) ∧ wordDeclared two 0x1004 = true ∧
    ((0x1000#32 : Word).toNat ≤ 0x1000 ∧ 0x1004 < (0x1000#32 : Word).toNat + 8 * (1#32 : Word).toNat) ∧
    bufferDeclared two 0x1000 1 = true ∧
    drawsInRange two 0 (rendering ⟨0x00000001#32, 0x1000, 1⟩ (flying 0x00000001#32 0x1000 1)).drawn = true ∧
    (renderedWords ⟨0x00000001#32, 0x1000, 1⟩ (flying 0x00000001#32 0x1000 1))[1]? = some 0 :=
  ⟨⟨rfl, rfl⟩, by decide, by decide +kernel, by decide, by decide +kernel, by decide +kernel, by decide +kernel⟩

/-- No memory declared; and a known draw outside [−1, 1] that a Noise track would take. -/
theorem test_witness_RenderStopsOnlyOutsideItsContract :
    (let s := { flying 0x00000001#32 0x1000 1 with cfg := { two with memory := [⟨0x1000, 7⟩] } }
     Completing s .render ⟨0x00000001#32, 0x1000, 1⟩ ∧ bufferDeclared s.cfg 0x1000 1 = false) ∧
    (let s := { flying 0x00000001#32 0x1000 1 with
       cfg := { two with noise := [0x40000000#32] }
       tracks := [{ voice .sustain 0 0 0 126 0 with enabled := true, waveform := .noise }] }
     Completing s .render ⟨0x00000001#32, 0x1000, 1⟩ ∧ bufferDeclared s.cfg 0x1000 1 = true ∧
       drawsInRange s.cfg s.noiseDrawn (rendering ⟨0x00000001#32, 0x1000, 1⟩ s).drawn = false) ∧
    (let s := flying 0x00000001#32 0x1000 1
     Completing s .render ⟨0x00000001#32, 0x1000, 1⟩ ∧ bufferDeclared s.cfg 0x1000 1 = true ∧
       drawsInRange s.cfg s.noiseDrawn (rendering ⟨0x00000001#32, 0x1000, 1⟩ s).drawn = true) :=
  ⟨⟨⟨rfl, rfl⟩, by decide +kernel⟩, ⟨⟨rfl, rfl⟩, by decide +kernel, by decide +kernel⟩,
    ⟨rfl, rfl⟩, by decide +kernel, by decide +kernel⟩

theorem test_witness_SilentTrackContributesNothing :
    (resetTrack two).enabled = false ∧ (advance two (voice .release 0 0 0 126 0) 5).2 = true ∧
    ∀ tr ∈ [resetTrack two, voice .release 0 0 0 126 0], tr.enabled = false ∨ (advance two tr 5).2 = true :=
  ⟨rfl, by decide +kernel, by decide +kernel⟩

theorem test_witness_FramesFollowTheSampleSequence :
    ({ voice .sustain 0 0 0 126 0 with enabled := true } : Track).enabled = true ∧
    (advance two { voice .sustain 0 0 0 126 0 with enabled := true } 2).2 = false ∧
    (zeroFrames 2)[1]? = some (0x00000000#32, 0x00000000#32) := ⟨rfl, by decide +kernel, rfl⟩

theorem test_witness_ZeroLengthRender :
    Completing (flying 0x00000001#32 4 0) .render ⟨0x00000001#32, 4, 0⟩ ∧ (0#32 : Word).toNat = 0 := ⟨⟨rfl, rfl⟩, rfl⟩

theorem test_witness_RegisterAccessEffects :
    (idle (.regRead 4 0x1FFC)).inReset = false ∧ (0x1FFC : Nat) < 0x2000 ∧
    (idle (.regRead 4 0x1FFC)).agenda = .regRead 4 (two.regBase + 0x1FFC) :: [] ∧
    (∃ t, step (idle (.regRead 4 0x1FFC)) = .next t) ∧
    (idle (.regWrite 4 0x004 5)).agenda = .regWrite 4 (two.regBase + 0x004) 5 :: [] ∧
    (idle (.regWrite 4 0x008 5)).agenda = .regWrite 4 (two.regBase + 0x008) 5 :: [] ∧
    (idle (.regWrite 4 0x010 5)).agenda = .regWrite 4 (two.regBase + 0x010) 5 :: [] ∧
    (idle (.regRead 2 0x000)).agenda = .regRead 2 (two.regBase + 0x000) :: [] ∧ ((2 : Nat) ≠ 4 ∨ 0 % 4 ≠ 0) ∧
    (idle (.regWrite 4 0x002 5)).agenda = .regWrite 4 (two.regBase + 0x002) 5 :: [] :=
  ⟨rfl, by decide, rfl, ⟨_, rfl⟩, rfl, rfl, rfl, rfl, by decide, rfl⟩

theorem test_witness_RefusedAccesses :
    ({ idle (.regRead 4 0x000) with inReset := true } : State).agenda = .regRead 4 0x000 :: [] ∧
    ({ idle (.regRead 4 0x000) with inReset := true } : State).inReset = true ∧
    (idle (.regWrite 4 0x2000 5)).agenda = .regWrite 4 0x2000 5 :: [] ∧ (idle (.regWrite 4 0x2000 5)).inReset = false ∧
    two.regBase + 0x2000 ≤ 0x2000 := ⟨rfl, rfl, rfl, rfl, by decide⟩

theorem test_witness_WaitPollsUntilIdle :
    (idle .wait).agenda = .wait :: [] ∧ (idle .wait).inReset = false ∧ isBusy (idle .wait) = false ∧
    ({ flying 0x00000002#32 0 0 with agenda := [.wait] } : State).agenda = .wait :: [] ∧
    Completing { flying 0x00000002#32 0 0 with agenda := [.wait] } (.noteOn 0) ⟨0x00000002#32, 0, 0⟩ ∧
    ∃ t, exec (.noteOn 0) { flying 0x00000002#32 0 0 with agenda := [.wait] } = .next t :=
  ⟨rfl, rfl, rfl, rfl, ⟨rfl, rfl⟩, _, rfl⟩

/-- Every offset of the clauses, and both ends of the reserved ranges. -/
theorem test_witness_RegisterReadsAreExact :
    (∀ off ∈ [0x000, 0x004, 0x008, 0x00C, 0x010, 0x014, 0x018, 0x01C, 0x020, 0xFFC, 0x1040, 0x1FFC],
      (idle (.regRead 4 off)).inReset = false ∧ off % 4 = 0 ∧ off < 0x2000 ∧
      (idle (.regRead 4 off)).agenda = .regRead 4 (two.regBase + off) :: []) ∧
    0x1000 + 0x20 * (idle .wait).tracks.length ≤ 0x1040 := by decide +kernel

theorem test_witness_WindowShowsTheTrack :
    (idle (.regRead 4 0x103C)).inReset = false ∧ isBusy (idle (.regRead 4 0x103C)) = false ∧
    (idle (.regRead 4 0x103C)).tracks[1]? = some (resetTrack two) ∧
    (idle (.regRead 4 0x103C)).agenda = .regRead 4 (two.regBase + (0x1000 + 0x20 * 1 + 4 * 7)) :: [] :=
  ⟨rfl, rfl, rfl, rfl⟩

theorem test_witness_ConfigRegisterFields :
    ({ resetBuild with trackCount := 256, sineTableBits := 16, sineInterp := true } : Config).wellFormed = true := by
  decide

theorem test_witness_InFlightReadIsOldOrFinal :
    (idle (.memRead 0xFFFFFFFC)).agenda = .memRead 0xFFFFFFFC :: [] ∧ 0xFFFFFFFC % 4 = 0 ∧
    0xFFFFFFFC + 4 ≤ 4294967296 ∧ wordDeclared two 0xFFFFFFFC = true := ⟨rfl, by decide, by decide, by decide +kernel⟩

theorem test_witness_ResetSetsEveryState :
    (idle .resetAssert).agenda = .resetAssert :: [] ∧ (idle .resetAssert).cfg.sampleRate = 44100 := ⟨rfl, rfl⟩

theorem test_witness_ResetAbandonsTheCommand :
    Completing { flying 0x00000001#32 0x1000 1 with agenda := [.resetAssert] } .render ⟨0x00000001#32, 0x1000, 1⟩ ∧
    ({ flying 0x00000001#32 0x1000 1 with agenda := [.resetAssert] } : State).agenda = .resetAssert :: [] ∧
    Completing { flying 0x00000002#32 0 0 with agenda := [.resetAssert] } (.noteOn 0) ⟨0x00000002#32, 0, 0⟩ ∧
    Instr.noteOn 0 ≠ .render ∧
    (renderedWords ⟨0x00000001#32, 0x1000, 1⟩ (flying 0x00000001#32 0x1000 1))[1]? = some 0 :=
  ⟨⟨rfl, rfl⟩, rfl, ⟨rfl, rfl⟩, by decide, by decide +kernel⟩

theorem test_witness_ResetKeepsTheInvariant : two.wellFormed = true ∧ resetIncrementOk two = true := by decide +kernel

theorem test_witness_StepKeepsTheInvariant :
    (presenting 0x00000002#32 0 0).Inv = true ∧ ∃ t, step (presenting 0x00000002#32 0 0) = .next t :=
  ⟨by decide +kernel, _, rfl⟩

theorem test_witness_BuildNeverChanges : ∃ t, step (idle .resetAssert) = .next t := ⟨_, rfl⟩

theorem test_witness_OtherTracksAreUntouched :
    (∃ t, exec (.noteOn 0) (flying 0x00000002#32 0 0) = .next t) ∧ Instr.noteOn 0 ≠ .render ∧
    1 ≠ (Instr.noteOn 0).track ∧ (∃ t, step (presenting 0x00000002#32 0 0) = .next t) ∧
    (presenting 0x00000002#32 0 0).latch = none ∧
    (∀ rest, (presenting 0x00000002#32 0 0).agenda ≠ .resetAssert :: rest) ∧
    (∃ t, step (colliding 0x00000002#32 0x00000003#32) = .next t) ∧
    isBusy (colliding 0x00000002#32 0x00000003#32) = true ∧ ¬ BlockTurn (colliding 0x00000002#32 0x00000003#32) ∧
    (∀ rest, (colliding 0x00000002#32 0x00000003#32).agenda ≠ .complete :: rest) ∧
    ∀ rest, (colliding 0x00000002#32 0x00000003#32).agenda ≠ .resetAssert :: rest :=
  ⟨⟨_, rfl⟩, by decide, by decide, ⟨_, rfl⟩, rfl, nofun, ⟨_, rfl⟩, rfl, (by rintro (h | ⟨_, h, _⟩) <;> cases h), nofun, nofun⟩

/-- NOTE_ON enables, a RENDER that ends disables, and the three setters change their fields. -/
theorem test_witness_OnlyTheirCommandsWriteFields :
    (flying 0x00000002#32 0 0).tracks[0]? = some (resetTrack two) ∧
    (∀ rest, (flying 0x00000002#32 0 0).agenda ≠ .resetAssert :: rest) ∧
    after (step (flying 0x00000002#32 0 0)) (fun t => (t.tracks[0]?).map (fun tr => (tr.enabled, tr.envState, tr.currentFactor))) =
      some (some (true, .attack, 0x00000000#32)) ∧
    after (step { flying 0x00000002#32 0 0 with
      tracks := [{ resetTrack two with phase := 0x3F800000#32, pwmPhase := 0x3F800000#32 }] })
      (fun t => (t.tracks[0]?).map (fun tr => (tr.phase, tr.pwmPhase))) = some (some (0x00000000#32, 0x00000000#32)) ∧
    after (step { flying 0x00000001#32 4 0 with tracks := [{ voice .release 0 0 0 126 0 with enabled := true }] })
      (fun t => (t.tracks[0]?).map (·.enabled)) = some (some false) ∧
    after (step (flying 0x00000006#32 1 0)) (fun t => (t.tracks[0]?).map (·.attack)) = some (some 1#7) ∧
    after (step (flying 0x00000004#32 0x3F800000#32 0)) (fun t => (t.tracks[0]?).map (·.phaseIncrement)) =
      some (some 0x39156593#32) ∧
    after (step (flying 0x00000005#32 1 0)) (fun t => (t.tracks[0]?).map (·.waveform)) = some (some .square) ∧
    after (step (flying 0x00000007#32 0x40A00000#32 0x3F000000#32))
      (fun t => (t.tracks[0]?).map (fun tr => (tr.pwmPhaseIncrement, tr.pwmDepth))) =
      some (some (0x3A3ABEF7#32, 0x3F000000#32)) :=
  ⟨rfl, nofun, by decide +kernel, by decide +kernel, by decide +kernel, by decide +kernel, by decide +kernel,
    by decide +kernel, by decide +kernel⟩

end Sys2Proof.Tests
end

/-! PROOFS. The arithmetic of 00_scope.md (O24): on finite operands each primitive is a sign packed with one rounded
magnitude, and such a packing is the exact quotient rounded once (R11, R12). -/

namespace Sys2Proof.Machine

/-! Encodings and the values they stand for. -/

@[simp] theorem isFinite_fpack (s : Bool) {m : Nat} (h : m < 0x80000000) :
    isFinite (fpack s m) = decide (m < 0x7F800000) := by
  unfold isFinite
  rw [fmag_fpack s h]

@[simp] theorem isInf_fpack (s : Bool) {m : Nat} (h : m < 0x80000000) :
    isInf (fpack s m) = decide (m = 0x7F800000) := by
  unfold isInf
  rw [fmag_fpack s h]

@[simp] theorem funits_fpack (s : Bool) {m : Nat} (h : m < 0x80000000) : funits (fpack s m) = magUnits m := by
  unfold funits
  rw [fmag_fpack s h]

theorem isNaN_of_isFinite {x : F32} (h : isFinite x = true) : isNaN x = false := by
  unfold isFinite at h
  unfold isNaN
  simp only [decide_eq_true_eq, decide_eq_false_iff_not] at h ⊢
  omega

theorem isInf_of_isFinite {x : F32} (h : isFinite x = true) : isInf x = false := by
  unfold isFinite at h
  unfold isInf
  simp only [decide_eq_true_eq, decide_eq_false_iff_not] at h ⊢
  omega

theorem isNaN_quietNaN (op : Nat) (a b : F32) : isNaN (quietNaN op a b) = true := by
  unfold isNaN fmag quietNaN
  rw [BitVec.toNat_or, show 0x80000000 = 2 ^ 31 from rfl, Nat.or_mod_two_pow, decide_eq_true_eq]
  exact (show 0x7F800000 < (0x7FC00000#32).toNat % 2 ^ 31 by decide).trans_le Nat.right_le_or

@[simp] theorem natAbs_fvalue (x : F32) : (fvalue x).natAbs = funits x := by
  unfold fvalue
  split <;> simp

theorem funits_eq_zero_iff {x : F32} : funits x = 0 ↔ fmag x = 0 := by
  unfold funits
  refine ⟨fun h => ?_, fun h => by rw [h, magUnits_zero]⟩
  by_contra hne
  exact (magUnits_pos (Nat.pos_of_ne_zero hne)).ne' h

theorem fvalue_eq_zero_iff {x : F32} : fvalue x = 0 ↔ fmag x = 0 := by
  rw [← Int.natAbs_eq_zero, natAbs_fvalue, funits_eq_zero_iff]

theorem fvalue_nonpos_of_fsign {x : F32} (h : fsign x = true) : fvalue x ≤ 0 := by
  unfold fvalue
  rw [if_pos h]
  omega

/-- The sign bit is the sign of a value that is not zero. -/
theorem fsign_iff_neg {x : F32} (h : fvalue x ≠ 0) : fsign x = true ↔ fvalue x < 0 := by
  have hpos : 0 < funits x := by rwa [← natAbs_fvalue, Int.natAbs_pos]
  unfold fvalue
  cases fsign x with
  | true => simpa using hpos
  | false => simp

/-- The exclusive or of the signs is the sign of the product. -/
theorem fsign_bne_iff_mul_neg {a b : F32} (ha : fvalue a ≠ 0) (hb : fvalue b ≠ 0) :
    (fsign a != fsign b) = true ↔ fvalue a * fvalue b < 0 := by
  rw [bne_iff_ne, Ne, Bool.eq_iff_iff, fsign_iff_neg ha, fsign_iff_neg hb, mul_neg_iff]
  omega

theorem mul_pow_two_neg_iff (z : ℤ) : z * 2 ^ 149 < 0 ↔ z < 0 := by omega

theorem eq_negZero_iff {x : F32} : x = 0x80000000#32 ↔ fsign x = true ∧ fvalue x = 0 := by
  rw [fvalue_eq_zero_iff]
  constructor
  · rintro rfl
    decide
  · rintro ⟨hs, hm⟩
    rw [← fpack_eta x, hs, hm]
    rfl

/-! Negation. -/

@[simp] theorem fsign_fnegate (x : F32) : fsign (fnegate x) = !fsign x := fsign_fpack _ (fmag_lt x)

@[simp] theorem fmag_fnegate (x : F32) : fmag (fnegate x) = fmag x := fmag_fpack _ (fmag_lt x)

@[simp] theorem isFinite_fnegate (x : F32) : isFinite (fnegate x) = isFinite x := by
  unfold isFinite
  rw [fmag_fnegate]

@[simp] theorem fvalue_fnegate (x : F32) : fvalue (fnegate x) = -fvalue x := by
  unfold fvalue funits
  rw [fsign_fnegate, fmag_fnegate]
  cases fsign x <;> simp

theorem fnegate_involutive : Function.Involutive fnegate := fun x => by
  rw [fnegate, fsign_fnegate, fmag_fnegate, Bool.not_not, fpack_eta]

/-! One rounding. -/

/-- The exact error of a finite value against num / den is at least the error of the magnitudes. -/
theorem magnitude_error_le (v : F32) (num den : ℤ) :
    |((funits v * den.natAbs : ℕ) : ℤ) - num.natAbs| ≤ |fvalue v * den - num| := by
  rw [← natAbs_fvalue, ← Int.natAbs_mul, Int.natCast_natAbs, Int.natCast_natAbs]
  exact abs_abs_sub_abs_le _ _

/-- A value with the sign of the quotient errs as its magnitude does. -/
theorem magnitude_error_eq {v : F32} {num den : ℤ} (h : 0 ≤ fvalue v * den * num) :
    |fvalue v * den - num| = |((funits v * den.natAbs : ℕ) : ℤ) - num.natAbs| := by
  rw [← natAbs_fvalue, ← Int.natAbs_mul, Int.natCast_natAbs, Int.natCast_natAbs]
  rcases mul_nonneg_iff.mp h with ⟨hx, hn⟩ | ⟨hx, hn⟩
  · rw [abs_of_nonneg hx, abs_of_nonneg hn]
  · rw [abs_of_nonpos hx, abs_of_nonpos hn, neg_sub_neg, abs_sub_comm]

section Packed

variable {s : Bool} {num den : ℤ}

/-- The packed rounded magnitude lies on the side of zero that its sign bit names. -/
theorem fpack_roundMag_sign (hs : num ≠ 0 → (s = true ↔ num * den < 0)) :
    0 ≤ fvalue (fpack s (roundMag num.natAbs den.natAbs)) * den * num := by
  rcases eq_or_ne num 0 with rfl | hn
  · simp
  · unfold fvalue
    rw [fsign_fpack s (roundMag_lt _ _), mul_assoc, mul_comm den]
    cases s with
    | true => exact mul_nonneg_of_nonpos_of_nonpos (by simp) ((hs hn).mp rfl).le
    | false => exact mul_nonneg (by simp) (not_lt.mp fun h => nomatch (hs hn).mpr h)

/-- A value as large as the result, on the other side of zero, ties with it only when the exact value is zero. -/
theorem eq_zero_of_opposite_tie {x y : ℤ} (hd : den ≠ 0) (hmag : y.natAbs = x.natAbs) (hne : y ≠ x)
    (htie : |x * den - num| = |y * den - num|) : num = 0 := by
  obtain rfl : y = -x := (Int.natAbs_eq_natAbs_iff.mp hmag).resolve_left hne
  have hx : x * den ≠ 0 := mul_ne_zero (fun h => hne (by rw [h, neg_zero])) hd
  rw [neg_mul] at htie
  rcases abs_eq_abs.mp htie with h | h <;> omega

theorem fpack_toNat_even {m : Nat} (h : m < 0x80000000) (he : m % 2 = 0) : (fpack s m).toNat % 2 = 0 := by
  rw [fpack_toNat s h]
  split <;> omega

/-- Rounding a magnitude is rounding the signed value to nearest, ties to even: a value of the other sign lies no closer. -/
theorem nearestEven_fpack_roundMag (hd : den ≠ 0) (hs : num ≠ 0 → (s = true ↔ num * den < 0))
    (hfin : roundMag num.natAbs den.natAbs < 0x7F800000) :
    NearestEven (fpack s (roundMag num.natAbs den.natAbs)) num den := by
  have hd' : 0 < den.natAbs := Int.natAbs_pos.mpr hd
  have hlt := roundMag_lt num.natAbs den.natAbs
  have herr := magnitude_error_eq (fpack_roundMag_sign hs)
  rw [funits_fpack s hlt] at herr
  intro v _
  have hnear := roundMag_nearest hd' hfin (fmag v)
  have hv := magnitude_error_le v num den
  refine ⟨herr ▸ hnear.trans hv, fun htie hne => fpack_toNat_even hlt ?_⟩
  by_cases hu : magUnits (fmag v) = magUnits (roundMag num.natAbs den.natAbs)
  · have hmag : (fvalue v).natAbs = (fvalue (fpack s (roundMag num.natAbs den.natAbs))).natAbs := by
      rw [natAbs_fvalue, natAbs_fvalue, funits_fpack s hlt]
      exact hu
    rw [eq_zero_of_opposite_tie hd hmag hne htie, Int.natAbs_zero, roundMag_zero]
  · exact roundMag_even hd' hfin hu (le_antisymm (hv.trans (htie ▸ herr.le)) hnear)

/-- A packed rounded magnitude is the exact quotient rounded once. -/
theorem roundedOnce_fpack_roundMag (hd : den ≠ 0) (hs : num ≠ 0 → (s = true ↔ num * den < 0)) :
    RoundedOnce (fpack s (roundMag num.natAbs den.natAbs)) num den := by
  have hlt := roundMag_lt num.natAbs den.natAbs
  have hover : |num| < overflowUnits * |den| ↔ roundMag num.natAbs den.natAbs < 0x7F800000 := by
    rw [roundMag_overflow (Int.natAbs_pos.mpr hd), ← Int.ofNat_lt, Nat.cast_mul, Int.natCast_natAbs, Int.natCast_natAbs]
    rfl
  refine ⟨fun h => ?_, fun h => ?_, fun h => ?_⟩
  · have hfin := hover.mp h
    exact ⟨by simp [hlt, hfin], nearestEven_fpack_roundMag hd hs hfin⟩
  · have hinf := mt hover.mpr (not_lt.mpr h)
    have hle := roundMag_le_inf num.natAbs den.natAbs
    rw [isInf_fpack s hlt, decide_eq_true_eq]
    omega
  · rw [fsign_fpack s hlt]
    exact hs h

end Packed

/-! The primitives on finite operands. -/

/-- The quotient of two magnitudes rounded once is the nearest value. -/
theorem roundedOnce_roundRatio (num : ℕ) {den : ℕ} (hd : 0 < den) :
    RoundedOnce (roundRatio num den) (num * 2 ^ 149) den := by
  have h := roundedOnce_fpack_roundMag (s := false) (num := num * 2 ^ 149) (den := den) (by omega)
    fun _ => iff_of_false Bool.false_ne_true (not_lt.mpr (by positivity))
  rwa [Int.natAbs_mul, Int.natAbs_natCast, Int.natAbs_natCast] at h

section Operands

variable {a b : F32} (ha : isFinite a = true) (hb : isFinite b = true)
include ha hb

/-- A sum is its sign with the rounded magnitude of the exact sum; the sign of an exact zero is the operands' own. -/
theorem fadd_finite : fadd a b =
    fpack (if fvalue a + fvalue b = 0 then fsign a && fsign b else decide (fvalue a + fvalue b < 0))
      (roundMag (fvalue a + fvalue b).natAbs 1) := by
  unfold fadd roundUnits
  rw [isNaN_of_isFinite ha, isNaN_of_isFinite hb, isInf_of_isFinite ha, isInf_of_isFinite hb]
  by_cases hz : fvalue a + fvalue b = 0
  · simp [hz]
  · simp [hz]

/-- A difference is the sum with the negated second operand. -/
theorem fsub_finite : fsub a b = fadd a (fnegate b) := by
  unfold fsub
  rw [isNaN_of_isFinite ha, isNaN_of_isFinite hb, isInf_of_isFinite ha]
  simp only [Bool.or_self, Bool.false_and, Bool.false_eq_true, if_false]

theorem fmul_finite : fmul a b = fpack (fsign a != fsign b) (roundMag (funits a * funits b) unitScale) := by
  unfold fmul
  rw [isNaN_of_isFinite ha, isNaN_of_isFinite hb, isInf_of_isFinite ha, isInf_of_isFinite hb]
  simp only [Bool.or_self, Bool.false_eq_true, if_false]

theorem fdiv_finite (h0 : fvalue b ≠ 0) :
    fdiv a b = fpack (fsign a != fsign b) (roundMag (funits a * unitScale) (funits b)) := by
  unfold fdiv
  rw [isNaN_of_isFinite ha, isNaN_of_isFinite hb, isInf_of_isFinite ha, isInf_of_isFinite hb]
  simp only [Bool.or_self, Bool.false_eq_true, if_false, if_neg (mt fvalue_eq_zero_iff.mpr h0)]

theorem fdiv_by_zero (h0 : fvalue b = 0) :
    fdiv a b = if fvalue a = 0 then quietNaN 3 a b else fpack (fsign a != fsign b) 0x7F800000 := by
  unfold fdiv
  rw [isNaN_of_isFinite ha, isNaN_of_isFinite hb, isInf_of_isFinite ha, isInf_of_isFinite hb]
  simp only [Bool.or_self, Bool.false_eq_true, if_false, if_pos (fvalue_eq_zero_iff.mp h0), fvalue_eq_zero_iff (x := a)]

theorem fadd_roundedOnce : RoundedOnce (fadd a b) (fvalue a + fvalue b) 1 := by
  rw [fadd_finite ha hb, ← Int.natAbs_one]
  refine roundedOnce_fpack_roundMag one_ne_zero fun hz => ?_
  rw [if_neg hz, mul_one, decide_eq_true_eq]

theorem fmul_roundedOnce : RoundedOnce (fmul a b) (fvalue a * fvalue b) (2 ^ 149) := by
  have h := roundedOnce_fpack_roundMag (s := fsign a != fsign b) (num := fvalue a * fvalue b) (den := 2 ^ 149)
    (by positivity) fun hz => by
      rw [mul_pow_two_neg_iff]
      exact fsign_bne_iff_mul_neg (left_ne_zero_of_mul hz) (right_ne_zero_of_mul hz)
  rw [fmul_finite ha hb]
  rwa [Int.natAbs_mul, natAbs_fvalue, natAbs_fvalue] at h

theorem fdiv_roundedOnce (h0 : fvalue b ≠ 0) : RoundedOnce (fdiv a b) (fvalue a * 2 ^ 149) (fvalue b) := by
  have h := roundedOnce_fpack_roundMag (s := fsign a != fsign b) (num := fvalue a * 2 ^ 149) h0 fun hz => by
    rw [mul_right_comm, mul_pow_two_neg_iff]
    exact fsign_bne_iff_mul_neg (left_ne_zero_of_mul hz) h0
  rw [fdiv_finite ha hb h0]
  rwa [Int.natAbs_mul, natAbs_fvalue, natAbs_fvalue] at h

/-- An exact sum of zero is +0.0 unless both operands are −0.0 (R12). -/
theorem fadd_eq_zero (h : fvalue a + fvalue b = 0) :
    fadd a b = if a = 0x80000000#32 ∧ b = 0x80000000#32 then 0x80000000#32 else 0x00000000#32 := by
  have hsign : (fsign a && fsign b) = true ↔ a = 0x80000000#32 ∧ b = 0x80000000#32 := by
    rw [Bool.and_eq_true, eq_negZero_iff, eq_negZero_iff]
    refine ⟨fun ⟨hsa, hsb⟩ => ?_, fun ⟨⟨hsa, _⟩, hsb, _⟩ => ⟨hsa, hsb⟩⟩
    have hna := fvalue_nonpos_of_fsign hsa
    have hnb := fvalue_nonpos_of_fsign hsb
    exact ⟨⟨hsa, by omega⟩, hsb, by omega⟩
  rw [fadd_finite ha hb, if_pos h, h, Int.natAbs_zero, roundMag_zero]
  split
  case isTrue hab => rw [hsign.mpr hab]; rfl
  case isFalse hab => rw [Bool.eq_false_iff.mpr (mt hsign.mp hab)]; rfl

theorem fsub_roundedOnce : RoundedOnce (fsub a b) (fvalue a - fvalue b) 1 := by
  rw [fsub_finite ha hb, sub_eq_add_neg, ← fvalue_fnegate]
  exact fadd_roundedOnce ha (by rwa [isFinite_fnegate])

/-- An exact difference of zero is +0.0 unless it is −0.0 minus +0.0 (R12). -/
theorem fsub_eq_zero (h : fvalue a - fvalue b = 0) :
    fsub a b = if a = 0x80000000#32 ∧ b = 0x00000000#32 then 0x80000000#32 else 0x00000000#32 := by
  have hneg : fnegate b = 0x80000000#32 ↔ b = 0x00000000#32 := fnegate_involutive.eq_iff
  rw [fsub_finite ha hb, fadd_eq_zero ha (by rwa [isFinite_fnegate]) (by rwa [fvalue_fnegate, ← sub_eq_add_neg])]
  simp only [hneg]

theorem fsign_fmul : fsign (fmul a b) = (fsign a != fsign b) := by
  rw [fmul_finite ha hb, fsign_fpack _ (roundMag_lt _ _)]

theorem fsign_fdiv (h0 : fvalue b ≠ 0) : fsign (fdiv a b) = (fsign a != fsign b) := by
  rw [fdiv_finite ha hb h0, fsign_fpack _ (roundMag_lt _ _)]

end Operands

theorem fsub_self {a : F32} (ha : isFinite a = true) : fsub a a = 0x00000000#32 := by
  rw [fsub_eq_zero ha ha (sub_self _), if_neg]
  rintro ⟨rfl, h⟩
  exact absurd h (by decide)

/-- Settles O24: every primitive packs a sign with one rounded magnitude (`roundedOnce_fpack_roundMag`). -/
theorem arithmeticRoundsToNearestEven : Obligations.ArithmeticRoundsToNearestEven := by
  intro a b ha hb
  refine ⟨fadd_roundedOnce ha hb, fsub_roundedOnce ha hb, fmul_roundedOnce ha hb, fdiv_roundedOnce ha hb,
    fadd_eq_zero ha hb, fsub_eq_zero ha hb, by decide, fsub_self ha, fsign_fmul ha hb, fsign_fdiv ha hb,
    fun hb0 ha0 => ?_, fun hb0 ha0 => ?_⟩
  · rw [fdiv_by_zero ha hb hb0, if_neg ha0]
    exact ⟨isInf_fpack _ (by decide), fsign_fpack _ (by decide)⟩
  · rw [fdiv_by_zero ha hb hb0, if_pos ha0]
    exact isNaN_quietNaN 3 a b

end Sys2Proof.Machine

/-! PROOFS. The phase wrap of R15 (O28): the cases of its two conditional subtractions, and the range of each. -/

namespace Sys2Proof.Machine

/-! What `wrap` does, by how often TWO_PI fits. -/

theorem wrap_of_below {p : F32} (h : fle fTwoPi p = false) : wrap p = p := by
  simp [wrap, h]

theorem wrap_of_once {p : F32} (h : fle fTwoPi p = true) (h' : fle fTwoPi (fsub p fTwoPi) = false) :
    wrap p = fsub p fTwoPi := by
  simp [wrap, h, h']

theorem wrap_of_twice {p : F32} (h : fle fTwoPi p = true) (h' : fle fTwoPi (fsub p fTwoPi) = true) :
    wrap p = fsub (fsub p fTwoPi) fTwoPi := by
  simp [wrap, h, h']

/-! The domain, as encodings. -/

/-- The upper end of R15's domain, fmul(2.0, TWO_PI), as an encoding. -/
theorem wrapBound_eq : fmul 0x40000000#32 fTwoPi = 0x41490FDB#32 := by decide +kernel

/-- The upper end is TWO_PI twice, exactly. -/
theorem magUnits_wrapBound : magUnits 0x41490FDB = 2 * magUnits 0x40C90FDB := by decide +kernel

theorem wrapDomain_iff {p : F32} :
    (fle fZero p = true ∧ p ≠ 0x80000000#32 ∧ fle p (fmul 0x40000000#32 fTwoPi) = true) ↔ p.toNat ≤ 0x41490FDB := by
  have hz : fle fZero p = true ∧ p ≠ 0x80000000#32 ↔ p.toNat ≤ 0x7F800000 := by
    rw [← fle_zero_iff, Bool.and_eq_true, bne_iff_ne]
  rw [wrapBound_eq, ← and_assoc, hz]
  constructor
  · rintro ⟨hp, hle⟩
    rw [fle_of_le hp (by decide), decide_eq_true_eq] at hle
    exact hle
  · intro hp
    rw [fle_of_le (by omega) (by decide), decide_eq_true_eq]
    exact ⟨by omega, hp⟩

/-- One subtraction takes the domain to [ZERO, TWO_PI]. -/
theorem fsub_twoPi_le {p : F32} (hlo : 0x40C90FDB ≤ p.toNat) (hhi : p.toNat ≤ 0x41490FDB) :
    (fsub p fTwoPi).toNat ≤ 0x40C90FDB := by
  rw [fsub_toNat (b := fTwoPi) (by omega) hlo]
  have hmag := (magUnits_mono hhi).trans_eq magUnits_wrapBound
  refine roundMag_le one_pos (by omega) ?_
  have htwo : fTwoPi.toNat = 0x40C90FDB := rfl
  rw [htwo, mul_one]
  omega

theorem fle_twoPi {p : F32} (h : p.toNat ≤ 0x7F800000) : fle fTwoPi p = decide (0x40C90FDB ≤ p.toNat) :=
  fle_of_le (by decide) h

/-- `wrap` takes its domain into [ZERO, TWO_PI). -/
theorem phaseOk_wrap {p : F32} (hp : p.toNat ≤ 0x41490FDB) : phaseOk (wrap p) = true := by
  rw [phaseOk_iff]
  cases h : fle fTwoPi p with
  | false =>
    rw [wrap_of_below h]
    rw [fle_twoPi (by omega), decide_eq_false_iff_not] at h
    omega
  | true =>
    have hlo : 0x40C90FDB ≤ p.toNat := by rwa [fle_twoPi (by omega), decide_eq_true_eq] at h
    have hq := fsub_twoPi_le hlo hp
    cases h' : fle fTwoPi (fsub p fTwoPi) with
    | false =>
      rw [wrap_of_once h h']
      rw [fle_twoPi (by omega), decide_eq_false_iff_not] at h'
      omega
    | true =>
      rw [fle_twoPi (by omega), decide_eq_true_eq] at h'
      have hq2 : fsub p fTwoPi = fTwoPi := BitVec.eq_of_toNat_eq (le_antisymm hq h')
      rw [wrap_of_twice h (by rw [hq2]; decide), hq2, fsub_self (by decide)]
      decide

/-- The sum of two phases lies in the domain of `wrap`. -/
theorem fadd_phases_le {phase inc : F32} (hp : phaseOk phase = true) (hi : phaseOk inc = true) :
    (fadd phase inc).toNat ≤ 0x41490FDB := by
  rw [phaseOk_iff] at hp hi
  rw [fadd_toNat (by omega) (by omega)]
  refine roundMag_le one_pos (by omega) ?_
  rw [mul_one, magUnits_wrapBound, two_mul]
  exact add_le_add (magUnits_mono hp.le) (magUnits_mono hi.le)

/-- Settles O28: two TWO_PI bound the domain, so after one subtraction at most TWO_PI itself is left. -/
theorem wrapStaysInRange : Obligations.WrapStaysInRange := by
  refine ⟨fun p hzero hne hle => ?_, by decide, fun phase inc hp hi => wrapDomain_iff.mpr (fadd_phases_le hp hi)⟩
  exact ⟨phaseOk_wrap (wrapDomain_iff.mp ⟨hzero, hne, hle⟩), wrap_of_below, wrap_of_once, wrap_of_twice⟩

end Sys2Proof.Machine

/-! PROOFS. TABLE_SCALE against the real N / (2π) (R8, O33): one rounding of a quotient that the model's π puts within 2^-46
of it (log 11). -/

namespace Sys2Proof.Machine

/-- Nearest over the integers, read as a statement about real values. -/
theorem NearestEven.abs_sub_le {r v : F32} {num den : ℕ} (hd : 0 < den) (h : NearestEven r (num * 2 ^ 149) den)
    (hv : isFinite v = true) :
    |(fvalue r : ℝ) / 2 ^ 149 - num / den| ≤ |(fvalue v : ℝ) / 2 ^ 149 - num / den| := by
  have hscale : ∀ x : F32, |(fvalue x : ℝ) / 2 ^ 149 - num / den| =
      |((fvalue x * den - num * 2 ^ 149 : ℤ) : ℝ)| / (2 ^ 149 * den) := fun x => by
    have hd' : (0 : ℝ) < den := by exact_mod_cast hd
    rw [← abs_of_pos (show (0 : ℝ) < 2 ^ 149 * den by positivity), ← abs_div, div_sub_div _ _ (by positivity) hd'.ne',
      mul_comm (2 ^ 149) (num : ℝ)]
    norm_num
  rw [hscale, hscale]
  exact div_le_div_of_nonneg_right (by exact_mod_cast (h v hv).1) (by positivity)

/-- Moving the target by at most ε costs a nearest value at most 2ε. -/
theorem abs_sub_le_of_near {t v x y ε : ℝ} (h : |t - y| ≤ |v - y|) (hy : |x - y| ≤ ε) : |t - x| ≤ |v - x| + 2 * ε := by
  have h1 := abs_sub_le t y x
  have h2 := abs_sub_le v x y
  rw [abs_sub_comm y x] at h1
  linarith

/-- The model's π is the real one to within 2^-62. -/
theorem piFixed_err : |(piFixed : ℝ) / 2 ^ 128 - Real.pi| ≤ 1 / 2 ^ 62 := by
  have hlo := Real.pi_gt_d20
  have hhi := Real.pi_lt_d20
  unfold piFixed
  rw [abs_le]
  constructor <;> norm_num <;> linarith

/-- 1 / (2π) in the model's fixed point is off by no more than π is. -/
theorem inv_twoPi_err : |1 / (2 * Real.pi) - 2 ^ 128 / (2 * piFixed)| ≤ 1 / 2 ^ 62 := by
  have hpi := Real.pi_gt_three
  have hfix : (1 : ℝ) ≤ piFixed / 2 ^ 128 := by
    unfold piFixed
    norm_num
  have hinv : (2 : ℝ) ^ 128 / (2 * piFixed) = 1 / (2 * (piFixed / 2 ^ 128)) := by
    rw [one_div, ← mul_div_assoc, inv_div]
  rw [hinv]
  generalize hP : (piFixed : ℝ) / 2 ^ 128 = P at hfix
  have herr := piFixed_err
  rw [hP] at herr
  calc |1 / (2 * Real.pi) - 1 / (2 * P)| = |P - Real.pi| / (2 * Real.pi * P) := by
        rw [← abs_of_pos (show 0 < 2 * Real.pi * P by positivity), ← abs_div]
        congr 1
        field_simp
    _ ≤ |P - Real.pi| := div_le_self (abs_nonneg _) (by nlinarith)
    _ ≤ 1 / 2 ^ 62 := herr

theorem tableSize_le {c : Config} (h : c.sineTableBits ≤ 16) : tableSize c ≤ 65536 :=
  Nat.pow_le_pow_right (by omega) h

/-- The exact quotient that TABLE_SCALE rounds is N / (2π) to within 2^-46. -/
theorem tableScale_quotient_err {c : Config} (h : c.sineTableBits ≤ 16) :
    |(tableSize c : ℝ) / (2 * Real.pi) - ((tableSize c * 2 ^ fixBits : ℕ) : ℝ) / ((2 * piFixed : ℕ) : ℝ)| ≤ 1 / 2 ^ 46 := by
  have hN : (tableSize c : ℝ) ≤ 65536 := by exact_mod_cast tableSize_le h
  have hfactor : (tableSize c : ℝ) / (2 * Real.pi) - ((tableSize c * 2 ^ fixBits : ℕ) : ℝ) / ((2 * piFixed : ℕ) : ℝ) =
      tableSize c * (1 / (2 * Real.pi) - 2 ^ 128 / (2 * piFixed)) := by
    unfold fixBits
    push_cast
    ring
  rw [hfactor, abs_mul, Nat.abs_cast]
  calc (tableSize c : ℝ) * |1 / (2 * Real.pi) - 2 ^ 128 / (2 * piFixed)|
      ≤ 65536 * (1 / 2 ^ 62) := mul_le_mul hN inv_twoPi_err (abs_nonneg _) (by norm_num)
    _ = 1 / 2 ^ 46 := by norm_num

theorem tableScale_nearestEven {c : Config} (h : c.sineTableBits ≤ 16) :
    NearestEven (tableScale c) ((tableSize c * 2 ^ fixBits : ℕ) * 2 ^ 149) (2 * piFixed : ℕ) := by
  have hN := tableSize_le h
  refine ((roundedOnce_roundRatio _ (by decide)).1 ?_).2
  rw [abs_of_nonneg (by positivity), abs_of_nonneg (by positivity)]
  unfold fixBits overflowUnits piFixed
  omega

/-- Settles O33: the rounded quotient is the nearest value, and its target is off by half the tolerance. -/
theorem tableScaleIsNearest : Obligations.TableScaleIsNearest := by
  intro c v hc hv
  have hnear := (tableScale_nearestEven hc).abs_sub_le (by decide) hv
  have h := abs_sub_le_of_near hnear (tableScale_quotient_err hc)
  norm_num at h ⊢
  exact h

end Sys2Proof.Machine

/-! PROOFS. The range of the envelope's factor (R36, R161; O23): a rise below ONE stays below it, and a fall that stays above
its level has not passed ZERO. -/

namespace Sys2Proof.Machine

/-- A value with its sign bit set is at or below every value that is not negative. -/
theorem fle_fpack_true {m : Nat} {x : F32} (hm : m ≤ 0x7F800000) (hx : x.toNat ≤ 0x7F800000) :
    fle (fpack true m) x = true := by
  unfold fle isNaN
  rw [fkey_of_le hx, fmag_of_le hx, fmag_fpack true (by omega)]
  unfold fkey
  rw [fsign_fpack true (by omega), fmag_fpack true (by omega)]
  simp only [Bool.and_eq_true, Bool.not_eq_true', decide_eq_false_iff_not, decide_eq_true_eq, if_true]
  omega

/-- A difference that stays above a level that is not negative lies between ZERO and its first operand. -/
theorem fsub_le_of_not_fle {a b level : F32} (ha : a.toNat < 0x7F800000) (hb : b.toNat ≤ 0x7F800000)
    (hl : level.toNat ≤ 0x7F800000) (h : fle (fsub a b) level = false) : (fsub a b).toNat ≤ a.toNat := by
  rcases Nat.lt_or_ge a.toNat b.toNat with hlt | hge
  · obtain ⟨m, -, hm, hneg⟩ := fsub_neg ha hb hlt
    rw [hneg, fle_fpack_true (by omega) hl] at h
    cases h
  · exact fsub_le ha hge

theorem factorOk_zero : factorOk fZero = true := by decide

theorem factorOk_one : factorOk fOne = true := by decide

section Advance

variable {c : Config} {tr : Track} {n : Nat} (hc : c.wellFormed = true) (hf : factorOk tr.currentFactor = true)
  (hs : tr.sustain.toNat ≤ 126) (hn : n < 536870912)

include hc hf hn

theorem factorOk_advanceAttack : factorOk (advanceAttack c tr n).currentFactor = true := by
  rw [factorOk_iff] at hf
  unfold advanceAttack
  split_ifs with h0 hone
  · exact factorOk_one
  · exact factorOk_one
  · obtain ⟨hstep, -⟩ := stageStep_bounds hc hn h0
    have hsum : (attackRaise c tr n).toNat ≤ 0x7F800000 := fadd_le_inf (by omega) hstep
    rw [fle_of_le (by decide) hsum, decide_eq_true_eq] at hone
    exact factorOk_iff.mpr (Nat.le_of_not_le hone)

theorem factorOk_advanceRelease : factorOk (advanceRelease c tr n).1.currentFactor = true := by
  rw [factorOk_iff] at hf
  unfold advanceRelease
  split_ifs with h0 hzero
  · exact factorOk_zero
  · exact factorOk_zero
  · obtain ⟨hstep, -⟩ := stageStep_bounds hc hn h0
    exact factorOk_iff.mpr
      ((fsub_le_of_not_fle (by omega) hstep.le (by decide) (Bool.eq_false_iff.mpr hzero)).trans hf)

include hs

theorem factorOk_advanceDecay : factorOk (advanceDecay c tr n).currentFactor = true := by
  have hlevel := sustainLevel_le tr.sustain hs
  rw [factorOk_iff] at hf
  unfold advanceDecay
  simp only
  split_ifs with h0 hle
  · exact factorOk_iff.mpr hlevel
  · exact factorOk_iff.mpr hlevel
  · obtain ⟨hstep, -⟩ := stageStep_bounds hc hn h0
    exact factorOk_iff.mpr
      ((fsub_le_of_not_fle (by omega) hstep.le (by omega) (Bool.eq_false_iff.mpr hle)).trans hf)

theorem factorOk_advance : factorOk (advance c tr n).1.currentFactor = true := by
  unfold advance
  cases tr.envState with
  | attack => exact factorOk_advanceAttack hc hf hn
  | decay => exact factorOk_advanceDecay hc hf hs hn
  | sustain => exact factorOk_iff.mpr (sustainLevel_le tr.sustain hs)
  | release => exact factorOk_advanceRelease hc hf hn

end Advance

/-- Settles O23: stage by stage, a step that is not clamped lies between ZERO and ONE. -/
theorem envelopeStaysInRange : Obligations.EnvelopeStaysInRange :=
  fun _ _ _ hc hf hs hn => factorOk_advance hc hf hs hn

end Sys2Proof.Machine

/-! PROOFS. The host's register accesses (R46–R58, R71, R72, R121; O5, O48, O50, O51, O52): what a step does with the next
move, and the words the registers show. -/

namespace Sys2Proof.Machine

/-! The next move. -/

/-- A move that is no WAIT is taken off the agenda and made. -/
theorem step_eq_move {s : State} {e : Event} {rest : List Event} (ha : s.agenda = e :: rest) (he : e ≠ .wait) :
    step s = move exec e { s with agenda := rest } := by
  unfold step stepWith
  rw [ha]
  exact if_neg fun h => he h.1

theorem registerAccess_inReset {width addr : Nat} {act : Nat → State → Out} {s : State} (hr : s.inReset = true) :
    registerAccess width addr act s = .refused .accessDuringReset := by
  simp [registerAccess, hr]

theorem registerAccess_outside {width addr : Nat} {act : Nat → State → Out} {s : State} (hr : s.inReset = false)
    (h : addr < s.cfg.regBase ∨ s.cfg.regBase + 0x2000 ≤ addr) :
    registerAccess width addr act s = .refused .outsideRegisterWindow := by
  have hoff : regOffset s.cfg addr = none := if_neg (by omega)
  simp [registerAccess, hr, hoff]

theorem registerAccess_at {off : Nat} {act : Nat → State → Out} {s : State} (hr : s.inReset = false)
    (hoff : off < 0x2000) (halign : off % 4 = 0) : registerAccess 4 (s.cfg.regBase + off) act s = act off s := by
  simp [registerAccess, hr, regOffset_base s.cfg hoff, halign]

/-! A write of CMD. -/

theorem presentWord_of_decode {run : Instr → State → Out} {w : Word} {s : State} {i : Instr} (hb : isBusy s = false)
    (hd : decode w = .ok i) : presentWord run w s = run i { s with cmd := w } := by
  simp [presentWord, hb, hd]

/-- A CMD write outside reset presents its word. -/
theorem step_presenting {s : State} {w : Word} {rest : List Event} (h : Presenting s w rest) :
    step s = presentWord exec w { s with agenda := rest } := by
  obtain ⟨ha, hr⟩ := h
  rw [step_eq_move ha nofun]
  exact registerAccess_at (off := 0) (s := { s with agenda := rest }) hr (by decide) rfl

/-- Settles O5: the write presents its word, which the idle block decodes. -/
theorem stepPresentsTheDecodedCommand : Obligations.StepPresentsTheDecodedCommand := by
  intro s w rest i hp hb hd
  rw [step_presenting hp]
  exact presentWord_of_decode hb hd

/-- Settles O48: both accesses meet the same checks, the reset first. -/
theorem refusedAccesses : Obligations.RefusedAccesses := by
  intro s width addr v rest h
  have hstep : ∃ act, step s = registerAccess width addr act { s with agenda := rest } := by
    rcases h with h | h
    · exact ⟨_, step_eq_move h nofun⟩
    · exact ⟨_, step_eq_move h nofun⟩
  obtain ⟨act, hstep⟩ := hstep
  rw [hstep]
  exact ⟨fun hr => registerAccess_inReset hr, fun hr => registerAccess_outside (s := { s with agenda := rest }) hr⟩

/-! Reads. -/

/-- A read is exact unless it is of a track's window while BUSY = 1 (R57, R72). -/
theorem step_regRead {s : State} {off : Nat} {rest : List Event} (ha : s.agenda = .regRead 4 (s.cfg.regBase + off) :: rest)
    (hr : s.inReset = false) (hoff : off < 0x2000) (halign : off % 4 = 0)
    (h : isBusy s = false ∨ windowTrack s off = none) :
    step s = .next { s with agenda := rest, rdata := registerWord s off } := by
  rw [step_eq_move ha nofun]
  refine (registerAccess_at (s := { s with agenda := rest }) hr hoff halign).trans (if_neg ?_)
  rcases h with h | h
  · simp [show isBusy { s with agenda := rest } = false from h]
  · simp [show windowTrack { s with agenda := rest } off = none from h]

theorem windowTrack_below {s : State} {off : Nat} (h : off < 0x1000) : windowTrack s off = none :=
  if_neg (by omega)

theorem windowTrack_above {s : State} {off : Nat} (h : 0x1000 + 0x20 * s.tracks.length ≤ off) :
    windowTrack s off = none := by
  unfold windowTrack
  rw [if_pos (by omega), List.getElem?_eq_none_iff]
  omega

/-- The eight words of track t lie from 0x1000 + 0x20·t on (R54). -/
theorem windowTrack_at {s : State} {t i : Nat} (hi : i < 8) : windowTrack s (0x1000 + 0x20 * t + 4 * i) = s.tracks[t]? := by
  unfold windowTrack
  rw [if_pos (by omega)]
  congr 1
  omega

/-- Outside the build's windows and the seven named registers every offset reads 0 (R53). -/
theorem registerWord_reserved {s : State} {off : Nat} (h : windowTrack s off = none)
    (hoff : off = 0x00C ∨ 0x020 ≤ off) : registerWord s off = 0x00000000#32 := by
  unfold registerWord
  rw [h]
  simp only
  split
  case h_8 => rfl
  all_goals omega

/-- Settles O50: none of these offsets is in a track's window, so BUSY does not matter to the read. -/
theorem registerReadsAreExact : Obligations.RegisterReadsAreExact := by
  intro s off rest hr halign hoff ha
  have hread (h : windowTrack s off = none) := step_regRead ha hr hoff halign (.inr h)
  have hnamed (h : off < 0x1000) := hread (windowTrack_below h)
  have hreserved (hw : windowTrack s off = none) (h : off = 0x00C ∨ 0x020 ≤ off) :
      step s = .next { s with agenda := rest, rdata := 0x00000000#32 } := by
    rw [hread hw, registerWord_reserved hw h]
  refine ⟨?_, ?_, ?_, ?_, ?_, ?_, ?_, ?_⟩
  iterate 7
    rintro rfl
    exact hnamed (by decide)
  rintro (rfl | ⟨hlo, hhi⟩ | h)
  · exact hreserved (windowTrack_below (by decide)) (.inl rfl)
  · exact hreserved (windowTrack_below hhi) (.inr hlo)
  · exact hreserved (windowTrack_above h) (.inr (by omega))

/-! The fields of the words. -/

theorem ite_eq_toNat_decide (P : Prop) [Decidable P] : (if P then 1 else 0) = (decide P).toNat := by
  split <;> simp [*]

theorem bitAt_eq (b : Bool) (place : Nat) : bitAt b place = b.toNat * 2 ^ place := by
  cases b <;> simp [bitAt]

theorem envCode_lt (e : EnvState) : envCode e < 4 := by cases e <;> decide

theorem waveformCode_lt (w : Waveform) : waveformCode w < 4 := by cases w <;> decide

theorem tctrlWord_toNat (tr : Track) : (tctrlWord tr).toNat =
    tr.enabled.toNat + 2 * envCode tr.envState + 8 * waveformCode tr.waveform + 32 * (pwmActive tr).toNat := by
  have he := envCode_lt tr.envState
  have hw := waveformCode_lt tr.waveform
  have hen := tr.enabled.toNat_le
  have hpwm := (pwmActive tr).toNat_le
  unfold tctrlWord
  rw [bitAt_eq, bitAt_eq, BitVec.toNat_ofNat]
  omega

theorem tenvWord_toNat (tr : Track) : (tenvWord tr).toNat =
    tr.attack.toNat + 256 * tr.decay.toNat + 65536 * tr.sustain.toNat + 16777216 * tr.release.toNat := by
  have ha := tr.attack.isLt
  have hd := tr.decay.isLt
  have hs := tr.sustain.isLt
  have hr := tr.release.isLt
  unfold tenvWord
  rw [BitVec.toNat_ofNat]
  omega

theorem configWord_toNat {c : Config} (h : c.wellFormed = true) : (configWord c).toNat =
    c.trackCount + 4096 * c.sineTableBits + 131072 * c.sineInterp.toNat + 262144 * c.noteOnResetsPhase.toNat +
      524288 * (decide (c.bandlimit = .polyblep)).toNat := by
  obtain ⟨-, -, -, htracks, -, hbits, -⟩ := wellFormed_bounds h
  have hi := c.sineInterp.toNat_le
  have hn := c.noteOnResetsPhase.toNat_le
  have hb := (decide (c.bandlimit = .polyblep)).toNat_le
  unfold configWord
  rw [bitAt_eq, bitAt_eq, bitAt_eq, BitVec.toNat_ofNat]
  omega

theorem windowWord_eq_getD {tr : Track} {i : Nat} (hi : i < 8) : windowWord tr i =
    ([tctrlWord tr, tenvWord tr, tr.currentFactor, tr.phase, tr.phaseIncrement, tr.pwmPhase, tr.pwmPhaseIncrement,
      tr.pwmDepth][i]?).getD 0 := by
  interval_cases i <;> rfl

/-- Settles O51: the offset names the track and the word; the fields of TCTRL and TENV do not overlap. -/
theorem windowShowsTheTrack : Obligations.WindowShowsTheTrack := by
  refine ⟨fun s t i tr rest hr hb htr ht hi ha => ?_, fun tr => ?_⟩
  · have hword : registerWord s (0x1000 + 0x20 * t + 4 * i) = windowWord tr i := by
      unfold registerWord
      rw [windowTrack_at hi, htr]
      simp only
      congr 1
      omega
    rw [step_regRead ha hr (by omega) (by omega) (.inl hb), hword, windowWord_eq_getD hi]
  · have he := envCode_lt tr.envState
    have hw := waveformCode_lt tr.waveform
    have hen := tr.enabled.toNat_le
    have ha := tr.attack.isLt
    have hd := tr.decay.isLt
    have hs := tr.sustain.isLt
    have hpwm : flt 0x00000000#32 tr.pwmDepth = pwmActive tr := rfl
    rw [tctrlWord_toNat, tenvWord_toNat, hpwm]
    simp only [ite_eq_toNat_decide, Bool.decide_eq_true]
    omega

/-- Settles O52: the fields do not overlap, and a legal build's numbers fit theirs. -/
theorem configRegisterFields : Obligations.ConfigRegisterFields := by
  intro c h
  obtain ⟨-, -, -, htracks, -, hbits, -⟩ := wellFormed_bounds h
  have hi := c.sineInterp.toNat_le
  have hn := c.noteOnResetsPhase.toNat_le
  rw [configWord_toNat h]
  simp only [ite_eq_toNat_decide, Bool.decide_eq_true]
  omega

end Sys2Proof.Machine

/-! PROOFS. The frequencies' increments and the state after reset (R16, R39, R61, R261, R264; O54, O56). -/

namespace Sys2Proof.Machine

/-! Increments. -/

/-- +infinity over a finite value that is not negative is +infinity. -/
theorem fdiv_of_inf {a b : F32} (ha : a.toNat = 0x7F800000) (hb : b.toNat < 0x7F800000) :
    (fdiv a b).toNat = 0x7F800000 := by
  obtain rfl : a = 0x7F800000#32 := BitVec.eq_of_toNat_eq ha
  have hnan : isNaN 0x7F800000#32 = false := by decide
  have hinf : isInf 0x7F800000#32 = true := by decide
  have hsign : fsign 0x7F800000#32 = false := by decide
  simp [fdiv, hnan, hinf, hsign, isNaN_of_le hb.le, isInf_of_lt hb, fsign_of_le hb.le, fpack]

theorem fdiv_le_inf {a b : F32} (ha : a.toNat ≤ 0x7F800000) (hb : b.toNat < 0x7F800000) (h0 : 0 < b.toNat) :
    (fdiv a b).toNat ≤ 0x7F800000 := by
  rcases Nat.lt_or_eq_of_le ha with hlt | heq
  · rw [fdiv_toNat hlt hb h0]
    exact roundMag_le_inf _ _
  · exact (fdiv_of_inf heq hb).le

/-- Below TWO_PI the increment of a finite frequency that is not negative has the range of a phase (R16, R39). -/
theorem phaseOk_incr {c : Config} {hz : F32} (hc : c.wellFormed = true) (hhz : hz.toNat < 0x7F800000)
    (h : flt (incr c hz) fTwoPi = true) : phaseOk (incr c hz) = true := by
  obtain ⟨hlo, hhi⟩ := sampleRateF_bounds hc
  have hprod : (fmul fTwoPi hz).toNat ≤ 0x7F800000 := by
    rw [fmul_toNat (by decide) hhz]
    exact roundMag_le_inf _ _
  have hinc : (incr c hz).toNat ≤ 0x7F800000 := fdiv_le_inf hprod (by omega) (by omega)
  rw [flt_of_le hinc (by decide), decide_eq_true_eq] at h
  exact phaseOk_iff.mpr h

/-! Reset. -/

/-- Asserting reset puts every piece of state at its reset value but for the world outside the block (R261, R262). -/
theorem assertReset_shape (s : State) : assertReset s =
    { State.resetOf s.cfg with
      inReset := true, rdata := s.rdata, agenda := s.agenda, mem := (assertReset s).mem,
      fresh := (assertReset s).fresh, noiseDrawn := (assertReset s).noiseDrawn } := by
  unfold assertReset
  cases inFlight s <;> rfl

/-- Settles O54: all but the outside world is the state after reset, whose fields are R61's. -/
theorem resetSetsEveryState : Obligations.ResetSetsEveryState := by
  intro s rest ha
  refine ⟨_, step_eq_move ha nofun, ?_⟩
  rw [assertReset_shape]
  refine ⟨rfl, rfl, rfl, rfl, rfl, rfl, rfl, rfl, rfl, fun hrate => ?_, rfl⟩
  rw [hrate]
  decide +kernel

theorem phaseOk_zero : phaseOk fZero = true := by decide

theorem depthOk_zero : depthOk fZero = true := by decide

theorem trackOk_resetTrack {c : Config} (hc : c.wellFormed = true) (hi : resetIncrementOk c = true) :
    trackOk (resetTrack c) = true := by
  have hinc : phaseOk (resetTrack c).phaseIncrement = true := phaseOk_incr hc (by decide) hi
  rw [trackOk_iff]
  exact ⟨phaseOk_zero, hinc, phaseOk_zero, phaseOk_zero, factorOk_one, depthOk_zero, fun _ => rfl,
    Nat.zero_le _, Nat.zero_le _, Nat.le_refl _, Nat.zero_le _⟩

theorem resetOf_inv {c : Config} (hc : c.wellFormed = true) (hi : resetIncrementOk c = true) :
    (State.resetOf c).Inv = true := by
  have htracks : (resetTracks c).all trackOk = true := by
    simp [resetTracks, List.all_replicate, trackOk_resetTrack hc hi]
  exact (inv_iff _).mpr
    ⟨hc, hi, List.length_replicate, htracks, rfl, rfl, rfl, fun _ => rfl, fun _ => rfl⟩

/-- Settles O56: every reset track keeps R44, and nothing is in memory or in flight. -/
theorem resetKeepsTheInvariant : Obligations.ResetKeepsTheInvariant :=
  ⟨resetOf_inv (by decide) (by decide +kernel), fun _ => resetOf_inv⟩

end Sys2Proof.Machine

/-! PROOFS. Who writes ERR and the fields of a track (R34–R43, R49, R233; O13, O60): what a step does to one track. -/

namespace Sys2Proof.Machine

/-- A completion leaves ERR alone (R125). -/
theorem exec_completed_err {i : Instr} {l : Latch} {s t : State} (hl : s.latch = some l) (h : exec i s = .next t) :
    t.err = s.err := by
  rcases exec_next h with ⟨hn, -⟩ | ⟨hn, -⟩ | ⟨-, -, -, rfl⟩ | ⟨l', -, -, hc⟩
  · cases hl.symm.trans hn
  · cases hl.symm.trans hn
  · rfl
  · obtain ⟨-, -, rfl⟩ := completeRender_next hc
    rfl

/-- Settles O13: every other move keeps ERR, a completion included. -/
theorem onlyCmdWritesAndResetChangeErr : Obligations.OnlyCmdWritesAndResetChangeErr := by
  intro s t h hne
  obtain ⟨u, hu, hs⟩ := step_next h
  have herr : u.err = s.err := by
    rcases hu with rfl | ⟨-, -, hu⟩
    · rfl
    · rw [hu]
  rcases hs with rfl | ⟨l, i, -, hc, he⟩ | ⟨d, k, rfl⟩ | ⟨w, hw, -⟩ | ⟨v, rfl⟩ | ⟨v, rfl⟩ | ⟨a, v, -, -, rfl⟩ |
    ⟨⟨rest, hr⟩, -⟩ | rfl
  · exact absurd herr hne
  · exact absurd ((exec_completed_err hc.1 he).trans herr) hne
  · exact absurd herr hne
  · exact ⟨_, .inl ⟨w, hw⟩⟩
  · exact absurd herr hne
  · exact absurd herr hne
  · exact absurd herr hne
  · exact ⟨rest, .inr hr⟩
  · exact absurd herr hne

/-- What a RENDER of a state does to track k (R213): it is left alone, or takes the factor and stage of its advance, and is
then disabled if it has ended and else has new phases. -/
theorem rendering_track {l : Latch} {s : State} {k : Nat} {tr tr' : Track} (htr : s.tracks[k]? = some tr)
    (htr' : (rendering l s).tracks[k]? = some tr') :
    tr' = tr ∨ tr.enabled = true ∧ ∃ f e, f = (advance s.cfg tr l.arg1.toNat).1.currentFactor ∧
      e = (advance s.cfg tr l.arg1.toNat).1.envState ∧
      (((advance s.cfg tr l.arg1.toNat).2 = true ∧
          tr' = { tr with currentFactor := f, envState := e, enabled := false }) ∨
        ((advance s.cfg tr l.arg1.toNat).2 = false ∧
          ∃ p q, tr' = { tr with currentFactor := f, envState := e, phase := p, pwmPhase := q })) := by
  obtain ⟨acc, d, hget⟩ := renderTracks_get s.cfg l.arg1.toNat s.tracks (zeroFrames l.arg1.toNat) s.noiseDrawn k
  obtain rfl : (renderTrack s.cfg l.arg1.toNat acc tr d).2.1 = tr' := by
    simpa [htr] using hget.symm.trans htr'
  rcases renderTrack_track s.cfg l.arg1.toNat acc tr d with ⟨-, h⟩ | ⟨hen, hend, h⟩ | ⟨hen, hend, p, q, h⟩
  · exact .inl h
  · refine .inr ⟨hen, _, _, rfl, rfl, .inl ⟨hend, ?_⟩⟩
    rw [h, advance_shape]
  · refine .inr ⟨hen, _, _, rfl, rfl, .inr ⟨hend, p, q, ?_⟩⟩
    rw [h, advance_shape]

/-- What a step that is no reset does to track k: nothing, the change of a track command to k, or a RENDER. -/
theorem step_track {s t : State} {k : Nat} {tr tr' : Track} (h : step s = .next t)
    (hr : ∀ rest, s.agenda ≠ .resetAssert :: rest) (htr : s.tracks[k]? = some tr) (htr' : t.tracks[k]? = some tr') :
    tr' = tr ∨
    (∃ l i, Completing s i l ∧ i ≠ .render ∧ i.track = k ∧ tr' = changeOf s.cfg l i tr) ∨
    ∃ l, Completing s .render l ∧ (rendering l s).tracks[k]? = some tr' := by
  rcases step_tracks h with ht | ⟨⟨rest, hrest⟩, -⟩ | ⟨l, i, -, hc, ht⟩
  · exact .inl (by simpa [ht, htr] using htr'.symm)
  · exact absurd hrest (hr rest)
  · rw [ht] at htr'
    split_ifs at htr' with hi
    · exact .inr (.inr ⟨l, hi ▸ hc, htr'⟩)
    · rw [List.getElem?_modify, htr] at htr'
      split_ifs at htr' with hk
      · exact .inr (.inl ⟨l, i, hc, hi, hk, by simpa using htr'.symm⟩)
      · exact .inl (by simpa using htr'.symm)

/-- A choice between ZERO and a field's own value that is not that value is ZERO (R9, R164). -/
theorem zero_of_ite_ne {b : Bool} {p : F32} (h : (if b then fZero else p) ≠ p) :
    b = true ∧ (if b then fZero else p) = 0x00000000#32 := by
  cases b
  · exact absurd rfl h
  · exact ⟨rfl, rfl⟩

/-- Settles O60: command by command, the fields that its change leaves alone, and the values it gives the others. -/
theorem onlyTheirCommandsWriteFields : Obligations.OnlyTheirCommandsWriteFields := by
  intro s t k tr tr' h hr htr htr'
  have same {α : Type} {x : α} {P : Prop} (hne : x ≠ x) : P := absurd rfl hne
  have keptOff {b : Bool} {P : Prop} (h0 : b = false) (h1 : b = true) : P := absurd (h0.symm.trans h1) Bool.false_ne_true
  have keptOn {b : Bool} {P : Prop} (h1 : b = true) (h0 : b = false) : P := keptOff h0 h1
  rcases step_track h hr htr htr' with rfl | ⟨l, i, hc, hi, rfl, rfl⟩ | ⟨l, hc, hren⟩
  · exact ⟨keptOff, keptOn, same, same, same, same, same, same, same, same⟩
  · cases i with
    | render => exact absurd rfl hi
    | noteOn t =>
      exact ⟨fun _ _ => ⟨l, hc⟩, fun _ => nofun, same, same, same, fun _ => .inl ⟨l, hc, rfl⟩,
        fun _ => .inl ⟨l, hc, rfl⟩, fun hne => .inl ⟨l, hc, zero_of_ite_ne hne⟩,
        fun hne => .inl ⟨l, hc, zero_of_ite_ne hne⟩, same⟩
    | noteOff t =>
      exact ⟨keptOff, keptOn, same, same, same, same, fun _ => .inr (.inl ⟨l, hc, rfl⟩), same, same, same⟩
    | setFrequency t => exact ⟨keptOff, keptOn, same, fun _ => ⟨l, hc⟩, same, same, same, same, same, same⟩
    | setWaveform t => exact ⟨keptOff, keptOn, same, same, fun _ => ⟨l, hc⟩, same, same, same, same, same⟩
    | setEnvelope t => exact ⟨keptOff, keptOn, fun _ => ⟨l, hc⟩, same, same, same, same, same, same, same⟩
    | enablePwm t =>
      exact ⟨keptOff, keptOn, same, same, same, same, same, same, same, fun _ => .inl ⟨l, hc, rfl, rfl⟩⟩
    | disablePwm t =>
      exact ⟨keptOff, keptOn, same, same, same, same, same, same, same, fun _ => .inr ⟨l, hc, rfl, rfl⟩⟩
  · rcases rendering_track htr hren with rfl | ⟨hen, f, e, hf, he, ⟨hend, rfl⟩ | ⟨hend, p, q, rfl⟩⟩
    · exact ⟨keptOff, keptOn, same, same, same, same, same, same, same, same⟩
    · exact ⟨fun _ => nofun, fun _ _ => ⟨l, hc, hend⟩, same, same, same, fun _ => .inr ⟨l, hc, hen, hf⟩,
        fun _ => .inr (.inr ⟨l, hc, hen, he⟩), same, same, same⟩
    · exact ⟨keptOff, keptOn, same, same, same, fun _ => .inr ⟨l, hc, hen, hf⟩,
        fun _ => .inr (.inr ⟨l, hc, hen, he⟩), fun _ => .inr ⟨l, hc, hen, hend⟩,
        fun _ => .inr ⟨l, hc, hen, hend⟩, same⟩

end Sys2Proof.Machine

/-! PROOFS. The invariant (R44, R128, R264; O57): a RENDER and the track commands keep R44, an accepted word is the latched
command's own, and every move keeps the rest. -/

namespace Sys2Proof.Machine

/-! A RENDER keeps the tracks (R44). -/

section Rendering

variable {c : Config}

theorem trackOk_advance {tr : Track} {n : Nat} (hc : c.wellFormed = true) (hn : n < 536870912) (h : trackOk tr = true) :
    trackOk (advance c tr n).1 = true := by
  rw [trackOk_iff] at h
  obtain ⟨hph, hinc, hpp, hpinc, hf, hdep, hzero, ha, hd, hs, hr⟩ := h
  rw [advance_shape, trackOk_iff]
  exact ⟨hph, hinc, hpp, hpinc, factorOk_advance hc hf hs hn, hdep, hzero, ha, hd, hs, hr⟩

theorem trackOk_advancePwmPhase {tr : Track} (h : trackOk tr = true) : trackOk (advancePwmPhase tr) = true := by
  rw [trackOk_iff] at h ⊢
  obtain ⟨hph, hinc, hpp, hpinc, hrest⟩ := h
  exact ⟨hph, hinc, phaseOk_wrap (fadd_phases_le hpp hpinc), hpinc, hrest⟩

theorem trackOk_advancePhase {tr : Track} (h : trackOk tr = true) : trackOk (advancePhase tr) = true := by
  rw [trackOk_iff] at h ⊢
  obtain ⟨hph, hinc, hrest⟩ := h
  exact ⟨phaseOk_wrap (fadd_phases_le hph hinc), hinc, hrest⟩

theorem trackOk_renderFrames (g : F32) : ∀ (acc : List Frame) (tr : Track) (d : Nat), trackOk tr = true →
    trackOk (renderFrames c g acc tr d).2.1 = true
  | [], _, _, h => h
  | _ :: rest, _, _, h => trackOk_renderFrames g rest _ _ (trackOk_advancePhase (trackOk_advancePwmPhase h))

theorem trackOk_renderTrack {n : Nat} (hc : c.wellFormed = true) (hn : n < 536870912) (acc : List Frame) {tr : Track}
    (d : Nat) (h : trackOk tr = true) : trackOk (renderTrack c n acc tr d).2.1 = true := by
  have hadv := trackOk_advance hc hn h
  unfold renderTrack
  split
  · split
    next heq =>
      rw [heq] at hadv
      exact hadv
    next heq =>
      rw [heq] at hadv
      exact trackOk_renderFrames _ _ _ _ hadv
  · exact h

theorem trackOk_renderTracks {n : Nat} (hc : c.wellFormed = true) (hn : n < 536870912) :
    ∀ (trs : List Track) (acc : List Frame) (d : Nat), trs.all trackOk = true →
      (renderTracks c n trs acc d).tracks.all trackOk = true
  | [], _, _, _ => rfl
  | tr :: trs, acc, d, h => by
    rw [List.all_cons, Bool.and_eq_true] at h
    obtain ⟨htr, htrs⟩ := h
    simp only [renderTracks, List.all_cons, Bool.and_eq_true]
    exact ⟨trackOk_renderTrack hc hn acc d htr, trackOk_renderTracks hc hn trs _ _ htrs⟩

end Rendering

/-! An accepted command keeps its track (R44, R121). -/

theorem phaseOk_incr_of_freqValid {c : Config} {hz : F32} (hc : c.wellFormed = true) (h : freqValid c hz = true) :
    phaseOk (incr c hz) = true := by
  simp only [freqValid, Bool.and_eq_true] at h
  obtain ⟨⟨hfin, hpos⟩, hinc⟩ := h
  obtain ⟨-, hle⟩ := flt_zero.mp hpos
  have hmag : fmag hz < 0x7F800000 := of_decide_eq_true hfin
  rw [fmag_of_le hle] at hmag
  exact phaseOk_incr hc hmag hinc

theorem envelopeValid_iff {arg : Word} : envelopeValid arg = true ↔
    envField arg 0 ≤ 126 ∧ envField arg 1 ≤ 126 ∧ envField arg 2 ≤ 126 ∧ envField arg 3 ≤ 126 := by
  simp only [envelopeValid, Bool.and_eq_true, decide_eq_true_eq, and_assoc]
  rfl

theorem checkFrequency_eq_none {c : Config} {arg0 arg1 : Word} :
    checkFrequency c arg0 arg1 = none ↔ freqValid c arg0 = true := by
  simp [checkFrequency]

theorem checkEnvelope_eq_none {c : Config} {arg0 arg1 : Word} :
    checkEnvelope c arg0 arg1 = none ↔ envelopeValid arg0 = true := by
  simp [checkEnvelope]

theorem checkPwm_eq_none {c : Config} {arg0 arg1 : Word} :
    checkPwm c arg0 arg1 = none ↔ freqValid c arg0 = true ∧ depthValid arg1 = true := by
  unfold checkPwm
  split_ifs <;> simp_all

theorem checkRender_eq_none {arg0 arg1 : Word} : checkRender arg0 arg1 = none ↔
    arg0.toNat ≠ 0 ∧ arg0.toNat % 4 = 0 ∧ arg0.toNat + 8 * arg1.toNat ≤ 4294967296 := by
  unfold checkRender
  split_ifs <;> simp <;> omega

/-- A track command whose checks all pass passes its own (R124). -/
theorem own_check_of_none {c : Config} {t : Nat} {e : ErrCode} {check : Option ErrCode}
    (h : (if c.trackCount ≤ t then some e else check) = none) : check = none := by
  split_ifs at h
  exact h

theorem trackOk_setEnvelopeChange {c : Config} {l : Latch} {tr : Track} (hv : envelopeValid l.arg0 = true)
    (h : trackOk tr = true) : trackOk (setEnvelopeChange c l tr) = true := by
  have hfield {k : Nat} (hk : envField l.arg0 k ≤ 126) : (BitVec.ofNat 7 (envField l.arg0 k)).toNat ≤ 126 := by
    rw [BitVec.toNat_ofNat]
    omega
  obtain ⟨ha, hd, hs, hr⟩ := envelopeValid_iff.mp hv
  rw [trackOk_iff] at h ⊢
  obtain ⟨hph, hinc, hpp, hpinc, hf, hdep, hzero, -⟩ := h
  exact ⟨hph, hinc, hpp, hpinc, hf, hdep, hzero, hfield ha, hfield hd, hfield hs, hfield hr⟩

theorem trackOk_setFrequencyChange {c : Config} {l : Latch} {tr : Track} (hc : c.wellFormed = true)
    (hv : freqValid c l.arg0 = true) (h : trackOk tr = true) : trackOk (setFrequencyChange c l tr) = true := by
  rw [trackOk_iff] at h ⊢
  obtain ⟨hph, -, hrest⟩ := h
  exact ⟨hph, phaseOk_incr_of_freqValid hc hv, hrest⟩

theorem trackOk_noteOnChange {c : Config} {l : Latch} {tr : Track} (h : trackOk tr = true) :
    trackOk (noteOnChange c l tr) = true := by
  have hzero {p : F32} (hp : phaseOk p = true) : phaseOk (if c.noteOnResetsPhase then fZero else p) = true := by
    split
    · exact phaseOk_zero
    · exact hp
  rw [trackOk_iff] at h ⊢
  obtain ⟨hph, hinc, hpp, hpinc, -, hrest⟩ := h
  exact ⟨hzero hph, hinc, hzero hpp, hpinc, factorOk_zero, hrest⟩

theorem trackOk_enablePwmChange {c : Config} {l : Latch} {tr : Track} (hc : c.wellFormed = true)
    (hv : freqValid c l.arg0 = true) (hd : depthValid l.arg1 = true) (h : trackOk tr = true) :
    trackOk (enablePwmChange c l tr) = true := by
  obtain ⟨hpos, hle⟩ := depthValid_iff.mp hd
  have hne : l.arg1 ≠ fZero := fun he => absurd hpos (by simp [he, fZero])
  rw [trackOk_iff] at h ⊢
  obtain ⟨hph, hinc, hpp, -, hf, -, -, hrest⟩ := h
  exact ⟨hph, hinc, hpp, phaseOk_incr_of_freqValid hc hv, hf, depthOk_iff.mpr hle, fun he => absurd he hne, hrest⟩

theorem trackOk_disablePwmChange {c : Config} {l : Latch} {tr : Track} (h : trackOk tr = true) :
    trackOk (disablePwmChange c l tr) = true := by
  rw [trackOk_iff] at h ⊢
  obtain ⟨hph, hinc, hpp, -, hf, -, -, hrest⟩ := h
  exact ⟨hph, hinc, hpp, phaseOk_zero, hf, depthOk_zero, fun _ => rfl, hrest⟩

theorem trackOk_changeOf {c : Config} {l : Latch} {i : Instr} {tr : Track} (hc : c.wellFormed = true)
    (hv : firstError c i l.arg0 l.arg1 = none) (h : trackOk tr = true) : trackOk (changeOf c l i tr) = true := by
  cases i with
  | render => exact h
  | noteOn t => exact trackOk_noteOnChange (l := l) h
  | noteOff t => exact h
  | setFrequency t => exact trackOk_setFrequencyChange hc (checkFrequency_eq_none.mp (own_check_of_none hv)) h
  | setWaveform t => exact h
  | setEnvelope t => exact trackOk_setEnvelopeChange (c := c) (checkEnvelope_eq_none.mp (own_check_of_none hv)) h
  | enablePwm t =>
    obtain ⟨hfreq, hdepth⟩ := checkPwm_eq_none.mp (own_check_of_none hv)
    exact trackOk_enablePwmChange hc hfreq hdepth h
  | disablePwm t => exact trackOk_disablePwmChange (c := c) (l := l) h

/-! The latch holds accepted commands (R121, R128). -/

theorem commandOf_eq_some {opc t : Nat} {i : Instr} (h : commandOf opc t = some i) :
    i.opcode = opc ∧ (i ≠ .render → i.track = t) := by
  unfold commandOf at h
  split at h <;> cases h <;> simp [Instr.opcode, Instr.track]

theorem decode_eq_ok {w : Word} {i : Instr} (h : decode w = .ok i) :
    i.opcode = opcField w ∧ i.track = trackField w ∧ rsvdField w = 0 := by
  unfold decode at h
  split at h
  · cases h
  next j hj =>
    split_ifs at h with hrsvd hrender
    cases h
    obtain ⟨hopc, htrack⟩ := commandOf_eq_some hj
    refine ⟨hopc, ?_, not_not.mp hrsvd⟩
    by_cases hi : i = .render
    · have hzero : trackField w = 0 := not_not.mp fun hne => hrender ⟨hi, hne⟩
      rw [hi, hzero]
      rfl
    · exact htrack hi

/-- A word that decodes is its command's own word (R90, R94). -/
theorem encode_of_decode {w : Word} {i : Instr} (h : decode w = .ok i) : encode i = w := by
  obtain ⟨hopc, htrack, hrsvd⟩ := decode_eq_ok h
  apply BitVec.eq_of_toNat_eq
  rw [encode, hopc, htrack, BitVec.toNat_ofNat]
  unfold opcField trackField rsvdField at *
  omega

theorem latchOk_iff {c : Config} {l : Latch} : latchOk c (some l) = true ↔
    ∃ i, decode l.word = .ok i ∧ firstError c i l.arg0 l.arg1 = none := by
  unfold latchOk
  simp only
  split <;> simp [*]

theorem latchOk_of_decode {c : Config} {w a0 a1 : Word} {i : Instr} (hd : decode w = .ok i)
    (hv : firstError c i a0 a1 = none) : latchOk c (some ⟨encode i, a0, a1⟩) = true := by
  rw [encode_of_decode hd]
  exact latchOk_iff.mpr ⟨i, hd, hv⟩

theorem firstError_of_completing {s : State} {i : Instr} {l : Latch} (hl : latchOk s.cfg s.latch = true)
    (h : Completing s i l) : firstError s.cfg i l.arg0 l.arg1 = none := by
  obtain ⟨hlatch, hd⟩ := h
  rw [hlatch] at hl
  obtain ⟨j, hj, hv⟩ := latchOk_iff.mp hl
  obtain rfl : i = j := by simpa [hd] using hj
  exact hv

theorem completing_of_inFlight {s : State} {l : Latch} (h : inFlight s = some l) : Completing s .render l := by
  unfold inFlight at h
  split at h
  · cases h
  next l' hl =>
    split at h
    next hd =>
      cases h
      exact ⟨hl, hd⟩
    · cases h

theorem inFlight_of_idle {s : State} (h : s.latch = none) : inFlight s = none := by
  simp [inFlight, h]

theorem raceWord_of_idle {s : State} {a : Nat} (h : s.latch = none) : raceWord s a = s.raced := by
  simp [raceWord, inFlight_of_idle h]

/-- The buffer of an accepted RENDER lies in the sample-buffer space, so it has fewer than 2^29 frames (R210). -/
theorem buffer_bounds {s : State} {l : Latch} (hl : latchOk s.cfg s.latch = true) (hc : Completing s .render l) :
    l.arg0.toNat + 8 * l.arg1.toNat ≤ 4294967296 ∧ l.arg1.toNat < 536870912 := by
  obtain ⟨hpos, -, hend⟩ := checkRender_eq_none.mp (firstError_of_completing hl hc)
  omega

/-! What the invariant keeps. -/

theorem inv_accept {s : State} {w : Word} {i : Instr} (h : s.Inv = true) (hr : s.inReset = false)
    (hd : decode w = .ok i) (hv : firstError s.cfg i s.arg0 s.arg1 = none) : (accept (encode i) s).Inv = true := by
  rw [inv_iff] at h ⊢
  obtain ⟨hc, hi, hlen, htr, hwf, hsp, -, -, -⟩ := h
  exact ⟨hc, hi, hlen, htr, hwf, hsp, latchOk_of_decode hd hv, fun hr' => absurd hr' (by simp [hr]), nofun⟩

theorem inv_finish {s : State} (h : s.Inv = true) : (finish s).Inv = true := by
  rw [inv_iff] at h ⊢
  obtain ⟨hc, hi, hlen, htr, hwf, hsp, -, -, -⟩ := h
  exact ⟨hc, hi, hlen, htr, hwf, hsp, rfl, fun _ => rfl, fun _ => rfl⟩

theorem all_modify {p : Track → Bool} {trs : List Track} {f : Track → Track} (h : trs.all p = true)
    (hf : ∀ tr, p tr = true → p (f tr) = true) (k : Nat) : (trs.modify k f).all p = true := by
  rw [List.all_eq_true] at h ⊢
  intro tr' htr'
  obtain ⟨j, hj⟩ := List.mem_iff_getElem?.mp htr'
  rw [List.getElem?_modify] at hj
  obtain ⟨tr, hget, rfl⟩ := Option.map_eq_some_iff.mp hj
  have htr := h tr (List.mem_of_getElem? hget)
  split
  · exact hf tr htr
  · exact htr

theorem inv_modifyTrack {s : State} {f : Track → Track} (h : s.Inv = true)
    (hf : ∀ tr, trackOk tr = true → trackOk (f tr) = true) (k : Nat) : (modifyTrack k f s).Inv = true := by
  rw [inv_iff] at h ⊢
  obtain ⟨hc, hi, hlen, htr, hrest⟩ := h
  exact ⟨hc, hi, (List.length_modify ..).trans hlen, all_modify htr hf k, hrest⟩

/-- The words of a RENDER in flight keep the memory's form and space, however many of them are written. -/
theorem memory_commitWords {s : State} {l : Latch} (h : s.Inv = true) (hc : Completing s .render l)
    (fate : Nat → WordFate) (k : Nat) :
    memWf (commitWords fate (renderedWords l s) l.arg0.toNat s.mem k).1 = true ∧
    memInSpace (commitWords fate (renderedWords l s) l.arg0.toNat s.mem k).1 = true := by
  obtain ⟨-, -, -, -, hwf, hsp, hl, -, -⟩ := (inv_iff s).mp h
  obtain ⟨hend, -⟩ := buffer_bounds hl hc
  refine ⟨commitWords_wf _ _ _ _ hwf, commitWords_inSpace _ _ _ _ ?_ hsp⟩
  rw [renderedWords_length]
  omega

theorem inv_renderedState {s : State} {l : Latch} (h : s.Inv = true) (hc : Completing s .render l) :
    (renderedState l s).Inv = true := by
  obtain ⟨hwf, hsp⟩ := memory_commitWords h hc (completionFate s.raced) s.fresh
  obtain ⟨hcfg, hi, hlen, htr, -, -, hl, hrest⟩ := (inv_iff s).mp h
  obtain ⟨-, hn⟩ := buffer_bounds hl hc
  exact inv_finish ((inv_iff _).mpr ⟨hcfg, hi, (renderTracks_length ..).2.trans hlen,
    trackOk_renderTracks hcfg hn _ _ _ htr, hwf, hsp, hl, hrest⟩)

/-- A completion keeps the invariant (R125). -/
theorem inv_exec_completing {s t : State} {i : Instr} {l : Latch} (h : s.Inv = true) (hc : Completing s i l)
    (he : exec i s = .next t) : t.Inv = true := by
  have hlatch := hc.1
  by_cases hi : i = .render
  · subst hi
    rw [exec_render_completed hlatch] at he
    obtain ⟨-, -, rfl⟩ := completeRender_next he
    exact inv_renderedState h hc
  · rw [exec_completed hi hlatch] at he
    injection he with he
    subst he
    obtain ⟨hcfg, -, -, -, -, -, hl, -, -⟩ := (inv_iff s).mp h
    have hv := firstError_of_completing hl hc
    exact inv_finish (inv_modifyTrack h (fun tr => trackOk_changeOf hcfg hv) _)

/-- Presenting a command keeps the invariant (R121). -/
theorem inv_exec_presented {s t : State} {w : Word} {i : Instr} (h : s.Inv = true) (hr : s.inReset = false)
    (hb : s.latch = none) (hd : decode w = .ok i) (he : exec i s = .next t) : t.Inv = true := by
  rw [exec_presented i hb] at he
  split at he
  · injection he with he
    subst he
    exact h
  next hv =>
    injection he with he
    subst he
    exact inv_accept h hr hd hv

theorem inv_writeMemory {s : State} {a : Nat} (v : Word) (h : s.Inv = true) (ha : a + 4 ≤ 4294967296) :
    State.Inv { s with mem := writeWord s.mem a v, raced := raceWord s a } = true := by
  rw [inv_iff] at h ⊢
  obtain ⟨hc, hi, hlen, htr, hwf, hsp, hl, hr, hraced⟩ := h
  refine ⟨hc, hi, hlen, htr, writeWord_wf a v hwf, writeWord_inSpace v ha hsp, hl, hr, fun hn => ?_⟩
  exact (raceWord_of_idle (s := s) hn).trans (hraced hn)

theorem memory_assertReset {s : State} (h : s.Inv = true) :
    memWf (assertReset s).mem = true ∧ memInSpace (assertReset s).mem = true := by
  unfold assertReset
  cases hf : inFlight s with
  | none =>
    obtain ⟨-, -, -, -, hwf, hsp, -⟩ := (inv_iff s).mp h
    exact ⟨hwf, hsp⟩
  | some l => exact memory_commitWords h (completing_of_inFlight hf) (abandonFate s.cfg) s.fresh

theorem inv_assertReset {s : State} (h : s.Inv = true) : (assertReset s).Inv = true := by
  obtain ⟨hwf, hsp⟩ := memory_assertReset h
  obtain ⟨hc, hi, -⟩ := (inv_iff s).mp h
  obtain ⟨-, -, hlen, htr, -⟩ := (inv_iff _).mp (resetOf_inv hc hi)
  rw [assertReset_shape]
  exact (inv_iff _).mpr ⟨hc, hi, hlen, htr, hwf, hsp, rfl, fun _ => rfl, fun _ => rfl⟩

theorem inv_resetRelease {s : State} (h : s.Inv = true) : State.Inv { s with inReset := false } = true := by
  rw [inv_iff] at h ⊢
  obtain ⟨hc, hi, hlen, htr, hwf, hsp, hl, -, hraced⟩ := h
  exact ⟨hc, hi, hlen, htr, hwf, hsp, hl, nofun, hraced⟩

/-- Settles O57: move by move; what a move writes beside the tracks, the memory, the latch and the reset input is no part of
the invariant. -/
theorem stepKeepsTheInvariant : Obligations.StepKeepsTheInvariant := by
  intro s t h hstep
  obtain ⟨u, hu, hs⟩ := step_next hstep
  have hinv : u.Inv = true := by
    rcases hu with rfl | ⟨-, -, hu⟩
    · exact h
    · rw [hu]
      exact h
  rcases hs with rfl | ⟨l, i, -, hc, he⟩ | ⟨d, k, rfl⟩ | ⟨w, -, hr, hw⟩ | ⟨v, rfl⟩ | ⟨v, rfl⟩ | ⟨a, v, -, ha, rfl⟩ |
    ⟨-, rfl⟩ | rfl
  · exact hinv
  · exact inv_exec_completing hinv hc he
  · exact hinv
  · rcases hw with ⟨-, rfl⟩ | ⟨-, e, -, rfl⟩ | ⟨hb, i, hd, he⟩
    · exact hinv
    · exact hinv
    · exact inv_exec_presented (s := { u with cmd := w }) hinv hr ((not_isBusy_iff u).mp hb) hd he
  · exact hinv
  · exact hinv
  · exact inv_writeMemory v hinv ha
  · exact inv_assertReset hinv
  · exact inv_resetRelease hinv

end Sys2Proof.Machine

/-! PROOFS. The two address spaces (20_memory.md; O40, O41, O47, O53): what a register access and the host's own memory access do,
and what a RENDER in flight means for the words of its buffer. -/

namespace Sys2Proof.Machine

/-! Register accesses (R71, R72). -/

/-- An access of the window that is no aligned word is refused (R71). -/
theorem registerAccess_misshapen {width off : Nat} {act : Nat → State → Out} {s : State} (hr : s.inReset = false)
    (hoff : off < 0x2000) (h : width ≠ 4 ∨ off % 4 ≠ 0) :
    registerAccess width (s.cfg.regBase + off) act s = .refused .registerAccessShape := by
  simp [registerAccess, hr, regOffset_base s.cfg hoff, h]

theorem step_regWrite {s : State} {off : Nat} {v : Word} {rest : List Event}
    (ha : s.agenda = .regWrite 4 (s.cfg.regBase + off) v :: rest) (hr : s.inReset = false) (hoff : off < 0x2000)
    (halign : off % 4 = 0) : step s = writeRegister exec v off { s with agenda := rest } := by
  rw [step_eq_move ha nofun]
  exact registerAccess_at (s := { s with agenda := rest }) hr hoff halign

/-- Only CMD, ARG0 and ARG1 take a write (R72). -/
theorem writeRegister_ignored {run : Instr → State → Out} {v : Word} {off : Nat} {s : State} (hcmd : off ≠ 0x000)
    (harg0 : off ≠ 0x004) (harg1 : off ≠ 0x008) : writeRegister run v off s = .next s := by
  unfold writeRegister
  split
  case h_4 => rfl
  all_goals contradiction

/-- Settles O47: the access meets R71's rules first, then reads, or writes by its offset. -/
theorem registerAccessEffects : Obligations.RegisterAccessEffects := by
  intro s off rest hr hoff
  refine ⟨fun t ha hstep => ?_, fun v ha halign => ?_, fun width v hshape ha => ?_⟩
  · rw [step_eq_move ha nofun] at hstep
    obtain ⟨-, off', -, -, -, hread⟩ := registerAccess_next hstep
    obtain ⟨d, k, heq⟩ := readRegister_eq off' { s with agenda := rest }
    rw [heq] at hread
    injection hread with hread
    subst hread
    rfl
  · rw [step_regWrite ha hr hoff halign]
    refine ⟨?_, ?_, writeRegister_ignored⟩
    · rintro rfl
      rfl
    · rintro rfl
      rfl
  · have hrefused (act : Nat → State → Out) :=
      registerAccess_misshapen (act := act) (s := { s with agenda := rest }) hr hoff hshape
    rcases ha with ha | ha
    · exact (step_eq_move ha nofun).trans (hrefused _)
    · exact (step_eq_move ha nofun).trans (hrefused _)

/-! The host's own memory accesses (R79, R81, R86). -/

/-- An aligned word of declared memory is accessed. -/
theorem memoryAccess_at {a : Nat} {act : State → Out} {s : State} (halign : a % 4 = 0) (hspace : a + 4 ≤ 4294967296)
    (hdecl : wordDeclared s.cfg a = true) : memoryAccess a act s = act s := by
  simp [memoryAccess, halign, hspace, hdecl]

theorem inFlight_eq_some_iff {s : State} {l : Latch} : inFlight s = some l ↔ Completing s .render l := by
  refine ⟨completing_of_inFlight, fun ⟨hlatch, hdecode⟩ => ?_⟩
  simp [inFlight, hlatch, hdecode]

theorem inBuffer_iff {l : Latch} {a : Nat} :
    inBuffer l a = true ↔ l.arg0.toNat ≤ a ∧ a < l.arg0.toNat + 8 * l.arg1.toNat := by
  simp [inBuffer]

/-- A write to a word of the buffer in flight is remembered (R86). -/
theorem mem_raceWord {s : State} {l : Latch} {a : Nat} (hc : Completing s .render l) (hbuf : inBuffer l a = true) :
    a ∈ raceWord s a := by
  simp only [raceWord, inFlight_eq_some_iff.mpr hc, hbuf, true_and]
  split
  · exact List.mem_cons_self
  next h => exact not_not.mp h

/-- What the RENDER in flight will write to a word is one of its rendered words, at its place in the buffer (R74). -/
theorem inFlightWord_eq_some {s : State} {a : Nat} {v : Word} (h : inFlightWord s a = some v) :
    ∃ l, Completing s .render l ∧ inBuffer l a = true ∧ (renderedWords l s)[(a - l.arg0.toNat) / 4]? = some v := by
  unfold inFlightWord at h
  split at h
  · cases h
  next l hl =>
    split_ifs at h with hbuf
    exact ⟨l, completing_of_inFlight hl, hbuf, h⟩

/-- A host read delivers the word's content, or what the RENDER in flight will write there (R81 (b)). -/
theorem readMemory_oldOrFinal (a : Nat) (s : State) :
    ∃ d k, readMemory a s = .next { s with rdata := d, fresh := k } ∧
      (d = hostWord s.mem a ∨ inFlightWord s a = some d) := by
  unfold readMemory
  split
  · exact ⟨_, s.fresh, rfl, .inl rfl⟩
  next v hv =>
    cases hbit : freeBit s.fresh with
    | false => exact ⟨_, _, rfl, .inl rfl⟩
    | true => exact ⟨_, _, rfl, .inr hv⟩

/-- Settles O53: the read is the move's only effect, and a word in flight is one of the latched RENDER's. -/
theorem inFlightReadIsOldOrFinal : Obligations.InFlightReadIsOldOrFinal := by
  intro s a rest ha halign hspace hdecl
  obtain ⟨d, k, hread, hdata⟩ := readMemory_oldOrFinal a { s with agenda := rest }
  refine ⟨{ s with agenda := rest, rdata := d, fresh := k }, ?_, rfl, hdata.imp_right fun hfinal => ?_⟩
  · rw [step_eq_move ha nofun]
    exact (memoryAccess_at (s := { s with agenda := rest }) halign hspace hdecl).trans hread
  · obtain ⟨l, hc, hbuf, hword⟩ := inFlightWord_eq_some hfinal
    obtain ⟨hlo, hhi⟩ := inBuffer_iff.mp hbuf
    exact ⟨l, hc, hlo, hhi, hword⟩

/-! The completion of a RENDER (R76, R79, R86). -/

theorem completeRender_undeclared {l : Latch} {s : State} (h : bufferDeclared s.cfg l.arg0.toNat l.arg1.toNat = false) :
    completeRender l s = .fault .bufferNotWritable := by
  simp [completeRender, h]

theorem completeRender_badDraw {l : Latch} {s : State} (hdecl : bufferDeclared s.cfg l.arg0.toNat l.arg1.toNat = true)
    (hdraws : drawsInRange s.cfg s.noiseDrawn (rendering l s).drawn = false) :
    completeRender l s = .refused .noiseDrawOutOfRange := by
  simp [completeRender, hdecl, hdraws]

/-- Settles O41: a latched RENDER is completed by `completeRender`, whose two checks are the two stops. -/
theorem renderStopsOnlyOutsideItsContract : Obligations.RenderStopsOnlyOutsideItsContract := by
  intro s l ⟨hlatch, _⟩
  rw [exec_render_completed hlatch]
  exact ⟨completeRender_undeclared, completeRender_badDraw,
    fun hdecl hdraws => ⟨_, completeRender_of hdecl hdraws, isBusy_finish _⟩⟩

/-- A word of the buffer that the host did not write in flight ends as the RENDER's (R76). -/
theorem readWord_renderedMemory {l : Latch} {s : State} {j : Nat} {v : Word} (hword : (renderedWords l s)[j]? = some v)
    (h : l.arg0.toNat + 4 * j ∉ s.raced) : readWord (renderedMemory l s).1 (l.arg0.toNat + 4 * j) = some v := by
  have hends := commitWords_word (completionFate s.raced) _ l.arg0.toNat s.mem s.fresh hword
  rwa [completionFate, if_neg h] at hends

/-- A word of the buffer that the host wrote in flight ends as the RENDER's or as the host left it (R86). -/
theorem readWord_renderedMemory_raced {l : Latch} {s : State} {j : Nat} {v : Word}
    (hword : (renderedWords l s)[j]? = some v) (h : l.arg0.toNat + 4 * j ∈ s.raced) :
    readWord (renderedMemory l s).1 (l.arg0.toNat + 4 * j) = some v ∨
      readWord (renderedMemory l s).1 (l.arg0.toNat + 4 * j) = readWord s.mem (l.arg0.toNat + 4 * j) := by
  have hends := commitWords_word (completionFate s.raced) _ l.arg0.toNat s.mem s.fresh hword
  rwa [completionFate, if_pos h] at hends

/-- Settles O40: the write is stored and remembered as raced, and the fate of a word at completion is by that record. -/
theorem racedWordEndsAsEither : Obligations.RacedWordEndsAsEither := by
  constructor
  · intro s l a v rest hc ha halign hspace hdecl hlo hhi
    refine ⟨{ s with agenda := rest, mem := writeWord s.mem a v, raced := raceWord s a }, ?_,
      readWord_writeWord_same s.mem a v, mem_raceWord hc (inBuffer_iff.mpr ⟨hlo, hhi⟩), rfl,
      fun x hx => readByte_writeWord_other s.mem v hx⟩
    rw [step_eq_move ha nofun]
    exact memoryAccess_at (s := { s with agenda := rest }) halign hspace hdecl
  · intro s l ⟨hlatch, _⟩ hdecl hdraws
    refine ⟨renderedState l s, (exec_render_completed hlatch).trans (completeRender_of hdecl hdraws), fun j v hword => ?_⟩
    exact ⟨readWord_renderedMemory hword, readWord_renderedMemory_raced hword⟩

end Sys2Proof.Machine

/-! PROOFS. The encoding (30_encoding.md; O1, O2, O3, O4): which fields of a word a command has, what becomes of a word that
has none, and the spec's worked encodings. -/

namespace Sys2Proof.Machine

/-! Words and commands (R90–R94, R100). -/

/-- The dispatch of R94 finds a command by its own opcode. -/
theorem commandOf_opcode_track (i : Instr) : commandOf i.opcode i.track = some i := by
  cases i <;> rfl

/-- The opcodes of R94 are 1 to 8, and only RENDER's, which is 1, leaves no choice of a track (R93). -/
theorem exists_instr_iff {opc t : Nat} :
    (∃ i : Instr, i.opcode = opc ∧ i.track = t) ↔ 1 ≤ opc ∧ opc ≤ 8 ∧ (opc = 1 → t = 0) := by
  constructor
  · rintro ⟨i, rfl, rfl⟩
    cases i <;> simp [Instr.opcode, Instr.track]
  · rintro ⟨hlo, hhi, hrender⟩
    interval_cases opc
    · exact ⟨.render, rfl, (hrender rfl).symm⟩
    · exact ⟨.noteOn t, rfl, rfl⟩
    · exact ⟨.noteOff t, rfl, rfl⟩
    · exact ⟨.setFrequency t, rfl, rfl⟩
    · exact ⟨.setWaveform t, rfl, rfl⟩
    · exact ⟨.setEnvelope t, rfl, rfl⟩
    · exact ⟨.enablePwm t, rfl, rfl⟩
    · exact ⟨.disablePwm t, rfl, rfl⟩

/-- A word decodes to the command whose opcode and track it carries under zero reserved bits (R90, R93). -/
theorem decode_eq_ok_iff {w : Word} {i : Instr} :
    decode w = .ok i ↔ i.opcode = opcField w ∧ i.track = trackField w ∧ rsvdField w = 0 := by
  refine ⟨decode_eq_ok, fun ⟨hopc, htrack, hrsvd⟩ => ?_⟩
  have hrender : ¬ (i = .render ∧ i.track ≠ 0) := by
    rintro ⟨rfl, hne⟩
    exact hne rfl
  unfold decode
  rw [← hopc, ← htrack, commandOf_opcode_track]
  simp only [hrsvd, ne_eq, not_true_eq_false, if_false]
  exact if_neg hrender

/-- Settles O1: the word carries the command's fields, and the decoder reads a command from its fields. -/
theorem decodeReadsEncodedCommand : Obligations.DecodeReadsEncodedCommand := by
  intro i hwf
  have htrack : i.track < 256 := by simpa [Instr.wellFormed] using hwf
  obtain ⟨-, hopcode, -⟩ := exists_instr_iff.mp ⟨i, rfl, rfl⟩
  obtain ⟨hopc, ht, hrsvd⟩ := Laws.Encoding.fields (by omega : i.opcode < 256) htrack
  exact decode_eq_ok_iff.mpr ⟨hopc.symm, ht.symm, hrsvd⟩

/-- Settles O2: the track is a byte of the word, and the three fields make up the word. -/
theorem decodedWordIsTheCommandsOwn : Obligations.DecodedWordIsTheCommandsOwn := by
  intro w i hd
  obtain ⟨-, htrack, -⟩ := decode_eq_ok hd
  have hbyte : trackField w < 256 := Nat.mod_lt _ (by decide)
  exact ⟨by simpa [Instr.wellFormed, htrack] using hbyte, encode_of_decode hd⟩

/-- The legal words (R100). -/
theorem exists_decode_iff {w : Word} : (∃ i, decode w = .ok i) ↔
    (1 ≤ opcField w ∧ opcField w ≤ 8 ∧ (opcField w = 1 → trackField w = 0)) ∧ rsvdField w = 0 := by
  rw [← exists_instr_iff, ← exists_and_right]
  simp only [decode_eq_ok_iff, and_assoc]

/-- R100's condition on a word says that it does not decode. -/
theorem illegal_iff {w : Word} :
    (w.toNat % 256 = 0 ∨ 8 < w.toNat % 256 ∨ w.toNat / 65536 ≠ 0 ∨ (w.toNat % 256 = 1 ∧ w.toNat / 256 % 256 ≠ 0)) ↔
      ¬ ∃ i, decode w = .ok i := by
  rw [exists_decode_iff]
  unfold opcField trackField rsvdField
  omega

/-- A word that does not decode is rejected while BUSY = 0 (R121, R124). -/
theorem presentWord_of_illegal {run : Instr → State → Out} {w : Word} {s : State} (hb : isBusy s = false)
    (hd : ¬ ∃ i, decode w = .ok i) : presentWord run w s = .next (reject .illegalCommand { s with cmd := w }) := by
  cases he : decode w with
  | ok i => exact absurd ⟨i, he⟩ hd
  | error e => simp [presentWord, hb, he]

/-- Settles O3: R100's words are those that do not decode, and such a word is rejected. -/
theorem illegalWordsAreRejected : Obligations.IllegalWordsAreRejected := by
  intro w
  rw [illegal_iff, not_not]
  refine ⟨fun hd s rest hp hb => ?_, id⟩
  rw [step_presenting hp]
  exact presentWord_of_illegal (s := { s with agenda := rest }) hb hd

/-! The worked encodings (R106). -/

theorem operandWord_441 : operandWord (.decimal false 441 1) = 0x43DC8000#32 := by decide
theorem operandWord_5 : operandWord (.decimal false 5 1) = 0x40A00000#32 := by decide
theorem operandWord_half : operandWord (.decimal false 1 2) = 0x3F000000#32 := by decide

/-- Settles O4: each line's float operands are rounded by the lemmas above, and the rest of its words computes. -/
theorem workedEncodings : Obligations.WorkedEncodings := by
  unfold Obligations.WorkedEncodings
  simp only [expandLine, operandWord_441, operandWord_5, operandWord_half]
  exact ⟨rfl, rfl, rfl, rfl, rfl, rfl, rfl, rfl, rfl, rfl⟩

end Sys2Proof.Machine

/-! PROOFS. RENDER's word and checks (R98, R124, R210; O38) and the host's WAIT (R105; O49). -/

namespace Sys2Proof.Machine

/-! The presentation of RENDER. -/

/-- While BUSY = 1 a word is rejected without being decoded (R122). -/
theorem presentWord_of_busy {run : Instr → State → Out} {w : Word} {s : State} (hb : isBusy s = true) :
    presentWord run w s = .next (reject .busy { s with cmd := w }) :=
  if_pos hb

theorem presentedAs_of_decode {w : Word} {i : Instr} (hd : decode w = .ok i) : PresentedAs i w := by
  intro s rest hp
  rw [step_presenting hp]
  exact ⟨presentWord_of_busy (s := { s with agenda := rest }),
    fun hb => presentWord_of_decode (s := { s with agenda := rest }) hb hd⟩

theorem exec_rejected {i : Instr} {s : State} {e : ErrCode} (hl : s.latch = none)
    (he : firstError s.cfg i s.arg0 s.arg1 = some e) : exec i s = .next (reject e s) := by
  rw [exec_presented i hl, he]

theorem exec_accepted {i : Instr} {s : State} (hl : s.latch = none)
    (he : firstError s.cfg i s.arg0 s.arg1 = none) : exec i s = .next (accept (encode i) s) := by
  rw [exec_presented i hl, he]

theorem checkRender_null {arg0 arg1 : Word} (h : arg0.toNat = 0) : checkRender arg0 arg1 = some .nullBuffer :=
  if_pos h

theorem checkRender_misaligned {arg0 arg1 : Word} (hnull : arg0.toNat ≠ 0) (h : arg0.toNat % 4 ≠ 0) :
    checkRender arg0 arg1 = some .misalignedBuffer := by
  rw [checkRender, if_neg hnull, if_pos h]

theorem checkRender_beyond {arg0 arg1 : Word} (hnull : arg0.toNat ≠ 0) (halign : arg0.toNat % 4 = 0)
    (h : 4294967296 < arg0.toNat + 8 * arg1.toNat) : checkRender arg0 arg1 = some .invalidParameterRange := by
  rw [checkRender, if_neg hnull, if_neg (not_not.mpr halign), if_pos h]

/-- Settles O38: RENDER's only checks are `checkRender`'s three, and its word is 0x00000001. -/
theorem renderIsChecked : Obligations.RenderIsChecked := by
  refine ⟨presentedAs_of_decode rfl, fun s hl => ⟨?_, ?_, ?_, ?_⟩⟩
  · exact fun hnull => exec_rejected hl (checkRender_null hnull)
  · exact fun hnull halign => exec_rejected hl (checkRender_misaligned hnull halign)
  · exact fun hnull halign hend => exec_rejected hl (checkRender_beyond hnull halign hend)
  · exact fun hnull halign hend => exec_accepted hl (checkRender_eq_none.mpr ⟨hnull, halign, hend⟩)

/-! WAIT. -/

/-- The read of an idle block's register is exact (R57, R72). -/
theorem readRegister_idle {off : Nat} {s : State} (hb : isBusy s = false) :
    readRegister off s = .next { s with rdata := registerWord s off } :=
  if_neg (by simp [hb])

/-- A WAIT that finds BUSY = 0 reads STATUS and is done (R105). -/
theorem step_wait_idle {s : State} {rest : List Event} (ha : s.agenda = .wait :: rest) (hr : s.inReset = false)
    (hb : isBusy s = false) : step s = .next { s with agenda := rest, rdata := statusWord s } := by
  have hmove : step s = move exec .wait { s with agenda := rest } := by
    unfold step stepWith
    rw [ha]
    exact if_neg (by simp [hb])
  rw [hmove]
  exact (registerAccess_at (off := 0x010) (s := { s with agenda := rest }) hr (by decide) rfl).trans
    (readRegister_idle hb)

/-- In the block's turn the step is the completion of the command in flight (R126). -/
theorem step_blockTurn {s : State} (h : BlockTurn s) : step s = completeCommand exec s := by
  unfold step stepWith
  rcases h with ha | ⟨rest, ha, hwait⟩
  · rw [ha]
  · rw [ha]
    exact if_pos ⟨rfl, hwait⟩

/-- A completion empties the latch (R125). -/
theorem exec_completed_idle {i : Instr} {l : Latch} {s t : State} (hl : s.latch = some l) (h : exec i s = .next t) :
    isBusy t = false := by
  rcases exec_next h with ⟨hn, -⟩ | ⟨hn, -⟩ | ⟨-, -, -, rfl⟩ | ⟨l', -, -, hc⟩
  · cases hl.symm.trans hn
  · cases hl.symm.trans hn
  · rfl
  · obtain ⟨-, -, rfl⟩ := completeRender_next hc
    rfl

/-- Settles O49: a poll of an idle block ends the WAIT, and a poll of a busy one is the block's turn. -/
theorem waitPollsUntilIdle : Obligations.WaitPollsUntilIdle := by
  intro s rest ha hr
  refine ⟨step_wait_idle ha hr, fun i l t hc hexec => ?_⟩
  have hturn : BlockTurn s := .inr ⟨rest, ha, (isBusy_iff s).mpr ⟨l, hc.1⟩, hr⟩
  obtain ⟨-, hagenda, -⟩ := exec_frame hexec
  refine ⟨?_, hagenda.trans ha, exec_completed_idle hc.1 hexec⟩
  rw [step_blockTurn hturn, completeCommand_of hc, hexec]

end Sys2Proof.Machine

/-! PROOFS. The command protocol (40_command_protocol.md; O6, O7, O8, O9, O10, O11, O12): the outcome of every CMD write by
the first check that fails, and a completion's independence of the registers. -/

namespace Sys2Proof.Machine

/-! The outcome of a CMD write (R121, R122, R124). -/

section Presentation

variable {s : State} {w : Word} {rest : List Event} {i : Instr}

theorem step_cmdWrite_busy (hp : Presenting s w rest) (hb : isBusy s = true) :
    step s = .next { s with agenda := rest, cmd := w, err := .busy } := by
  rw [step_presenting hp]
  exact presentWord_of_busy (s := { s with agenda := rest }) hb

theorem step_cmdWrite_illegal {e : DecodeError} (hp : Presenting s w rest) (hb : isBusy s = false)
    (hd : decode w = .error e) : step s = .next { s with agenda := rest, cmd := w, err := .illegalCommand } := by
  rw [step_presenting hp]
  exact presentWord_of_illegal (s := { s with agenda := rest }) hb (by simp [hd])

theorem step_cmdWrite_rejected {e : ErrCode} (hp : Presenting s w rest) (hb : isBusy s = false) (hd : decode w = .ok i)
    (he : firstError s.cfg i s.arg0 s.arg1 = some e) :
    step s = .next { s with agenda := rest, cmd := w, err := e } := by
  rw [(presentedAs_of_decode hd s rest hp).2 hb]
  exact exec_rejected (s := { s with agenda := rest, cmd := w }) ((not_isBusy_iff s).mp hb) he

/-- What is latched is the word as written, since it is its command's own. -/
theorem step_cmdWrite_accepted (hp : Presenting s w rest) (hb : isBusy s = false) (hd : decode w = .ok i)
    (he : firstError s.cfg i s.arg0 s.arg1 = none) :
    step s = .next { s with agenda := rest, cmd := w, err := .ok, latch := some ⟨w, s.arg0, s.arg1⟩ } := by
  rw [(presentedAs_of_decode hd s rest hp).2 hb]
  have hexec := exec_accepted (s := { s with agenda := rest, cmd := w }) ((not_isBusy_iff s).mp hb) he
  rwa [encode_of_decode hd] at hexec

end Presentation

/-! The checks of R124 (3) and (4). -/

theorem firstError_badTrack {c : Config} {i : Instr} {arg0 arg1 : Word} (hi : i ≠ .render)
    (ht : c.trackCount ≤ i.track) : firstError c i arg0 arg1 = some .invalidTrackIndex := by
  cases i with
  | render => exact absurd rfl hi
  | _ => exact if_pos ht

/-- With a track of the build, a command's own check is the first that can fail. -/
theorem own_check_of_lt {c : Config} {t : Nat} {e : ErrCode} {check : Option ErrCode} (ht : t < c.trackCount) :
    (if c.trackCount ≤ t then some e else check) = check :=
  if_neg (not_le.mpr ht)

theorem checkFrequency_invalid {c : Config} {arg0 arg1 : Word} (h : freqValid c arg0 = false) :
    checkFrequency c arg0 arg1 = some .invalidFrequency := by
  simp [checkFrequency, h]

theorem waveformOf_reserved {code : Word} (h : 3 < code.toNat) : waveformOf code = none := by
  unfold waveformOf
  split
  case h_5 => rfl
  all_goals omega

theorem checkWaveform_reserved {c : Config} {arg0 arg1 : Word} (h : 3 < arg0.toNat) :
    checkWaveform c arg0 arg1 = some .invalidParameterRange := by
  simp [checkWaveform, waveformOf_reserved h]

theorem checkEnvelope_invalid {c : Config} {arg0 arg1 : Word} (h : ¬ envelopeValid arg0 = true) :
    checkEnvelope c arg0 arg1 = some .invalidParameterRange :=
  if_neg h

/-- One byte of the operand above 126 makes it illegal (R96). -/
theorem not_envelopeValid {arg : Word} (h : 126 < arg.toNat % 256 ∨ 126 < arg.toNat / 256 % 256 ∨
    126 < arg.toNat / 65536 % 256 ∨ 126 < arg.toNat / 16777216) : ¬ envelopeValid arg = true := by
  rw [envelopeValid_iff]
  unfold envField
  omega

theorem checkPwm_badFrequency {c : Config} {arg0 arg1 : Word} (h : freqValid c arg0 = false) :
    checkPwm c arg0 arg1 = some .invalidFrequency := by
  simp [checkPwm, h]

theorem checkPwm_badDepth {c : Config} {arg0 arg1 : Word} (hf : freqValid c arg0 = true)
    (hd : ¬ (flt fZero arg1 = true ∧ fle arg1 fOne = true)) : checkPwm c arg0 arg1 = some .invalidParameterRange := by
  have hdepth : ¬ depthValid arg1 = true := by rwa [depthValid, Bool.and_eq_true]
  simp [checkPwm, hf, hdepth]

/-- A check that fails has a code of its own: no branch of any check answers code 0 (R124, R231). -/
theorem firstError_ne_ok {c : Config} {i : Instr} {arg0 arg1 : Word} {e : ErrCode}
    (h : firstError c i arg0 arg1 = some e) : e ≠ .ok := by
  rintro rfl
  cases i <;>
    (simp only [firstError, checkRender, checkFrequency, checkWaveform, checkEnvelope, checkPwm] at h
     split_ifs at h <;> cases h)

/-- Settles O8: each operand fault is the first check of its command that fails. -/
theorem checksRunInOrder : Obligations.ChecksRunInOrder := by
  intro s w rest hp rejects
  refine ⟨step_cmdWrite_busy hp, fun hb => ?_⟩
  have rejected {i : Instr} {e : ErrCode} (hd : decode w = .ok i)
      (he : firstError s.cfg i s.arg0 s.arg1 = some e) : rejects e := step_cmdWrite_rejected hp hb hd he
  refine ⟨fun e hd => step_cmdWrite_illegal hp hb hd, fun i hd hi ht => rejected hd (firstError_badTrack hi ht),
    fun hd => ⟨?_, ?_, ?_⟩, fun t ht => ⟨?_, ?_, ?_, ?_, ?_⟩⟩
  · exact fun hnull => rejected hd (checkRender_null hnull)
  · exact fun hnull halign => rejected hd (checkRender_misaligned hnull halign)
  · exact fun hnull halign hend => rejected hd (checkRender_beyond hnull halign hend)
  · exact fun hd hfreq => rejected hd ((own_check_of_lt ht).trans (checkFrequency_invalid hfreq))
  · exact fun hd hcode => rejected hd ((own_check_of_lt ht).trans (checkWaveform_reserved hcode))
  · exact fun hd henv => rejected hd ((own_check_of_lt ht).trans (checkEnvelope_invalid (not_envelopeValid henv)))
  · exact fun hd hfreq => rejected hd ((own_check_of_lt ht).trans (checkPwm_badFrequency hfreq))
  · exact fun hd hfreq hdepth => rejected hd ((own_check_of_lt ht).trans (checkPwm_badDepth hfreq hdepth))

/-- Settles O9: the three outcomes of a CMD write to an idle block. -/
theorem acceptanceCondition : Obligations.AcceptanceCondition := by
  intro s w rest hp hb
  split
  next hd => exact step_cmdWrite_illegal hp hb hd
  next hd =>
    split
    next he => exact ⟨firstError_ne_ok he, step_cmdWrite_rejected hp hb hd he⟩
    next he => exact step_cmdWrite_accepted hp hb hd he

/-! Completion (R123, R125, R126). -/

/-- A latched RENDER within its contract completes (R210). -/
theorem exec_render_of {s : State} {l : Latch} (hl : s.latch = some l)
    (hdecl : bufferDeclared s.cfg l.arg0.toNat l.arg1.toNat = true)
    (hdraws : drawsInRange s.cfg s.noiseDrawn (rendering l s).drawn = true) :
    exec .render s = .next (renderedState l s) :=
  (exec_render_completed hl).trans (completeRender_of hdecl hdraws)

/-- A completion neither reads nor writes the registers, ERR and the agenda: with others in their place it has the same
effect. -/
theorem exec_completed_of_registers {i : Instr} {s t : State} {l : Latch} (hl : s.latch = some l) (h : exec i s = .next t)
    (rest : List Event) (w a0 a1 : Word) (e : ErrCode) :
    exec i { s with agenda := rest, cmd := w, arg0 := a0, arg1 := a1, err := e } =
      .next { t with agenda := rest, cmd := w, arg0 := a0, arg1 := a1, err := e } := by
  rcases exec_next h with ⟨hn, -⟩ | ⟨hn, -⟩ | ⟨l', hl', hi, rfl⟩ | ⟨l', hl', rfl, hc⟩
  · cases hl.symm.trans hn
  · cases hl.symm.trans hn
  · exact exec_completed (l := l') hi hl'
  · obtain ⟨hdecl, hdraws, rfl⟩ := completeRender_next hc
    exact exec_render_of (l := l') hl' hdecl hdraws

/-- Settles O7: a completion does not depend on what the rejected write changes. -/
theorem busyCommandWriteIsRejected : Obligations.BusyCommandWriteIsRejected := by
  intro s w rest hp hb
  refine ⟨step_cmdWrite_busy hp hb, fun i u h => ?_⟩
  obtain ⟨l, hl⟩ := (isBusy_iff s).mp hb
  obtain ⟨-, -, -, -, harg0, harg1, -⟩ := exec_frame h
  rw [harg0, harg1]
  exact exec_completed_of_registers hl h rest w s.arg0 s.arg1 .busy

/-- Settles O10: an accepted command latches its operands, and a completion does not depend on ARG0 and ARG1. -/
theorem completionUsesLatchedOperands : Obligations.CompletionUsesLatchedOperands := by
  refine ⟨fun i s hl he => ⟨_, exec_accepted hl he, rfl⟩, fun i s t l a0 a1 hl h => ?_⟩
  obtain ⟨-, hagenda, -, hcmd, -⟩ := exec_frame h
  rw [hagenda, hcmd, exec_completed_err hl h]
  exact exec_completed_of_registers hl h s.agenda s.cmd a0 a1 s.err

theorem exec_tracks_length {i : Instr} {s t : State} (h : exec i s = .next t) : t.tracks.length = s.tracks.length := by
  rcases exec_tracks h with ⟨-, ht⟩ | ⟨l, -, ht⟩
  · rw [ht]
  · rw [ht]
    split
    · exact (renderTracks_length ..).2
    · exact List.length_modify ..

/-- Settles O11: a completion empties the latch, and a command's frame holds the rest. -/
theorem completionClearsBusyAndKeepsErr : Obligations.CompletionClearsBusyAndKeepsErr := by
  intro i s t l hl h
  obtain ⟨hcfg, hagenda, hreset, hcmd, harg0, harg1, hrdata⟩ := exec_frame h
  exact ⟨exec_completed_idle hl h, exec_completed_err hl h, hcmd, harg0, harg1, hcfg, hreset, hrdata, hagenda,
    exec_tracks_length h⟩

/-- A legal build's noise stream holds legal draws only (R186). -/
theorem drawsInRange_of_wellFormed {c : Config} (h : c.wellFormed = true) (lo hi : Nat) : drawsInRange c lo hi = true := by
  obtain ⟨-, -, -, -, -, -, -, -, hnoise⟩ := wellFormed_bounds h
  rw [List.all_eq_true] at hnoise
  exact List.all_eq_true.mpr fun v hv => hnoise v (List.mem_of_mem_take (List.mem_of_mem_drop hv))

/-- A command in flight has a next state in a legal build, a RENDER in declared memory only (R125, U2). -/
theorem exec_completing_proceeds {s : State} {i : Instr} {l : Latch} (hc : s.cfg.wellFormed = true) (hl : s.latch = some l)
    (hmem : i = .render → bufferDeclared s.cfg l.arg0.toNat l.arg1.toNat = true) : Proceeds (exec i s) := by
  by_cases hi : i = .render
  · subst hi
    exact ⟨_, exec_render_of hl (hmem rfl) (drawsInRange_of_wellFormed hc _ _)⟩
  · exact ⟨_, exec_completed hi hl⟩

/-- Settles O12: the invariant's build is legal, and whatever state a completion answers is idle with ERR kept. -/
theorem acceptedCommandAlwaysCompletes : Obligations.AcceptedCommandAlwaysCompletes := by
  intro s i l hinv ⟨hl, _⟩ hmem
  obtain ⟨hc, -⟩ := (inv_iff s).mp hinv
  obtain ⟨t, ht⟩ := exec_completing_proceeds hc hl hmem
  exact ⟨t, ht, exec_completed_idle hl ht, exec_completed_err hl ht⟩

/-- Settles O6: both kinds of turn complete the command that the latched word decodes to. -/
theorem stepCompletesTheLatchedCommand : Obligations.StepCompletesTheLatchedCommand := by
  intro s i l hc
  refine ⟨fun hturn => (step_blockTurn hturn).trans (completeCommand_of hc), fun rest ha => ?_⟩
  rw [step_eq_move ha nofun]
  exact completeCommand_of (s := { s with agenda := rest }) hc

end Sys2Proof.Machine

/-! PROOFS. The sine table and its lookup (41_sine_table.md; O31, O32, O34, O58): the circle of 65536 steps is one quarter and
its symmetries, a quarter's entry is the fixed-point sine rounded once (log 11), and no step changes the build. -/

namespace Sys2Proof.Machine

/-! The fixed-point sine of a quarter circle. -/

theorem sineFixed_le {m : Nat} (hm : m ≤ 16384) : sineFixed m ≤ 2 ^ 128 + 2 ^ 66 := by
  have herr := abs_le.mp (sineFixed_err hm)
  have hsin := Real.sin_le_one (Real.pi * m / 32768)
  generalize sineFixed m = n at *
  have hle : (n : ℝ) / 2 ^ 128 ≤ 1 + 1 / 2 ^ 62 := by linarith [herr.2]
  rw [div_le_iff₀ (by positivity)] at hle
  norm_num at hle ⊢
  exact_mod_cast hle

/-- The sine lies above its chord, so the first step's is the smallest that is not zero. -/
theorem le_sineFixed {m : Nat} (h0 : 0 < m) (hm : m ≤ 16384) : 2 ^ 113 ≤ sineFixed m := by
  have herr := abs_le.mp (sineFixed_err hm)
  have hm0 : (1 : ℝ) ≤ m := by exact_mod_cast h0
  have hm1 : (m : ℝ) ≤ 16384 := by exact_mod_cast hm
  have hangle : Real.pi * m / 32768 ≤ Real.pi / 2 := by nlinarith [Real.pi_pos]
  have hchord := Real.mul_le_sin (by positivity) hangle
  have hslope : 2 / Real.pi * (Real.pi * m / 32768) = m / 16384 := by
    field_simp
    norm_num
  generalize sineFixed m = n at *
  have hle : (1 : ℝ) / 2 ^ 15 ≤ n / 2 ^ 128 := by
    norm_num at herr ⊢
    linarith [herr.1]
  rw [le_div_iff₀ (by positivity)] at hle
  norm_num at hle ⊢
  exact_mod_cast hle

theorem quarterMag_zero : quarterMag 0 = 0 := by decide +kernel

theorem quarterMag_quarter : quarterMag 16384 = 0x3F800000 := by decide +kernel

/-- A sine that its error puts above 1 still rounds to ONE. -/
theorem quarterMag_le {m : Nat} (hm : m ≤ 16384) : quarterMag m ≤ 0x3F800000 :=
  calc quarterMag m ≤ roundMag ((2 ^ 128 + 2 ^ 66) * unitScale) (2 ^ fixBits) :=
        roundMag_mono (by decide) (Nat.mul_le_mul_right _ (sineFixed_le hm))
    _ = 0x3F800000 := by decide +kernel

theorem quarterMag_pos {m : Nat} (h0 : 0 < m) (hm : m ≤ 16384) : 0 < quarterMag m := by
  refine le_roundMag (m := 1) (by decide) (by decide) ?_
  have hle := Nat.mul_le_mul_right unitScale (le_sineFixed h0 hm)
  exact (show magUnits 1 * 2 ^ fixBits ≤ 2 ^ 113 * unitScale by decide).trans hle

theorem quarterMag_lt {m : Nat} : quarterMag m < 0x80000000 := roundMag_lt _ _

/-! The circle: the upper half mirrors its first quarter, the lower half negates the upper one (R140). -/

theorem sineStep_upper {j : Nat} (h : j ≤ 32768) : sineStep j = fpack false (quarterMag (min j (32768 - j))) := by
  unfold sineStep
  rcases le_or_gt j 16384 with hq | hq
  · rw [if_pos hq, min_eq_left (by omega)]
  · rw [if_neg (by omega), if_pos h, min_eq_right (by omega)]

theorem sineStep_lower {j : Nat} (h0 : 0 < j) (h : j < 32768) :
    sineStep (65536 - j) = fpack true (quarterMag (min j (32768 - j))) := by
  unfold sineStep
  rw [if_neg (by omega), if_neg (by omega)]
  rcases lt_or_ge j 16384 with hq | hq
  · rw [if_neg (by omega), min_eq_left (by omega), show 65536 - (65536 - j) = j by omega]
  · rw [if_pos (by omega), min_eq_right (by omega), show 65536 - j - 32768 = 32768 - j by omega]

theorem sineStep_zero : sineStep 0 = 0x00000000#32 := by
  rw [sineStep_upper (by omega), Nat.zero_min, quarterMag_zero]
  rfl

theorem sineStep_quarter : sineStep 16384 = 0x3F800000#32 := by
  rw [sineStep_upper (by omega), min_eq_left (by omega), quarterMag_quarter]
  rfl

theorem sineStep_mirror {j : Nat} (h : j ≤ 32768) : sineStep (32768 - j) = sineStep j := by
  rw [sineStep_upper h, sineStep_upper (by omega), Nat.sub_sub_self h, min_comm]

theorem sineStep_half : sineStep 32768 = 0x00000000#32 :=
  (sineStep_mirror (Nat.zero_le _)).trans sineStep_zero

theorem fnegate_fpack (s : Bool) {m : Nat} (h : m < 0x80000000) : fnegate (fpack s m) = fpack (!s) m := by
  rw [fnegate, fsign_fpack s h, fmag_fpack s h]

theorem sineStep_odd {j : Nat} (h0 : 0 < j) (h : j < 32768) : sineStep (65536 - j) = fnegate (sineStep j) := by
  rw [sineStep_lower h0 h, sineStep_upper h.le, fnegate_fpack false quarterMag_lt]
  rfl

/-- What holds on the upper half, and with an angle of its open part at the opposite one, holds on the whole circle. -/
theorem forall_step_of_upper (P : Nat → Prop) (upper : ∀ j ≤ 32768, P j)
    (odd : ∀ j, 0 < j → j < 32768 → P j → P (65536 - j)) {j : Nat} (hj : j < 65536) : P j := by
  rcases le_or_gt j 32768 with h | h
  · exact upper j h
  · have := odd (65536 - j) (by omega) (by omega) (upper _ (by omega))
    rwa [Nat.sub_sub_self hj.le] at this

theorem fmag_sineStep_le {j : Nat} (hj : j < 65536) : fmag (sineStep j) ≤ 0x3F800000 := by
  refine forall_step_of_upper (fun j => fmag (sineStep j) ≤ 0x3F800000) (fun j h => ?_) (fun j h0 h hP => ?_) hj
  · rw [sineStep_upper h, fmag_fpack false quarterMag_lt]
    exact quarterMag_le (by omega)
  · rwa [sineStep_odd h0 h, fmag_fnegate]

/-- The lower half's open part has no sine that is zero. -/
theorem sineStep_ne_negZero {j : Nat} (hj : j < 65536) : sineStep j ≠ 0x80000000#32 := by
  refine forall_step_of_upper (fun j => sineStep j ≠ 0x80000000#32) (fun j h => ?_) (fun j h0 h _ => ?_) hj
  · intro heq
    have hsign : fsign (sineStep j) = false := by rw [sineStep_upper h, fsign_fpack false quarterMag_lt]
    rw [heq] at hsign
    exact absurd hsign (by decide)
  · intro heq
    have hmag : 0 < fmag (sineStep (65536 - j)) := by
      rw [sineStep_lower h0 h, fmag_fpack true quarterMag_lt]
      exact quarterMag_pos (by omega) (by omega)
    rw [heq] at hmag
    exact absurd hmag (by decide)

/-! The table: every N-th part of the circle is a whole number of steps. -/

theorem tableSize_pos (c : Config) : 0 < tableSize c := Nat.two_pow_pos _

theorem sineEntry_eq_sineStep (c : Config) (i : Nat) : sineEntry c i = sineStep (i * 2 ^ (16 - c.sineTableBits)) := rfl

theorem tableSize_mul_stride {c : Config} (h : c.sineTableBits ≤ 16) : tableSize c * 2 ^ (16 - c.sineTableBits) = 65536 := by
  rw [tableSize, ← pow_add, Nat.add_sub_cancel' h]
  rfl

theorem tableSize_quarter {c : Config} (h2 : 2 ≤ c.sineTableBits) (h16 : c.sineTableBits ≤ 16) :
    ∃ q, tableSize c = 4 * q ∧ q * 2 ^ (16 - c.sineTableBits) = 16384 := by
  obtain ⟨q, hq⟩ : 4 ∣ tableSize c := pow_dvd_pow 2 h2
  have hN := tableSize_mul_stride h16
  rw [hq, mul_assoc] at hN
  exact ⟨q, hq, by omega⟩

theorem stride_lt {c : Config} {i : Nat} (h16 : c.sineTableBits ≤ 16) (hi : i < tableSize c) :
    i * 2 ^ (16 - c.sineTableBits) < 65536 := by
  rw [← tableSize_mul_stride h16]
  exact Nat.mul_lt_mul_of_pos_right hi (by positivity)

/-- Settles O31: each fact is one of the circle, at the step of the entry. -/
theorem sineTableFacts : Obligations.SineTableFacts := by
  intro c h2 h16
  obtain ⟨q, hN, hq⟩ := tableSize_quarter h2 h16
  have hhalf : tableSize c / 2 = 2 * q := by omega
  have hquarter : tableSize c / 4 = q := by omega
  have hthree : 3 * tableSize c / 4 = 3 * q := by omega
  have hbound := fun i => stride_lt (i := i) h16
  simp only [sineEntry_eq_sineStep, hhalf, hquarter, hthree, Nat.sub_mul, mul_assoc, tableSize_mul_stride h16, hq]
  generalize 2 ^ (16 - c.sineTableBits) = k at *
  have hk : 0 < k := Nat.pos_of_ne_zero (by rintro rfl; omega)
  refine ⟨?_, sineStep_half, sineStep_quarter, ?_, fun i h1 hi => ?_, fun i hi => ?_, fun i hi => ?_⟩
  · rw [zero_mul, sineStep_zero]
  · rw [show 3 * 16384 = 65536 - 16384 by rfl, sineStep_odd (by omega) (by omega), sineStep_quarter]
    decide
  · have hlt : i * k < 2 * 16384 := (Nat.mul_lt_mul_of_pos_right hi hk).trans_eq (by rw [mul_assoc, hq])
    exact sineStep_odd (Nat.mul_pos h1 hk) hlt
  · have hle : i * k ≤ 16384 := (Nat.mul_le_mul_right k hi).trans_eq hq
    exact sineStep_mirror (by omega)
  · exact ⟨fmag_sineStep_le (hbound i hi), sineStep_ne_negZero (hbound i hi)⟩

/-! Every entry is a nearest value of the real sine (R140), within the tolerance of log 11. -/

/-- No finite binary32 value lies closer to x than r does, up to 2^-60. -/
def NearlyNearest (r : F32) (x : ℝ) : Prop :=
  ∀ v : F32, isFinite v = true → |(fvalue r : ℝ) / 2 ^ 149 - x| ≤ |(fvalue v : ℝ) / 2 ^ 149 - x| + 1 / 2 ^ 60

/-- The finite values lie symmetrically about zero. -/
theorem NearlyNearest.neg {r : F32} {x : ℝ} (h : NearlyNearest r x) : NearlyNearest (fnegate r) (-x) := by
  intro v hv
  have hneg : ∀ w : F32, |(fvalue (fnegate w) : ℝ) / 2 ^ 149 - -x| = |(fvalue w : ℝ) / 2 ^ 149 - x| := fun w => by
    rw [fvalue_fnegate, Int.cast_neg, neg_div, neg_sub_neg, abs_sub_comm]
  rw [hneg, ← fnegate_involutive v, hneg]
  exact h _ ((isFinite_fnegate v).trans hv)

/-- One rounding of a fixed-point sine that is off by half the tolerance. -/
theorem nearlyNearest_quarter {m : Nat} (hm : m ≤ 16384) :
    NearlyNearest (fpack false (quarterMag m)) (Real.sin (Real.pi * m / 32768)) := by
  intro v hv
  have hnear : NearestEven (fpack false (quarterMag m)) (sineFixed m * 2 ^ 149) (2 ^ fixBits : ℕ) := by
    refine ((roundedOnce_roundRatio (sineFixed m) (by decide)).1 ?_).2
    have hle := sineFixed_le hm
    generalize sineFixed m = n at *
    rw [abs_of_nonneg (by positivity), abs_of_nonneg (by positivity)]
    unfold fixBits overflowUnits
    omega
  have herr := sineFixed_err hm
  rw [abs_sub_comm, ← Nat.cast_two, ← Nat.cast_pow] at herr
  have h := abs_sub_le_of_near (hnear.abs_sub_le (by decide) hv) herr
  generalize fpack false (quarterMag m) = r at *
  norm_num at h ⊢
  linarith

theorem nearlyNearest_sineStep {j : Nat} (hj : j < 65536) :
    NearlyNearest (sineStep j) (Real.sin (Real.pi * j / 32768)) := by
  refine forall_step_of_upper (fun j => NearlyNearest (sineStep j) (Real.sin (Real.pi * j / 32768)))
    (fun j h => ?_) (fun j h0 h hP => ?_) hj
  · have hquarter := nearlyNearest_quarter (m := min j (32768 - j)) (by omega)
    rw [sineStep_upper h]
    rcases min_choice j (32768 - j) with hmin | hmin
    · rwa [hmin] at hquarter ⊢
    · have hangle : Real.pi * ((32768 - j : ℕ) : ℝ) / 32768 = Real.pi - Real.pi * j / 32768 := by
        rw [Nat.cast_sub h]
        push_cast
        ring
      rw [hmin] at hquarter ⊢
      rwa [hangle, Real.sin_pi_sub] at hquarter
  · have hangle : Real.pi * ((65536 - j : ℕ) : ℝ) / 32768 = 2 * Real.pi - Real.pi * j / 32768 := by
      rw [Nat.cast_sub (by omega)]
      push_cast
      ring
    rw [sineStep_odd h0 h, hangle, Real.sin_two_pi_sub]
    exact hP.neg

/-- Settles O32: an entry is the step of its angle. -/
theorem sineTableIsNearest : Obligations.SineTableIsNearest := by
  intro c i v _ h16 hi hv
  have hN : (tableSize c : ℝ) * (2 ^ (16 - c.sineTableBits) : ℕ) = 65536 := by exact_mod_cast tableSize_mul_stride h16
  have hangle : 2 * Real.pi * i / tableSize c = Real.pi * ((i * 2 ^ (16 - c.sineTableBits) : ℕ) : ℝ) / 32768 := by
    have hpos : (tableSize c : ℝ) ≠ 0 := Nat.cast_ne_zero.mpr (tableSize_pos c).ne'
    rw [div_eq_div_iff hpos (by norm_num), Nat.cast_mul]
    linear_combination -Real.pi * i * hN
  rw [hangle]
  exact nearlyNearest_sineStep (stride_lt h16 hi) v hv

/-! The lookup (R142–R144). -/

theorem tableIndex_lt (c : Config) (n : ℤ) : tableIndex c n < tableSize c := by
  have hN := tableSize_pos c
  have h0 := Int.emod_nonneg n (show (tableSize c : ℤ) ≠ 0 by omega)
  have h1 := Int.emod_lt_of_pos n (show 0 < (tableSize c : ℤ) by omega)
  unfold tableIndex
  omega

theorem sineEntry_mem_sineTable {c : Config} {i : Nat} (h : i < tableSize c) : sineEntry c i ∈ sineTable c :=
  List.mem_map_of_mem (List.mem_range.mpr h)

/-- The next index, that of N − 1 being 0 (R143). -/
theorem succ_mod_tableSize {c : Config} {i : Nat} (h : i < tableSize c) :
    (i + 1) % tableSize c = if i + 1 = tableSize c then 0 else i + 1 := by
  split
  next heq => rw [heq, Nat.mod_self]
  next hne => exact Nat.mod_eq_of_lt (by omega)

/-- The index of the entry that a lookup starts from (R142). -/
def lookupIndex (c : Config) (p : F32) : Nat := tableIndex c (fint (ffloor (fmul p (tableScale c))))

theorem lookup_plain {c : Config} (h : c.sineInterp = false) (p : F32) : lookup c p = sineEntry c (lookupIndex c p) :=
  if_neg (h ▸ Bool.false_ne_true)

theorem lookup_blend {c : Config} (h : c.sineInterp = true) (p : F32) : lookup c p =
    fadd (sineEntry c (lookupIndex c p))
      (fmul (fsub (fmul p (tableScale c)) (ffloor (fmul p (tableScale c))))
        (fsub (sineEntry c ((lookupIndex c p + 1) % tableSize c)) (sineEntry c (lookupIndex c p)))) :=
  if_pos h

/-- Settles O34: the index lies in the table, and so does the next, which wraps. -/
theorem lookupReadsTheTable : Obligations.LookupReadsTheTable := by
  intro c p
  have hlt : lookupIndex c p < tableSize c := tableIndex_lt c _
  refine ⟨hlt, fun hi => ?_, fun hi => ?_⟩
  · rw [lookup_plain hi]
    exact ⟨rfl, sineEntry_mem_sineTable hlt⟩
  · exact succ_mod_tableSize hlt ▸ lookup_blend hi p

/-! The build (R141, R260, R263). -/

theorem assertReset_cfg (s : State) : (assertReset s).cfg = s.cfg := by
  rw [assertReset_shape]
  rfl

theorem step_cfg {s t : State} (h : step s = .next t) : t.cfg = s.cfg := by
  obtain ⟨u, hu, hs⟩ := step_next h
  have hcfg : u.cfg = s.cfg := by
    rcases hu with rfl | ⟨-, -, hu⟩
    · rfl
    · rw [hu]
  rw [← hcfg]
  rcases hs with rfl | ⟨-, i, -, -, he⟩ | ⟨d, k, rfl⟩ | ⟨w, -, -, hw⟩ | ⟨v, rfl⟩ | ⟨v, rfl⟩ | ⟨a, v, -, -, rfl⟩ |
    ⟨-, rfl⟩ | rfl
  · rfl
  · exact (exec_frame he).1
  · rfl
  · rcases hw with ⟨-, rfl⟩ | ⟨-, e, -, rfl⟩ | ⟨-, i, -, he⟩
    · rfl
    · rfl
    · exact (exec_frame he).1
  · rfl
  · rfl
  · rfl
  · exact assertReset_cfg u
  · rfl

/-- Settles O58: the table and the configuration registers are functions of the build, which every move keeps. -/
theorem buildNeverChanges : Obligations.BuildNeverChanges := by
  intro s t h
  rw [step_cfg h]
  exact ⟨rfl, rfl, rfl⟩

end Sys2Proof.Machine

/-! PROOFS. The track commands of the envelope (R162–R164; O14, O15, O16): a command is presented by its own word, and its
completion sets its track to the changed one. -/

namespace Sys2Proof.Machine

/-! What every track command shares. -/

/-- A command that fits its word is presented by it (R90, R121). -/
theorem presentedAs_encode {i : Instr} (h : i.track < 256) : PresentedAs i (encode i) :=
  presentedAs_of_decode (decodeReadsEncodedCommand i (decide_eq_true h))

/-- A track command completes by setting its track to the changed one (R125, R243). -/
theorem exec_completing_track {s : State} {i : Instr} {l : Latch} {tr : Track} (hi : i ≠ .render) (hc : Completing s i l)
    (htr : s.tracks[i.track]? = some tr) :
    exec i s = .next { s with latch := none, raced := [], tracks := s.tracks.set i.track (changeOf s.cfg l i tr) } := by
  have hset : s.tracks.modify i.track (changeOf s.cfg l i) = s.tracks.set i.track (changeOf s.cfg l i tr) := by
    rw [List.modify_eq_set_getElem?, htr]
    rfl
  rw [exec_completed hi hc.1, ← hset]
  rfl

/-! NOTE_ON and NOTE_OFF. -/

/-- Settles O14: its only check is of the track, and its change is R164's. -/
theorem noteOnMeaning : Obligations.NoteOnMeaning := by
  intro t s
  refine ⟨presentedAs_encode (i := .noteOn t), fun hl ht => ?_, fun hl ht => ?_, fun l tr hc htr => ?_⟩
  · exact exec_rejected hl (firstError_badTrack nofun ht)
  · exact exec_accepted hl (own_check_of_lt ht)
  · exact exec_completing_track nofun hc htr

/-- A track whose advance has ended is disabled and mixes nothing (R160, R213). -/
theorem renderTrack_of_ended {c : Config} {tr tr1 : Track} {n : Nat} (hen : tr.enabled = true)
    (h : advance c tr n = (tr1, true)) (acc : List Frame) (d : Nat) :
    renderTrack c n acc tr d = (acc, { tr1 with enabled := false }, d) := by
  unfold renderTrack
  rw [if_pos hen, h]

theorem advance_release {c : Config} {tr : Track} {n : Nat} (h : tr.envState = .release) :
    advance c tr n = advanceRelease c tr n := by
  rw [advance, h]

theorem advanceRelease_instant {c : Config} {tr : Track} {n : Nat} (h : tr.release.toNat = 0) :
    advanceRelease c tr n = ({ tr with currentFactor := fZero }, true) :=
  if_pos h

/-- Settles O15: its change is R163's, and an advance in Release with the parameter 0 has ended. -/
theorem noteOffMeaning : Obligations.NoteOffMeaning := by
  intro t s
  refine ⟨presentedAs_encode (i := .noteOff t), fun hl ht => ?_, fun hl ht => ?_, fun l tr hc htr => ?_,
    fun tr n d acc hrelease hen henv => ?_⟩
  · exact exec_rejected hl (firstError_badTrack nofun ht)
  · exact exec_accepted hl (own_check_of_lt ht)
  · exact exec_completing_track nofun hc htr
  · exact renderTrack_of_ended hen ((advance_release henv).trans (advanceRelease_instant hrelease)) acc d

/-! SET_ENVELOPE. -/

/-- The packed fields as the bytes of the operand (R96). -/
theorem envField_bytes (arg : Word) : envField arg 0 = arg.toNat % 256 ∧ envField arg 1 = arg.toNat / 256 % 256 ∧
    envField arg 2 = arg.toNat / 65536 % 256 ∧ envField arg 3 = arg.toNat / 16777216 := by
  unfold envField
  omega

theorem setEnvelopeChange_bytes (c : Config) (l : Latch) (tr : Track) : setEnvelopeChange c l tr =
    { tr with
      attack := BitVec.ofNat 7 (l.arg0.toNat % 256)
      decay := BitVec.ofNat 7 (l.arg0.toNat / 256 % 256)
      sustain := BitVec.ofNat 7 (l.arg0.toNat / 65536 % 256)
      release := BitVec.ofNat 7 (l.arg0.toNat / 16777216) } := by
  obtain ⟨ha, hd, hs, hr⟩ := envField_bytes l.arg0
  rw [setEnvelopeChange, ha, hd, hs, hr]

/-- Settles O16: the checks and the change are of the operand's four bytes. -/
theorem setEnvelopeMeaning : Obligations.SetEnvelopeMeaning := by
  intro t s
  refine ⟨presentedAs_encode (i := .setEnvelope t), fun hl ht => ?_, fun hl ht hbad => ?_,
    fun hl ht ha hd hs hr => ?_, fun l tr hc htr => ?_⟩
  · exact exec_rejected hl (firstError_badTrack nofun ht)
  · exact exec_rejected hl ((own_check_of_lt ht).trans (checkEnvelope_invalid (not_envelopeValid hbad)))
  · have hvalid : envelopeValid s.arg0 = true := by
      obtain ⟨h0, h1, h2, h3⟩ := envField_bytes s.arg0
      rw [envelopeValid_iff, h0, h1, h2, h3]
      exact ⟨ha, hd, hs, hr⟩
    exact exec_accepted hl ((own_check_of_lt ht).trans (checkEnvelope_eq_none.mpr hvalid))
  · have hexec := exec_completing_track (i := .setEnvelope t) nofun hc htr
    rwa [changeOf, setEnvelopeChange_bytes] at hexec

end Sys2Proof.Machine

/-! PROOFS. The envelope engine (R150–R160, R165; O17, O18, O19, O20, O21, O22): one equation per branch of an advance, and
what a fall below a level comes to. -/

namespace Sys2Proof.Machine

/-! One advance, by the stage it starts in and its outcome (R154–R159). -/

section Branches

variable {c : Config} {tr : Track} {n : Nat}

theorem advance_attack (h : tr.envState = .attack) : advance c tr n = (advanceAttack c tr n, false) := by
  rw [advance, h]

theorem advance_decay (h : tr.envState = .decay) : advance c tr n = (advanceDecay c tr n, false) := by
  rw [advance, h]

theorem advance_sustain (h : tr.envState = .sustain) :
    advance c tr n = ({ tr with currentFactor := sustainLevel tr.sustain }, false) := by
  have hadv : advance c tr n = (advanceSustain tr, false) := by rw [advance, h]
  exact hadv

theorem advanceAttack_instant (h : tr.attack.toNat = 0) :
    advanceAttack c tr n = { tr with currentFactor := fOne, envState := .decay } :=
  if_pos h

theorem advanceAttack_clamped (h0 : tr.attack.toNat ≠ 0) (h : fle fOne (attackRaise c tr n) = true) :
    advanceAttack c tr n = { tr with currentFactor := fOne, envState := .decay } := by
  rw [advanceAttack, if_neg h0, if_pos h]

theorem advanceAttack_rising (h0 : tr.attack.toNat ≠ 0) (h : fle fOne (attackRaise c tr n) = false) :
    advanceAttack c tr n = { tr with currentFactor := attackRaise c tr n } := by
  rw [advanceAttack, if_neg h0, if_neg (Bool.eq_false_iff.mp h)]

theorem advanceDecay_instant (h : tr.decay.toNat = 0) :
    advanceDecay c tr n = { tr with currentFactor := sustainLevel tr.sustain, envState := .sustain } :=
  if_pos h

theorem advanceDecay_clamped (h0 : tr.decay.toNat ≠ 0) (h : fle (decayFall c tr n) (sustainLevel tr.sustain) = true) :
    advanceDecay c tr n = { tr with currentFactor := sustainLevel tr.sustain, envState := .sustain } := by
  simp only [advanceDecay, if_neg h0, if_pos h]

theorem advanceDecay_falling (h0 : tr.decay.toNat ≠ 0) (h : fle (decayFall c tr n) (sustainLevel tr.sustain) = false) :
    advanceDecay c tr n = { tr with currentFactor := decayFall c tr n } := by
  simp only [advanceDecay, if_neg h0, if_neg (Bool.eq_false_iff.mp h)]

theorem advanceRelease_clamped (h0 : tr.release.toNat ≠ 0) (h : fle (releaseFall c tr n) fZero = true) :
    advanceRelease c tr n = ({ tr with currentFactor := fZero }, true) := by
  rw [advanceRelease, if_neg h0, if_pos h]

theorem advanceRelease_falling (h0 : tr.release.toNat ≠ 0) (h : fle (releaseFall c tr n) fZero = false) :
    advanceRelease c tr n = ({ tr with currentFactor := releaseFall c tr n }, false) := by
  rw [advanceRelease, if_neg h0, if_neg (Bool.eq_false_iff.mp h)]

/-- An attack advance stays in Attack or goes to Decay. -/
theorem advanceAttack_envState (h : tr.envState = .attack) :
    (advanceAttack c tr n).envState = .attack ∨ (advanceAttack c tr n).envState = .decay := by
  unfold advanceAttack
  split_ifs
  · exact .inr rfl
  · exact .inr rfl
  · exact .inl h

/-- A decay advance stays in Decay or goes to Sustain. -/
theorem advanceDecay_envState (h : tr.envState = .decay) :
    (advanceDecay c tr n).envState = .decay ∨ (advanceDecay c tr n).envState = .sustain := by
  simp only [advanceDecay]
  split_ifs
  · exact .inr rfl
  · exact .inr rfl
  · exact .inl h

theorem advanceRelease_envState : (advanceRelease c tr n).1.envState = tr.envState := by
  unfold advanceRelease
  split_ifs <;> rfl

/-- A release advance that has ended has the factor ZERO. -/
theorem advanceRelease_ended (h : (advanceRelease c tr n).2 = true) :
    advanceRelease c tr n = ({ tr with currentFactor := fZero }, true) := by
  unfold advanceRelease at h ⊢
  split_ifs at h ⊢
  · rfl
  · rfl

/-- Only a release advance has ended (R160). -/
theorem advance_ended (h : (advance c tr n).2 = true) :
    tr.envState = .release ∧ advance c tr n = ({ tr with currentFactor := fZero }, true) := by
  have henv : tr.envState = .release := by
    cases henv : tr.envState with
    | attack => rw [advance_attack henv] at h; cases h
    | decay => rw [advance_decay henv] at h; cases h
    | sustain => rw [advance_sustain henv] at h; cases h
    | release => rfl
  rw [advance_release henv] at h ⊢
  exact ⟨henv, advanceRelease_ended h⟩

end Branches

/-! The corners: no samples, and a level that the factor is at or below (R155, R156, R158). -/

/-- What is at or below a level still is when something is taken from it. -/
theorem fle_fsub_of_le {a b level : F32} (ha : a.toNat < 0x7F800000) (hb : b.toNat ≤ 0x7F800000)
    (hl : level.toNat ≤ 0x7F800000) (h : a.toNat ≤ level.toNat) : fle (fsub a b) level = true := by
  by_contra hnot
  have hle := fsub_le_of_not_fle ha hb hl (Bool.eq_false_iff.mpr hnot)
  rw [fle_of_le (by omega) hl, decide_eq_true_eq] at hnot
  omega

section Corners

variable {c : Config} {tr : Track} {n : Nat} (hc : c.wellFormed = true) (hf : tr.currentFactor.toNat ≤ 0x3F800000)

include hc

/-- From the factor ZERO the first release advance has ended. -/
theorem advanceRelease_from_zero (hn : n < 536870912) (h : tr.currentFactor = fZero) :
    advanceRelease c tr n = (tr, true) := by
  have hsame : { tr with currentFactor := fZero } = tr := by rw [← h]
  by_cases h0 : tr.release.toNat = 0
  · rw [advanceRelease_instant h0, hsame]
  · have hfall : fle (releaseFall c tr n) fZero = true := by
      rw [releaseFall, h]
      exact fle_fsub_of_le (by decide) (stageStep_bounds hc hn h0).1.le (by decide) le_rfl
    rw [advanceRelease_clamped h0 hfall, hsame]

include hf

theorem attackRaise_no_samples (h0 : tr.attack.toNat ≠ 0) : attackRaise c tr 0 = tr.currentFactor :=
  fadd_zero (by omega) ((stageStep_bounds hc (by decide) h0).2 rfl)

/-- Without samples a factor of ONE is clamped to itself, and a lower one keeps rising from where it is. -/
theorem advanceAttack_no_samples (h0 : tr.attack.toNat ≠ 0) :
    (advanceAttack c tr 0).currentFactor = tr.currentFactor := by
  have hraise := attackRaise_no_samples hc hf h0
  cases hone : fle fOne (attackRaise c tr 0) with
  | false => rw [advanceAttack_rising h0 hone, hraise]
  | true =>
    rw [advanceAttack_clamped h0 hone]
    rw [hraise, fle_of_le (by decide) (by omega), decide_eq_true_eq] at hone
    exact BitVec.eq_of_toNat_eq (le_antisymm hone hf)

theorem le_advanceAttack (hn : n < 536870912) : tr.currentFactor.toNat ≤ (advanceAttack c tr n).currentFactor.toNat := by
  unfold advanceAttack
  split_ifs with h0
  · exact hf
  · exact hf
  · exact le_fadd (by omega) (stageStep_bounds hc hn h0).1

/-- A level at or above the factor is reached by the first advance, whatever the decay time. -/
theorem advanceDecay_level_above (hn : n < 536870912) (hs : tr.sustain.toNat ≤ 126)
    (h : tr.currentFactor.toNat ≤ (sustainLevel tr.sustain).toNat) :
    advanceDecay c tr n = { tr with currentFactor := sustainLevel tr.sustain, envState := .sustain } := by
  have hlevel := sustainLevel_le tr.sustain hs
  by_cases h0 : tr.decay.toNat = 0
  · exact advanceDecay_instant h0
  · exact advanceDecay_clamped h0
      (fle_fsub_of_le (by omega) (stageStep_bounds hc hn h0).1.le (by omega) h)

end Corners

theorem sustainLevel_full {s : BitVec 7} (h : s.toNat = 126) : sustainLevel s = fOne := if_pos h

theorem factorPerStep_eq : factorPerStep = 0x3C010204#32 := by decide +kernel

theorem sustainLevel_step {s : BitVec 7} (h : s.toNat < 126) :
    sustainLevel s = fmul (toF32 s.toNat) 0x3C010204#32 := by
  rw [← factorPerStep_eq]
  exact if_neg h.ne

/-- Settles O18: branch by branch; a step added to the factor is not negative, and zero without samples. -/
theorem attackAdvance : Obligations.AttackAdvance := by
  intro c tr n hc hf hn henv raised
  rw [factorOk_iff] at hf
  simp only [advance_attack henv]
  refine ⟨fun h0 => ?_, fun h0 hone => ?_, fun h0 hone => ?_, advanceAttack_no_samples hc hf, le_advanceAttack hc hf hn⟩
  · rw [advanceAttack_instant h0, fOne]
  · rw [advanceAttack_clamped h0 hone, fOne]
  · rw [advanceAttack_rising h0 hone]
    rfl

/-- Settles O19: branch by branch; a factor at or below the level falls to no more than it. -/
theorem decayAdvance : Obligations.DecayAdvance := by
  intro c tr n hc hf hs hn henv level fallen
  have hlevel := sustainLevel_le tr.sustain hs
  rw [factorOk_iff] at hf
  rw [advance_decay henv]
  refine ⟨fun h0 => ?_, fun h0 hle => ?_, fun h0 hle => ?_, fun hle => ?_, fun hfull => ?_⟩
  · rw [advanceDecay_instant h0]
  · rw [advanceDecay_clamped h0 hle]
  · rw [advanceDecay_falling h0 hle]
    rfl
  · rw [fle_of_le (by omega) (hlevel.trans (by decide)), decide_eq_true_eq] at hle
    rw [advanceDecay_level_above hc hf hn hs hle]
  · have hone := sustainLevel_full hfull
    rw [advanceDecay_level_above hc hf hn hs (by rw [hone]; exact hf), hone, fOne]

/-- Settles O20: branch by branch; a fall from ZERO ends at or below it. -/
theorem releaseAdvance : Obligations.ReleaseAdvance := by
  intro c tr n hc hn henv fallen
  rw [advance_release henv]
  exact ⟨advanceRelease_instant, advanceRelease_clamped, advanceRelease_falling, advanceRelease_from_zero hc hn⟩

/-- Settles O21: an advance that has ended is a release advance to ZERO. -/
theorem endedOnlyFromReleaseAtZero : Obligations.EndedOnlyFromReleaseAtZero := by
  intro c tr n
  refine ⟨by rw [advance_shape], fun hend => ?_⟩
  obtain ⟨henv, hadv⟩ := advance_ended hend
  refine ⟨henv, ?_, ?_, fun acc d hen => renderTrack_of_ended hen hadv acc d⟩
  · rw [hadv]
    exact henv
  · rw [hadv]
    rfl

/-- Settles O22: stage by stage, as the advance of that stage answers. -/
theorem oneStagePerAdvance : Obligations.OneStagePerAdvance := by
  intro c tr n
  refine ⟨advance_shape c tr n, ?_⟩
  cases henv : tr.envState with
  | attack => rw [advance_attack henv]; exact advanceAttack_envState henv
  | decay => rw [advance_decay henv]; exact advanceDecay_envState henv
  | sustain => rw [advance_sustain henv]; exact henv
  | release => rw [advance_release henv]; exact advanceRelease_envState.trans henv

/-! Out of Sustain (R157). -/

/-- A reset leaves every track in Sustain (R61). -/
theorem envState_of_reset {s t : State} {k : Nat} {tr : Track} {rest : List Event} (h : step s = .next t)
    (hr : s.agenda = .resetAssert :: rest) (htr : t.tracks[k]? = some tr) : tr.envState = .sustain := by
  rw [step_eq_move hr nofun] at h
  injection h with h
  rw [← h, assertReset_shape] at htr
  rw [List.eq_of_mem_replicate (List.mem_of_getElem? htr)]
  rfl

/-- A RENDER leaves a track of Sustain in Sustain (R157, R213). -/
theorem rendering_keeps_sustain {l : Latch} {s : State} {k : Nat} {tr tr' : Track} (htr : s.tracks[k]? = some tr)
    (htr' : (rendering l s).tracks[k]? = some tr') (h : tr.envState = .sustain) : tr'.envState = .sustain := by
  rcases rendering_track htr htr' with rfl | ⟨-, f, e, -, he, ⟨-, rfl⟩ | ⟨-, p, q, rfl⟩⟩
  · exact h
  · rw [advance_sustain h] at he
    exact he.trans h
  · rw [advance_sustain h] at he
    exact he.trans h

/-- Of the track commands only NOTE_ON and NOTE_OFF change the stage. -/
theorem changeOf_envState {c : Config} {l : Latch} {i : Instr} {tr : Track} (h : (changeOf c l i tr).envState ≠ tr.envState) :
    (i = .noteOff i.track ∧ (changeOf c l i tr).envState = .release) ∨
      (i = .noteOn i.track ∧ (changeOf c l i tr).envState = .attack) := by
  cases i with
  | noteOn t => exact .inr ⟨rfl, rfl⟩
  | noteOff t => exact .inl ⟨rfl, rfl⟩
  | _ => exact absurd rfl h

theorem leaves_sustain {s t : State} {k : Nat} {tr tr' : Track} (h : step s = .next t) (htr : s.tracks[k]? = some tr)
    (htr' : t.tracks[k]? = some tr') (henv : tr.envState = .sustain) (hne : tr'.envState ≠ .sustain) :
    (∃ l, Completing s (.noteOff k) l ∧ tr'.envState = .release) ∨
      ∃ l, Completing s (.noteOn k) l ∧ tr'.envState = .attack := by
  have hr : ∀ rest, s.agenda ≠ .resetAssert :: rest := fun rest hr => hne (envState_of_reset h hr htr')
  rcases step_track h hr htr htr' with rfl | ⟨l, i, hc, -, rfl, rfl⟩ | ⟨l, -, hren⟩
  · exact absurd henv hne
  · rcases changeOf_envState (henv ▸ hne) with ⟨hi, hstage⟩ | ⟨hi, hstage⟩
    · exact .inl ⟨l, hi ▸ hc, hstage⟩
    · exact .inr ⟨l, hi ▸ hc, hstage⟩
  · exact absurd (rendering_keeps_sustain htr hren henv) hne

/-- Settles O17: the advance, the exits, and the levels, whose listed values compute. -/
theorem sustainLevels : Obligations.SustainLevels := by
  refine ⟨fun c tr n => advance_sustain, fun s t k tr tr' => leaves_sustain, by decide, fun s => sustainLevel_step,
    fun s hs => factorOk_iff.mpr (sustainLevel_le s hs), ?_⟩
  decide +kernel

end Sys2Proof.Machine

/-! PROOFS. The oscillator's commands and its draws (R180, R186–R189; O25, O26, O27, O30, O45): which operands are legal, and
how many draws each part of a RENDER takes. -/

namespace Sys2Proof.Machine

/-! Legal frequencies (R189). -/

/-- No value lies on both sides of another. -/
theorem flt_asymm {a b : F32} (h : flt a b = true) : flt b a = false := by
  simp only [flt, Bool.and_eq_true, Bool.not_eq_true', decide_eq_true_eq] at h
  obtain ⟨⟨ha, hb⟩, hlt⟩ := h
  simp only [flt, ha, hb, Bool.not_false, Bool.true_and, decide_eq_false_iff_not]
  omega

theorem freqValid_iff {c : Config} {hz : F32} : freqValid c hz = true ↔
    isFinite hz = true ∧ flt fZero hz = true ∧ flt (incr c hz) fTwoPi = true := by
  rw [freqValid, Bool.and_eq_true, Bool.and_eq_true, and_assoc]

/-- Settles O27: each kind of value fails one of R189's three tests. -/
theorem legalFrequencies : Obligations.LegalFrequencies := by
  intro c hz
  refine ⟨freqValid_iff, fun h => Bool.eq_false_iff.mpr fun hv => ?_, phaseOk_incr_of_freqValid⟩
  obtain ⟨hfin, hpos, -⟩ := freqValid_iff.mp hv
  rcases h with hnan | hinf | rfl | rfl | hneg
  · exact absurd hnan (Bool.eq_false_iff.mp (isNaN_of_isFinite hfin))
  · exact absurd hinf (Bool.eq_false_iff.mp (isInf_of_isFinite hfin))
  · exact absurd hpos (by decide)
  · exact absurd hpos (by decide)
  · exact absurd hpos (Bool.eq_false_iff.mp (flt_asymm hneg))

/-! SET_FREQUENCY and SET_WAVEFORM. -/

/-- Settles O25: its check is R189's test, its change gives R16's increment, and the examples compute. -/
theorem setFrequencyMeaning : Obligations.SetFrequencyMeaning := by
  intro t s increment legal
  refine ⟨presentedAs_encode (i := .setFrequency t), fun hl ht => ?_, fun hl ht hbad => ?_, fun hl ht hok => ?_,
    fun l tr hc htr => ?_, fun hrate => ?_⟩
  · exact exec_rejected hl (firstError_badTrack nofun ht)
  · exact exec_rejected hl ((own_check_of_lt ht).trans (checkFrequency_invalid hbad))
  · exact exec_accepted hl ((own_check_of_lt ht).trans (checkFrequency_eq_none.mpr hok))
  · exact exec_completing_track (i := .setFrequency t) nofun hc htr
  · simp only [legal, increment, hrate]
    decide +kernel

theorem waveformOf_of_code {code : Word} {w : Waveform}
    (h : code = 0 ∧ w = .sine ∨ code = 1 ∧ w = .square ∨ code = 2 ∧ w = .noise ∨ code = 3 ∧ w = .saw) :
    waveformOf code = some w := by
  rcases h with ⟨rfl, rfl⟩ | ⟨rfl, rfl⟩ | ⟨rfl, rfl⟩ | ⟨rfl, rfl⟩ <;> rfl

/-- The codes 0 to 3 are those that name a waveform (R97). -/
theorem checkWaveform_of_le {c : Config} {arg0 arg1 : Word} (h : arg0.toNat ≤ 3) :
    checkWaveform c arg0 arg1 = none := by
  refine if_pos ?_
  unfold waveformOf
  interval_cases arg0.toNat <;> rfl

theorem setWaveformChange_of_code {c : Config} {l : Latch} {tr : Track} {w : Waveform} (h : waveformOf l.arg0 = some w) :
    setWaveformChange c l tr = { tr with waveform := w } := by
  rw [setWaveformChange, h, Option.getD_some]

/-- Settles O26: its check is of the code, and its change gives the track the waveform that the code names. -/
theorem setWaveformMeaning : Obligations.SetWaveformMeaning := by
  intro t s
  refine ⟨presentedAs_encode (i := .setWaveform t), fun hl ht => ?_, fun hl ht hbad => ?_, fun hl ht hok => ?_,
    fun l tr w hc htr hcode => ?_⟩
  · exact exec_rejected hl (firstError_badTrack nofun ht)
  · exact exec_rejected hl ((own_check_of_lt ht).trans (checkWaveform_reserved hbad))
  · exact exec_accepted hl ((own_check_of_lt ht).trans (checkWaveform_of_le hok))
  · rw [← setWaveformChange_of_code (c := s.cfg) (waveformOf_of_code hcode)]
    exact exec_completing_track (i := .setWaveform t) nofun hc htr

/-! The noise source (R186). -/

/-- A bound on the magnitude is a bound on both sides of zero. -/
theorem fmag_le_iff {b x : F32} (hb : b.toNat ≤ 0x7F800000) :
    fmag x ≤ b.toNat ↔ fle (fnegate b) x = true ∧ fle x b = true := by
  have hneg : isNaN (fnegate b) = false := by
    unfold isNaN
    rw [fmag_fnegate]
    exact isNaN_of_le hb
  have hnegKey : fkey (fnegate b) = -(b.toNat : ℤ) := by
    unfold fkey
    rw [fsign_fnegate, fmag_fnegate, fsign_of_le hb, fmag_of_le hb]
    rfl
  have hnan : isNaN x = false ↔ fmag x ≤ 0x7F800000 := decide_eq_false_iff_not.trans not_lt
  simp only [fle, Bool.and_eq_true, Bool.not_eq_true', decide_eq_true_eq]
  rw [hneg, hnegKey, isNaN_of_le hb, fkey_of_le hb, hnan]
  simp only [true_and, and_true, fkey]
  split <;> omega

/-- The range of a draw as two comparisons. -/
theorem noiseInRange_iff {v : F32} : noiseInRange v = true ↔ fle fNegOne v = true ∧ fle v fOne = true :=
  decide_eq_true_iff.trans (fmag_le_iff (b := fOne) (by decide))

theorem noiseInRange_noiseClamp (w : Word) : noiseInRange (noiseClamp w) = true := by
  have hle : min (fmag w) 0x3F800000 ≤ 0x3F800000 := min_le_right _ _
  have hmag : fmag (noiseClamp w) = min (fmag w) 0x3F800000 := fmag_fpack _ (by omega)
  exact decide_eq_true (hmag.trans_le hle)

/-- A draw is one of the build's known ones, which a legal build keeps in range, or a clamped free one. -/
theorem noiseInRange_noiseDraw {c : Config} (hc : c.wellFormed = true) (k : Nat) : noiseInRange (noiseDraw c k) = true := by
  obtain ⟨-, -, -, -, -, -, -, -, hknown⟩ := wellFormed_bounds hc
  unfold noiseDraw
  cases h : c.noise[k]? with
  | none => exact noiseInRange_noiseClamp _
  | some v => exact List.all_eq_true.mp hknown v (List.mem_of_getElem? h)

/-- Only Noise takes a draw, and it takes one. -/
theorem gen_drawn (c : Config) (w : Waveform) (phase inc off : F32) (d : Nat) :
    (gen c w phase inc off d).2 = d + if w = .noise then 1 else 0 := by
  cases w <;> rfl

/-- Settles O30: the range by `noiseInRange`, the count by `gen_drawn`. -/
theorem noiseDrawsStayInRange : Obligations.NoiseDrawsStayInRange := by
  intro c k phase inc off hc
  obtain ⟨hlo, hhi⟩ := noiseInRange_iff.mp (noiseInRange_noiseDraw hc k)
  refine ⟨hlo, hhi, rfl, fun w hw => ?_⟩
  rw [gen_drawn, if_neg hw, add_zero]

/-! The draws of a RENDER (R186, R213). -/

/-- The per-sample loop takes one draw for each frame of a Noise track. -/
theorem renderFrames_drawn (c : Config) (g : F32) : ∀ (acc : List Frame) (tr : Track) (d : Nat),
    (renderFrames c g acc tr d).2.2 = d + acc.length * if tr.waveform = .noise then 1 else 0
  | [], _, d => by rw [List.length_nil, zero_mul]; rfl
  | (left, right) :: rest, tr, d => by
    simp only [renderFrames]
    rw [renderFrames_drawn c g rest, gen_drawn, List.length_cons, add_one_mul, add_comm (rest.length * _), add_assoc]
    rfl

theorem renderTrack_of_disabled {c : Config} {tr : Track} {n : Nat} (hen : tr.enabled = false) (acc : List Frame)
    (d : Nat) : renderTrack c n acc tr d = (acc, tr, d) := by
  unfold renderTrack
  rw [if_neg (Bool.eq_false_iff.mp hen)]

/-- A track whose advance has not ended mixes its samples in (R213). -/
theorem renderTrack_of_sounding {c : Config} {tr : Track} {n : Nat} (hen : tr.enabled = true)
    (h : (advance c tr n).2 = false) (acc : List Frame) (d : Nat) : renderTrack c n acc tr d =
      renderFrames c (advance c tr n).1.currentFactor acc (advance c tr n).1 d := by
  unfold renderTrack
  rw [if_pos hen]
  split
  next heq => rw [heq] at h; cases h
  next heq => rw [heq]

/-- The tracks that draw in a RENDER of n frames. -/
def drawsNoise (c : Config) (n : Nat) (tr : Track) : Bool :=
  tr.enabled && !(advance c tr n).2 && (tr.waveform == .noise)

/-- One track's part takes a draw for each frame if the track is enabled, has not ended and is of Noise. -/
theorem renderTrack_drawn (c : Config) (n : Nat) (acc : List Frame) (tr : Track) (d : Nat) :
    (renderTrack c n acc tr d).2.2 = d + acc.length * if drawsNoise c n tr = true then 1 else 0 := by
  unfold drawsNoise
  cases hen : tr.enabled with
  | false => rw [renderTrack_of_disabled hen]; rfl
  | true =>
    cases hend : (advance c tr n).2 with
    | true => rw [renderTrack_of_ended hen (Prod.ext rfl hend)]; rfl
    | false => simp [renderTrack_of_sounding hen hend, renderFrames_drawn, advance_waveform]

theorem renderTracks_drawn (c : Config) (n : Nat) : ∀ (trs : List Track) (acc : List Frame) (d : Nat),
    (renderTracks c n trs acc d).drawn = d + acc.length * (trs.filter (drawsNoise c n)).length
  | [], _, _ => rfl
  | tr :: trs, acc, d => by
    simp only [renderTracks]
    rw [renderTracks_drawn c n trs, renderTrack_length, renderTrack_drawn, List.filter_cons, add_assoc, ← mul_add]
    split
    · rw [List.length_cons, add_comm 1]
    · rw [zero_add]

/-- Settles O45: track by track, over an accumulator of n frames. -/
theorem noiseDrawsAreCounted : Obligations.NoiseDrawsAreCounted := by
  intro c tracks n d
  have h := renderTracks_drawn c n tracks (zeroFrames n) d
  rwa [zeroFrames, List.length_replicate] at h

end Sys2Proof.Machine

/-! PROOFS. PolyBLEP at its corners (R182–R184; O29): where neither branch of the correction is taken, and the distance past
the falling edge as a normalized phase. -/

namespace Sys2Proof.Machine

/-! Sums, differences and quotients with zero and with a negative value. -/

theorem isFinite_of_lt {x : F32} (h : x.toNat < 0x7F800000) : isFinite x = true := by
  unfold isFinite
  rw [fmag_of_le h.le]
  exact decide_eq_true h

/-- A difference of finite values that are not negative is finite. -/
theorem isFinite_fsub {a b : F32} (ha : a.toNat < 0x7F800000) (hb : b.toNat < 0x7F800000) :
    isFinite (fsub a b) = true := by
  rcases lt_or_ge a.toNat b.toNat with hlt | hge
  · obtain ⟨m, -, hm, hneg⟩ := fsub_neg ha hb.le hlt
    rw [hneg, isFinite_fpack true (by omega)]
    exact decide_eq_true (by omega)
  · exact isFinite_of_lt ((fsub_le ha hge).trans_lt ha)

/-- A finite value less ZERO is itself, −0.0 included (R12). -/
theorem fsub_zero {a : F32} (ha : isFinite a = true) : fsub a fZero = a := by
  have hvalue : fvalue (fnegate fZero) = 0 := by decide
  have hsign : fsign (fnegate fZero) = true := by decide
  have hmag : fmag a < 0x7F800000 := of_decide_eq_true ha
  have hround : roundMag (funits a) 1 = fmag a := by
    rw [funits, ← mul_one (magUnits _)]
    exact roundMag_exact one_pos hmag.le
  have hkept : (if fvalue a = 0 then fsign a && true else decide (fvalue a < 0)) = fsign a := by
    split
    next => exact Bool.and_true _
    next hne => rw [Bool.eq_iff_iff, decide_eq_true_iff, fsign_iff_neg hne]
  rw [fsub_finite ha (by decide), fadd_finite ha (by decide), hvalue, hsign, add_zero, natAbs_fvalue, hround, hkept,
    fpack_eta]

theorem fdiv_zero_left {b : F32} (h0 : 0 < b.toNat) (hb : b.toNat < 0x7F800000) : fdiv fZero b = fZero := by
  apply BitVec.eq_of_toNat_eq
  rw [fdiv_toNat (by decide) hb h0]
  simp [fZero]

/-- A quotient by a divisor at least as large is at most ONE. -/
theorem fdiv_le_one {a b : F32} (h : a.toNat ≤ b.toNat) (h0 : 0 < b.toNat) (hb : b.toNat < 0x7F800000) :
    (fdiv a b).toNat ≤ 0x3F800000 := by
  rw [fdiv_toNat (by omega) hb h0]
  refine roundMag_le (magUnits_pos h0) (by decide) ?_
  have hone : magUnits 0x3F800000 = unitScale := by decide +kernel
  rw [hone, mul_comm]
  exact Nat.mul_le_mul_left _ (magUnits_mono h)

/-! The correction (R183). -/

/-- At an edge the correction is −1, whatever the increment. -/
theorem blep_at_edge {dt : F32} (hpos : 0 < dt.toNat) (hfin : dt.toNat < 0x7F800000) : blep fZero dt = fNegOne := by
  have hlt : flt fZero dt = true := flt_zero.mpr ⟨hpos, hfin.le⟩
  rw [blep, if_pos hlt, fdiv_zero_left hpos hfin]
  decide +kernel

/-- Between the edges' reach nothing is corrected. -/
theorem blep_between {t dt : F32} (h : flt t dt = false) (h' : flt (fsub fOne dt) t = false) : blep t dt = fZero := by
  rw [blep, if_neg (Bool.eq_false_iff.mp h), if_neg (Bool.eq_false_iff.mp h')]

theorem blep_zero_increment {t : F32} (h : t.toNat ≤ 0x3F800000) : blep t fZero = fZero := by
  refine blep_between ?_ ?_
  · rw [flt_of_le (by omega) (by decide)]
    exact decide_eq_false (Nat.not_lt_zero _)
  · have hone : fsub fOne fZero = fOne := by decide +kernel
    rw [hone, flt_of_le (by decide) (by omega)]
    exact decide_eq_false (not_lt.mpr h)

/-- An increment of at most half a cycle does not reach the middle of the cycle. -/
theorem blep_middle {dt : F32} (h : dt.toNat ≤ 0x3F000000) : blep 0x3F000000#32 dt = fZero := by
  refine blep_between ?_ ?_
  · rw [flt_of_le (by decide) (by omega)]
    exact decide_eq_false (not_lt.mpr h)
  · have hle : (fsub fOne dt).toNat ≤ 0x3F800000 := fsub_le (by decide) (h.trans (by decide))
    have hge : 0x3F000000 ≤ (fsub fOne dt).toNat := by
      rw [fsub_toNat (by decide) (h.trans (by decide))]
      refine le_roundMag one_pos (by decide) ?_
      have hhalf : magUnits fOne.toNat = magUnits 0x3F000000 + magUnits 0x3F000000 := by decide +kernel
      have hdt := magUnits_mono h
      rw [hhalf]
      omega
    rw [flt_of_le (by omega) (by decide)]
    exact decide_eq_false (not_lt.mpr hge)

/-! Normalized phases. -/

/-- A phase of at most PI is at most half a cycle. -/
theorem fdiv_twoPi_le_half {p : F32} (h : p.toNat ≤ 0x40490FDB) : (fdiv p fTwoPi).toNat ≤ 0x3F000000 := by
  have hhalf : roundMag (magUnits 0x40490FDB * unitScale) (magUnits fTwoPi.toNat) = 0x3F000000 := by decide +kernel
  rw [fdiv_toNat (by omega) (by decide) (by decide), ← hhalf]
  exact roundMag_mono (by decide +kernel) (Nat.mul_le_mul_right _ (magUnits_mono h))

theorem toNat_fnegate_of_fsign {x : F32} (h : fsign x = true) : (fnegate x).toNat = fmag x := by
  rw [fnegate, h, fpack_toNat _ (fmag_lt x)]
  rfl

/-- The threshold of an offset in [−PI, PI] lies in the cycle, its end included (R182, R201). -/
theorem threshold_le {off : F32} (hlo : fle 0xC0490FDB#32 off = true) (hhi : fle off fPi = true) :
    (fadd fPi off).toNat ≤ 0x40C90FDB := by
  have hmag : fmag off ≤ 0x40490FDB := (fmag_le_iff (b := fPi) (by decide)).mpr ⟨hlo, hhi⟩
  cases hs : fsign off with
  | true =>
    have hneg := toNat_fnegate_of_fsign hs
    have hfin : isFinite (fnegate off) = true := isFinite_of_lt (by omega)
    have hsub : fadd fPi off = fsub fPi (fnegate off) := by
      rw [fsub_finite (by decide) hfin, fnegate_involutive]
    have hle := fsub_le (a := fPi) (b := fnegate off) (by decide) (hneg.trans_le hmag)
    rw [hsub]
    exact hle.trans (by decide)
  | false =>
    have hnat : off.toNat = fmag off := by
      unfold fsign at hs
      unfold fmag
      rw [decide_eq_false_iff_not] at hs
      omega
    rw [fadd_toNat (by decide) (by omega)]
    refine roundMag_le one_pos (by decide) ?_
    have htwo : magUnits 0x40C90FDB = magUnits fPi.toNat + magUnits 0x40490FDB := by decide +kernel
    rw [htwo, mul_one, hnat]
    exact Nat.add_le_add_left (magUnits_mono hmag) _

theorem flt_fpack_true_zero {m : Nat} (h0 : 0 < m) (hm : m ≤ 0x7F800000) : flt (fpack true m) fZero = true := by
  have hkey : fkey (fpack true m) = -(m : ℤ) := by
    unfold fkey
    rw [fsign_fpack true (by omega), fmag_fpack true (by omega)]
    rfl
  have hnan : isNaN (fpack true m) = false := by
    unfold isNaN
    rw [fmag_fpack true (by omega)]
    exact decide_eq_false (by omega)
  have hzero : fkey fZero = 0 := by decide
  rw [flt, hkey, hzero, hnan, isNaN_of_le (x := fZero) (by decide)]
  simpa using h0

/-- For a phase and a threshold of the cycle the distance past the falling edge lies in the cycle. -/
theorem fallingDistance_le {phase thr : F32} (hp : phase.toNat ≤ 0x40C90FDB) (ht : thr.toNat ≤ 0x40C90FDB) :
    (fallingDistance phase thr).toNat ≤ 0x40C90FDB := by
  unfold fallingDistance
  rcases lt_or_ge phase.toNat thr.toNat with hlt | hge
  · obtain ⟨m, hpos, hm, hneg⟩ := fsub_neg (by omega) (by omega) hlt
    obtain ⟨b, rfl⟩ : ∃ b : F32, b.toNat = m := ⟨BitVec.ofNat 32 m, by rw [BitVec.toNat_ofNat]; omega⟩
    have hsum := (fadd_fpack_true (a := fTwoPi) (b := b) (by decide) (by omega)).2
    simp only [hneg, flt_fpack_true_zero hpos (by omega), if_true, hsum]
    exact fsub_le (by decide) (hm.trans ht)
  · have hd := fsub_le (by omega) hge
    have hzero : flt (fsub phase thr) fZero = false := by
      rw [flt_of_le (by omega) (by decide)]
      exact decide_eq_false (Nat.not_lt_zero _)
    simp only [hzero, Bool.false_eq_true, if_false]
    omega

/-! The generators. -/

section Generators

variable {c : Config} {phase inc off : F32}

theorem squareGen_naive (h : c.bandlimit = .naive) : squareGen c phase inc off = squareNaive phase (fadd fPi off) := by
  rw [squareGen, h]

theorem squareGen_polyblep (h : c.bandlimit = .polyblep) : squareGen c phase inc off =
    fsub (fadd (squareNaive phase (fadd fPi off)) (blep (fdiv phase fTwoPi) (fdiv inc fTwoPi)))
      (blep (fdiv (fallingDistance phase (fadd fPi off)) fTwoPi) (fdiv inc fTwoPi)) := by
  rw [squareGen, h]

theorem sawGen_naive (h : c.bandlimit = .naive) : sawGen c phase inc = fsub (fdiv phase fPi) fOne := by
  rw [sawGen, h]

theorem sawGen_polyblep (h : c.bandlimit = .polyblep) : sawGen c phase inc =
    fsub (fsub (fdiv phase fPi) fOne) (blep (fdiv phase fTwoPi) (fdiv inc fTwoPi)) := by
  rw [sawGen, h]

/-- A phase of the cycle is at most two half cycles. -/
theorem fdiv_pi_le_two (h : phase.toNat ≤ 0x40C90FDB) : (fdiv phase fPi).toNat ≤ 0x40000000 := by
  rw [fdiv_toNat (by omega) (by decide) (by decide)]
  refine roundMag_le (by decide +kernel) (by decide) ?_
  have htwo : magUnits 0x40000000 * magUnits fPi.toNat = magUnits 0x40C90FDB * unitScale := by decide +kernel
  rw [htwo]
  exact Nat.mul_le_mul_right _ (magUnits_mono h)

theorem fdiv_zero_twoPi : fdiv fZero fTwoPi = fZero := fdiv_zero_left (by decide) (by decide)

theorem blep_phase_zero_increment (h : phase.toNat ≤ 0x40C90FDB) :
    blep (fdiv phase fTwoPi) (fdiv fZero fTwoPi) = fZero := by
  rw [fdiv_zero_twoPi]
  exact blep_zero_increment (fdiv_le_one h (by decide) (by decide))

/-- Without a correction at either edge the square is its naive value (R182). -/
theorem squareNaive_uncorrected (phase thr : F32) :
    fsub (fadd (squareNaive phase thr) fZero) fZero = squareNaive phase thr := by
  unfold squareNaive
  split
  · decide +kernel
  · decide +kernel

theorem squareGen_zero_increment (hp : phase.toNat ≤ 0x40C90FDB)
    (hoff : c.bandlimit = .naive ∨ (fle 0xC0490FDB#32 off = true ∧ fle off fPi = true)) :
    squareGen c phase fZero off = squareNaive phase (fadd fPi off) := by
  cases hb : c.bandlimit with
  | naive => exact squareGen_naive hb
  | polyblep =>
    obtain ⟨hlo, hhi⟩ := hoff.resolve_left (by simp [hb])
    rw [squareGen_polyblep hb, blep_phase_zero_increment hp,
      blep_phase_zero_increment (fallingDistance_le hp (threshold_le hlo hhi)), squareNaive_uncorrected]

theorem sawGen_zero_increment (hp : phase.toNat ≤ 0x40C90FDB) :
    sawGen c phase fZero = fsub (fdiv phase fPi) fOne := by
  cases hb : c.bandlimit with
  | naive => exact sawGen_naive hb
  | polyblep =>
    have htwo := fdiv_pi_le_two hp
    rw [sawGen_polyblep hb, blep_phase_zero_increment hp, fsub_zero (isFinite_fsub (by omega) (by decide))]

/-! The midpoints of the POLYBLEP edges (R182, R184), for an increment whose normalized value is not ZERO. -/

theorem fdiv_pi_twoPi : fdiv fPi fTwoPi = 0x3F000000#32 := by decide +kernel

theorem sawGen_at_edge (hb : c.bandlimit = .polyblep) (hpos : 0 < (fdiv inc fTwoPi).toNat)
    (hfin : (fdiv inc fTwoPi).toNat < 0x7F800000) : sawGen c fZero inc = fZero := by
  rw [sawGen_polyblep hb, fdiv_zero_twoPi, blep_at_edge hpos hfin]
  decide +kernel

theorem sawGen_middle (hb : c.bandlimit = .polyblep) (hhalf : (fdiv inc fTwoPi).toNat ≤ 0x3F000000) :
    sawGen c fPi inc = fZero := by
  rw [sawGen_polyblep hb, fdiv_pi_twoPi, blep_middle hhalf]
  decide +kernel

/-- At the rising edge the falling one is half a cycle away. -/
theorem squareGen_rising_edge (hb : c.bandlimit = .polyblep) (hpos : 0 < (fdiv inc fTwoPi).toNat)
    (hhalf : (fdiv inc fTwoPi).toNat ≤ 0x3F000000) : squareGen c fZero inc fZero = fZero := by
  have hfall : fdiv (fallingDistance fZero (fadd fPi fZero)) fTwoPi = 0x3F000000#32 := by decide +kernel
  rw [squareGen_polyblep hb, hfall, fdiv_zero_twoPi, blep_at_edge hpos (by omega), blep_middle hhalf]
  decide +kernel

/-- At the falling edge the rising one is half a cycle away. -/
theorem squareGen_falling_edge (hb : c.bandlimit = .polyblep) (hpos : 0 < (fdiv inc fTwoPi).toNat)
    (hhalf : (fdiv inc fTwoPi).toNat ≤ 0x3F000000) : squareGen c fPi inc fZero = fZero := by
  have hfall : fdiv (fallingDistance fPi (fadd fPi fZero)) fTwoPi = fZero := by decide +kernel
  rw [squareGen_polyblep hb, hfall, fdiv_pi_twoPi, blep_at_edge hpos (by omega), blep_middle hhalf]
  decide +kernel

end Generators

/-- Settles O29: both corrections of a ZERO increment are ZERO; at an edge its own correction is −1 and the other's ZERO; the
worked examples compute. -/
theorem noCorrectionAtZeroIncrement : Obligations.NoCorrectionAtZeroIncrement := by
  intro c phase off hphase
  have hp := (phaseOk_iff.mp hphase).le
  refine ⟨fun dt hpos hone => ?_, blep_phase_zero_increment hp, squareGen_zero_increment hp, sawGen_zero_increment hp,
    fun hb => ⟨fun inc hinc hdt => ?_, ?_⟩⟩
  · obtain ⟨hpos, hle⟩ := flt_zero.mp hpos
    rw [flt_of_le hle (by decide), decide_eq_true_eq] at hone
    exact blep_at_edge hpos (hone.trans (by decide))
  · obtain ⟨hpos, -⟩ := flt_zero.mp hdt
    have hle : (fdiv inc fTwoPi).toNat ≤ 0x3F800000 :=
      fdiv_le_one (phaseOk_iff.mp hinc).le (by decide) (by decide)
    refine ⟨sawGen_at_edge hb hpos (by omega), fun hpi => ?_⟩
    rw [fle_of_le (by rw [phaseOk_iff] at hinc; omega) (by decide), decide_eq_true_eq] at hpi
    have hhalf := fdiv_twoPi_le_half hpi
    exact ⟨sawGen_middle hb hhalf, squareGen_rising_edge hb hpos hhalf, squareGen_falling_edge hb hpos hhalf⟩
  · simp only [squareGen_polyblep hb, sawGen_polyblep hb]
    decide +kernel

end Sys2Proof.Machine

/-! PROOFS. The pulse-width modulator (R200–R204; O35, O36, O37): its two commands, and the range of its offset as a product
whose factors but the last are at most ONE in magnitude. -/

namespace Sys2Proof.Machine

/-! ENABLE_PWM and DISABLE_PWM. -/

/-- Settles O35: its checks are `checkPwm`'s, the frequency first, and its change is R203's. -/
theorem enablePwmMeaning : Obligations.EnablePwmMeaning := by
  intro t s
  refine ⟨presentedAs_encode (i := .enablePwm t), fun hl ht => ?_, fun hl ht hbad => ?_, fun hl ht hok hbad => ?_,
    fun hl ht hok hpos hone => ?_, fun l tr hc htr => ?_⟩
  · exact exec_rejected hl (firstError_badTrack nofun ht)
  · exact exec_rejected hl ((own_check_of_lt ht).trans (checkPwm_badFrequency hbad))
  · exact exec_rejected hl ((own_check_of_lt ht).trans (checkPwm_badDepth hok hbad))
  · have hdepth : depthValid s.arg1 = true := Bool.and_eq_true_iff.mpr ⟨hpos, hone⟩
    exact exec_accepted hl ((own_check_of_lt ht).trans (checkPwm_eq_none.mpr ⟨hok, hdepth⟩))
  · exact exec_completing_track (i := .enablePwm t) nofun hc htr

/-- Settles O36: its only check is of the track, and its change is R204's. -/
theorem disablePwmMeaning : Obligations.DisablePwmMeaning := by
  intro t s
  refine ⟨presentedAs_encode (i := .disablePwm t), fun hl ht => ?_, fun hl ht => ?_, fun l tr hc htr => ?_⟩
  · exact exec_rejected hl (firstError_badTrack nofun ht)
  · exact exec_accepted hl (own_check_of_lt ht)
  · exact exec_completing_track (i := .disablePwm t) nofun hc htr

/-! The offset and the PWM phase (R200–R202). -/

section Offset

variable {c : Config} {tr : Track}

theorem pwmOffset_inactive (h : pwmActive tr = false) : pwmOffset c tr = fZero :=
  if_neg (Bool.eq_false_iff.mp h)

theorem pwmOffset_active (h : pwmActive tr = true) :
    pwmOffset c tr = fmul (lookup c tr.pwmPhase) (fmul tr.pwmDepth fPi) :=
  if_pos h

/-- A phase plus ZERO is below TWO_PI, so `wrap` leaves it as it is. -/
theorem wrap_fadd_zero {p : F32} (h : phaseOk p = true) : wrap (fadd p fZero) = p := by
  rw [phaseOk_iff] at h
  rw [fadd_zero (by omega) rfl]
  refine wrap_of_below ?_
  rw [fle_twoPi (by omega)]
  exact decide_eq_false (not_le.mpr h)

/-- A factor of at most ONE in magnitude does not make a product larger than its other factor. -/
theorem fmag_fmul_le {a b : F32} (ha : fmag a ≤ 0x3F800000) (hb : fmag b < 0x7F800000) :
    fmag (fmul a b) ≤ fmag b := by
  have hfin : isFinite a = true := decide_eq_true (by omega)
  have hone : magUnits 0x3F800000 = unitScale := by decide +kernel
  have hunits : funits a ≤ unitScale := (magUnits_mono ha).trans_eq hone
  rw [fmul_finite hfin (decide_eq_true hb), fmag_fpack _ (roundMag_lt _ _)]
  refine roundMag_le (by decide) hb.le ?_
  rw [mul_comm (funits a)]
  exact Nat.mul_le_mul_left _ hunits

/-- Without interpolation a lookup is a table entry, at most ONE in magnitude (R140, R142). -/
theorem fmag_lookup_plain_le (hc : c.wellFormed = true) (h : c.sineInterp = false) (p : F32) :
    fmag (lookup c p) ≤ 0x3F800000 := by
  obtain ⟨-, -, -, -, -, h16, -⟩ := wellFormed_bounds hc
  rw [lookup_plain h, sineEntry_eq_sineStep]
  exact fmag_sineStep_le (stride_lt h16 (tableIndex_lt c _))

/-- The offset is a lookup times a depth times PI, the first two at most ONE in magnitude (R201). -/
theorem fmag_pwmOffset_le (hc : c.wellFormed = true) (hi : c.sineInterp = false) (hd : depthOk tr.pwmDepth = true) :
    fmag (pwmOffset c tr) ≤ fmag fPi := by
  cases h : pwmActive tr with
  | false =>
    rw [pwmOffset_inactive h]
    decide
  | true =>
    have hdepth : fmag tr.pwmDepth ≤ 0x3F800000 := (Nat.mod_le _ _).trans (depthOk_iff.mp hd)
    have hscaled : fmag (fmul tr.pwmDepth fPi) ≤ fmag fPi := fmag_fmul_le hdepth (by decide)
    rw [pwmOffset_active h]
    exact (fmag_fmul_le (fmag_lookup_plain_le hc hi _) (hscaled.trans_lt (by decide))).trans hscaled

end Offset

/-- Settles O37: the range is a bound on the magnitude, and a ZERO increment adds nothing to the phase. -/
theorem pwmOffsetIsBounded : Obligations.PwmOffsetIsBounded := by
  intro c tr hc
  refine ⟨pwmOffset_inactive, fun hphase hinc => ?_, fun hi hd => ?_⟩
  · have hwrap : wrap (fadd tr.pwmPhase tr.pwmPhaseIncrement) = tr.pwmPhase := by
      rw [hinc]
      exact wrap_fadd_zero hphase
    rw [advancePwmPhase, hwrap]
  · exact (fmag_le_iff (b := fPi) (by decide)).mp (fmag_pwmOffset_le hc hi hd)

end Sys2Proof.Machine

/-! PROOFS. The renderer (45_render.md; O39, O42, O43, O44, O46): what a track mixes in and leaves behind, the tracks that
mix in nothing, and the words of the buffer as bytes. -/

namespace Sys2Proof.Machine

theorem render_acc_length (c : Config) (tracks : List Track) (n d : Nat) : (render c tracks n d).acc.length = n :=
  (renderTracks_length c n tracks (zeroFrames n) d).1.trans List.length_replicate

/-! The per-sample loop (R214). -/

/-- One phase advance (R202, R214 (f)). -/
def nextPhase (inc p : F32) : F32 := wrap (fadd p inc)

/-- A track after k rendered samples: both phases advanced k times. -/
def afterSamples (tr : Track) (k : Nat) : Track :=
  { tr with
    phase := (nextPhase tr.phaseIncrement)^[k] tr.phase
    pwmPhase := (nextPhase tr.pwmPhaseIncrement)^[k] tr.pwmPhase }

theorem afterSamples_succ (tr : Track) (k : Nat) : afterSamples tr (k + 1) = afterSamples (afterSamples tr 1) k := by
  unfold afterSamples
  rw [Function.iterate_succ_apply, Function.iterate_succ_apply]
  rfl

/-- An advance of the envelope and the phase advances do not meet (R154, R214). -/
theorem afterSamples_advance (c : Config) (tr : Track) (n k : Nat) : afterSamples (advance c tr n).1 k =
    { afterSamples tr k with
      currentFactor := (advance c tr n).1.currentFactor
      envState := (advance c tr n).1.envState } := by
  rw [advance_shape]
  rfl

/-- The word a track adds to a frame: the generator's value at the present phases and offset, times the block's factor
(R214 (a), (c), (d)). -/
def sampleWord (c : Config) (g : F32) (tr : Track) (d : Nat) : F32 :=
  fmul (gen c tr.waveform tr.phase tr.phaseIncrement (pwmOffset c tr) d).1 g

/-- One word mixed into both channels of a frame (R215). -/
def mixed (frame : Frame) (y : F32) : Frame := (fadd frame.1 y, fadd frame.2 y)

/-- The draws a track has left behind it after k samples, if d were taken before the block (R186). -/
def drawnAfter (w : Waveform) (d k : Nat) : Nat := if w = .noise then d + k else d

theorem drawnAfter_zero (w : Waveform) (d : Nat) : drawnAfter w d 0 = d := ite_self d

theorem drawnAfter_succ (w : Waveform) (d k : Nat) : drawnAfter w d (k + 1) = drawnAfter w (drawnAfter w d 1) k := by
  unfold drawnAfter
  split_ifs <;> omega

theorem gen_drawnAfter (c : Config) (w : Waveform) (phase inc off : F32) (d : Nat) :
    (gen c w phase inc off d).2 = drawnAfter w d 1 := by
  rw [gen_drawn, drawnAfter]
  split_ifs <;> rfl

/-- One round of the loop: the first frame takes the track's word, the others are left to the track after one sample. -/
theorem renderFrames_cons (c : Config) (g : F32) (frame : Frame) (rest : List Frame) (tr : Track) (d : Nat) :
    (renderFrames c g (frame :: rest) tr d).1 = mixed frame (sampleWord c g tr d) ::
      (renderFrames c g rest (afterSamples tr 1) (drawnAfter tr.waveform d 1)).1 := by
  rw [← gen_drawnAfter c tr.waveform tr.phase tr.phaseIncrement (pwmOffset c tr)]
  rfl

/-- Frame k takes the word of the track after k samples. -/
theorem renderFrames_get (c : Config) (g : F32) : ∀ (acc : List Frame) (tr : Track) (d k : Nat) (frame : Frame),
    acc[k]? = some frame → (renderFrames c g acc tr d).1[k]? =
      some (mixed frame (sampleWord c g (afterSamples tr k) (drawnAfter tr.waveform d k)))
  | [], _, _, _, _, h => by simp at h
  | _ :: rest, tr, d, 0, frame, h => by
    obtain rfl : _ = frame := by simpa using h
    rw [renderFrames_cons, drawnAfter_zero]
    rfl
  | _ :: rest, tr, d, k + 1, frame, h => by
    rw [renderFrames_cons, List.getElem?_cons_succ, drawnAfter_succ _ _ k, afterSamples_succ]
    exact renderFrames_get c g rest (afterSamples tr 1) (drawnAfter tr.waveform d 1) k frame h

theorem renderFrames_track (c : Config) (g : F32) : ∀ (acc : List Frame) (tr : Track) (d : Nat),
    (renderFrames c g acc tr d).2.1 = afterSamples tr acc.length
  | [], _, _ => rfl
  | _ :: rest, tr, _ => by
    rw [List.length_cons, afterSamples_succ]
    exact renderFrames_track c g rest (afterSamples tr 1) _

/-- Settles O44: the loop's frames and track, for the track that the envelope's advance leaves. -/
theorem framesFollowTheSampleSequence : Obligations.FramesFollowTheSampleSequence := by
  intro c tr n d acc hen hend phaseAfter pwmPhaseAfter g
  rw [renderTrack_of_sounding hen hend]
  refine ⟨fun k left right hframe => ?_, renderFrames_length .., ?_⟩
  · have hget := renderFrames_get c g acc (advance c tr n).1 d k (left, right) hframe
    rw [afterSamples_advance, advance_waveform] at hget
    exact hget
  · rw [renderFrames_track, afterSamples_advance]
    rfl

/-! The tracks that mix nothing in (R213, R217). -/

/-- A track that mixes nothing in: disabled at the start, or ended by the advance. -/
def Silent (c : Config) (n : Nat) (tr : Track) : Prop := tr.enabled = false ∨ (advance c tr n).2 = true

theorem renderTrack_of_silent {c : Config} {n : Nat} {tr : Track} (h : Silent c n tr) (acc : List Frame) (d : Nat) :
    ∃ tr', renderTrack c n acc tr d = (acc, tr', d) := by
  cases hen : tr.enabled with
  | false => exact ⟨_, renderTrack_of_disabled hen acc d⟩
  | true =>
    have hend : (advance c tr n).2 = true := h.resolve_left (by simp [hen])
    exact ⟨_, renderTrack_of_ended hen (Prod.ext rfl hend) acc d⟩

/-! Both channels (R215). -/

/-- Both channels of every frame carry the same word. -/
def SameChannels (acc : List Frame) : Prop := ∀ frame ∈ acc, frame.1 = frame.2

theorem sameChannels_renderFrames (c : Config) (g : F32) : ∀ (acc : List Frame) (tr : Track) (d : Nat),
    SameChannels acc → SameChannels (renderFrames c g acc tr d).1
  | [], _, _, h => h
  | _ :: rest, _, _, h => by
    obtain ⟨hhead, hrest⟩ := List.forall_mem_cons.mp h
    rw [renderFrames_cons]
    exact List.forall_mem_cons.mpr ⟨congrArg (fadd · _) hhead, sameChannels_renderFrames c g rest _ _ hrest⟩

/-- A track's part leaves the frames to the per-sample loop, or as they are. -/
theorem sameChannels_renderTrack {c : Config} {n : Nat} {acc : List Frame} (h : SameChannels acc) (tr : Track) (d : Nat) :
    SameChannels (renderTrack c n acc tr d).1 := by
  by_cases hs : Silent c n tr
  · obtain ⟨tr', heq⟩ := renderTrack_of_silent hs acc d
    rwa [heq]
  · obtain ⟨hen, hend⟩ := not_or.mp hs
    rw [renderTrack_of_sounding (Bool.of_not_eq_false hen) (Bool.of_not_eq_true hend)]
    exact sameChannels_renderFrames c _ acc _ d h

theorem sameChannels_renderTracks (c : Config) (n : Nat) : ∀ (trs : List Track) (acc : List Frame) (d : Nat),
    SameChannels acc → SameChannels (renderTracks c n trs acc d).acc
  | [], _, _, h => h
  | tr :: trs, _, d, h => sameChannels_renderTracks c n trs _ _ (sameChannels_renderTrack h tr d)

/-- Settles O42: the zero frames have equal channels, and each track's part keeps them so. -/
theorem leftEqualsRight : Obligations.LeftEqualsRight := fun c tracks n d =>
  ⟨render_acc_length c tracks n d,
    sameChannels_renderTracks c n tracks _ d fun _ hframe => by rw [List.eq_of_mem_replicate hframe]⟩

/-! A rendering with and without a silent track (R217). -/

theorem renderTracks_insert_silent {c : Config} {n : Nat} {tr : Track} (h : Silent c n tr) (after : List Track) :
    ∀ (before : List Track) (acc : List Frame) (d : Nat),
      (renderTracks c n (before ++ tr :: after) acc d).acc = (renderTracks c n (before ++ after) acc d).acc ∧
      (renderTracks c n (before ++ tr :: after) acc d).drawn = (renderTracks c n (before ++ after) acc d).drawn
  | [], acc, d => by
    obtain ⟨tr', heq⟩ := renderTrack_of_silent h acc d
    simp [renderTracks, heq]
  | _ :: before, _, _ => renderTracks_insert_silent h after before _ _

theorem renderTracks_insert_disabled {c : Config} {n : Nat} {tr : Track} (h : tr.enabled = false) (after : List Track) :
    ∀ (before : List Track) (acc : List Frame) (d : Nat),
      (renderTracks c n (before ++ tr :: after) acc d).tracks =
        (renderTracks c n (before ++ after) acc d).tracks.take before.length ++
          tr :: (renderTracks c n (before ++ after) acc d).tracks.drop before.length
  | [], acc, d => by simp [renderTracks, renderTrack_of_disabled h]
  | _ :: before, _, _ => congrArg (_ :: ·) (renderTracks_insert_disabled h after before _ _)

theorem renderTracks_of_silent {c : Config} {n : Nat} : ∀ (trs : List Track) (acc : List Frame) (d : Nat),
    (∀ tr ∈ trs, Silent c n tr) →
    (renderTracks c n trs acc d).acc = acc ∧ (renderTracks c n trs acc d).drawn = d
  | [], _, _, _ => ⟨rfl, rfl⟩
  | _ :: trs, acc, d, h => by
    obtain ⟨htr, htrs⟩ := List.forall_mem_cons.mp h
    obtain ⟨tr', heq⟩ := renderTrack_of_silent htr acc d
    simpa [renderTracks, heq] using renderTracks_of_silent trs acc d htrs

/-- Settles O43: a silent track passes the frames and the draws on as it got them. -/
theorem silentTrackContributesNothing : Obligations.SilentTrackContributesNothing := by
  refine ⟨fun c before after tr n d h => ?_, fun c tracks n d h => renderTracks_of_silent tracks _ d h⟩
  obtain ⟨hacc, hdrawn⟩ := renderTracks_insert_silent h after before (zeroFrames n) d
  exact ⟨hacc, hdrawn, fun hdis => renderTracks_insert_disabled hdis after before (zeroFrames n) d⟩

/-! No frames (R218). -/

/-- What a RENDER into no frames does to one track: R213's envelope advance, and the end of a track that has ended. -/
def advanceTrack (c : Config) (n : Nat) (tr : Track) : Track :=
  if tr.enabled = true then
    (if (advance c tr n).2 = true then { (advance c tr n).1 with enabled := false } else (advance c tr n).1)
  else tr

theorem renderTrack_no_frames (c : Config) (n : Nat) (tr : Track) (d : Nat) :
    renderTrack c n [] tr d = ([], advanceTrack c n tr, d) := by
  unfold advanceTrack
  split_ifs with hen hend
  · exact renderTrack_of_ended hen (Prod.ext rfl hend) [] d
  · exact renderTrack_of_sounding hen (Bool.of_not_eq_true hend) [] d
  · exact renderTrack_of_disabled (Bool.of_not_eq_true hen) [] d

theorem renderTracks_no_frames (c : Config) (n d : Nat) : ∀ trs : List Track,
    renderTracks c n trs [] d = ⟨trs.map (advanceTrack c n), [], d⟩
  | [] => rfl
  | tr :: trs => by simp [renderTracks, renderTrack_no_frames, renderTracks_no_frames c n d trs]

theorem drawsInRange_self (c : Config) (d : Nat) : drawsInRange c d d = true := by
  have hnone : (c.noise.take d).drop d = [] := List.drop_eq_nil_of_le (List.length_take_le d c.noise)
  rw [drawsInRange, hnone]
  rfl

/-- Settles O46: an empty buffer needs no memory and no draw, and an empty accumulator moves no phase. -/
theorem zeroLengthRender : Obligations.ZeroLengthRender := by
  intro s l ⟨hlatch, _⟩ hn
  have hrendering : rendering l s = ⟨s.tracks.map (advanceTrack s.cfg 0), [], s.noiseDrawn⟩ := by
    rw [rendering, hn]
    exact renderTracks_no_frames s.cfg 0 s.noiseDrawn s.tracks
  have hdecl : bufferDeclared s.cfg l.arg0.toNat l.arg1.toNat = true := by
    rw [hn]
    rfl
  have hdraws : drawsInRange s.cfg s.noiseDrawn (rendering l s).drawn = true := by
    rw [hrendering]
    exact drawsInRange_self s.cfg s.noiseDrawn
  rw [exec_render_of hlatch hdecl hdraws, renderedState, renderedMemory, renderedWords, hrendering]
  rfl

/-! The buffer, byte by byte (R73, R76, R216). -/

theorem byteOfWord_wordOfBytes (b0 b1 b2 b3 : Byte) :
    byteOfWord (wordOfBytes b0 b1 b2 b3) 0 = b0 ∧ byteOfWord (wordOfBytes b0 b1 b2 b3) 1 = b1 ∧
    byteOfWord (wordOfBytes b0 b1 b2 b3) 2 = b2 ∧ byteOfWord (wordOfBytes b0 b1 b2 b3) 3 = b3 := by
  refine ⟨?_, ?_, ?_, ?_⟩ <;>
    (apply BitVec.eq_of_toNat_eq
     simp only [byteOfWord_toNat, wordOfBytes, BitVec.toNat_ofNat]
     omega)

/-- A word that has been written lies in memory as its four bytes (R73). -/
theorem readByte_of_readWord {m : Memory} {a : Nat} {v : Word} (h : readWord m a = some v) {j : Nat} (hj : j < 4) :
    readByte m (a + j) = some (byteOfWord v j) := by
  unfold readWord at h
  split at h
  next b0 b1 b2 b3 h0 h1 h2 h3 =>
    injection h with h
    obtain ⟨e0, e1, e2, e3⟩ := byteOfWord_wordOfBytes b0 b1 b2 b3
    rw [← h]
    obtain rfl | rfl | rfl | rfl : j = 0 ∨ j = 1 ∨ j = 2 ∨ j = 3 := by omega
    · rw [e0]
      exact h0
    · rw [e1]
      exact h1
    · rw [e2]
      exact h2
    · rw [e3]
      exact h3
  · cases h

/-- Without a host write in flight every word is the RENDER's, so no free value is taken. -/
theorem renderedMemory_fresh {l : Latch} {s : State} (h : s.raced = []) : (renderedMemory l s).2 = s.fresh := by
  have hfresh (ws : List Word) (a : Nat) (m : Memory) :
      (commitWords (completionFate []) ws a m s.fresh).2 = s.fresh := by
    induction ws generalizing a m with
    | nil => rfl
    | cons v vs ih => exact ih _ _
  rw [renderedMemory, h]
  exact hfresh ..

/-- No byte outside the buffer is written (R76). -/
theorem readByte_renderedMemory_outside {l : Latch} {s : State} {a : Nat}
    (h : a < l.arg0.toNat ∨ l.arg0.toNat + 8 * l.arg1.toNat ≤ a) :
    readByte (renderedMemory l s).1 a = readByte s.mem a := by
  refine commitWords_outside _ _ _ _ _ ?_
  rw [renderedWords_length]
  omega

/-- Without a host write in flight both words of a frame lie in the buffer at the frame's place (R74, R216). -/
theorem readWord_renderedMemory_frame {l : Latch} {s : State} (hraced : s.raced = []) {k : Nat} {left right : F32}
    (h : (rendering l s).acc[k]? = some (left, right)) :
    readWord (renderedMemory l s).1 (l.arg0.toNat + 8 * k) = some left ∧
    readWord (renderedMemory l s).1 (l.arg0.toNat + 8 * k + 4) = some right := by
  obtain ⟨hleft, hright⟩ := frameWords_get _ k left right h
  have hword {j : Nat} {v : Word} (hj : (renderedWords l s)[j]? = some v) :=
    readWord_renderedMemory hj (by simp [hraced])
  have hl : l.arg0.toNat + 8 * k = l.arg0.toNat + 4 * (2 * k) := by omega
  have hr : l.arg0.toNat + 8 * k + 4 = l.arg0.toNat + 4 * (2 * k + 1) := by omega
  rw [hr, hl]
  exact ⟨hword hleft, hword hright⟩

/-- Only the completion of a RENDER writes memory (R216). -/
theorem exec_mem {i : Instr} {s t : State} (h : exec i s = .next t) (hi : i ≠ .render ∨ s.latch = none) :
    t.mem = s.mem := by
  rcases exec_next h with ⟨-, e, -, rfl⟩ | ⟨-, -, rfl⟩ | ⟨l, -, -, rfl⟩ | ⟨l, hl, hr, -⟩
  · rfl
  · rfl
  · rfl
  · rcases hi with hi | hi
    · exact absurd hr hi
    · cases hl.symm.trans hi

/-- Settles O39: the bytes are those of the words `renderedMemory` leaves. -/
theorem renderWritesItsBuffer : Obligations.RenderWritesItsBuffer := by
  refine ⟨fun s l ⟨hlatch, _⟩ hdecl hdraws hraced => ⟨(renderedMemory l s).1, ?_, render_acc_length .., ?_, ?_⟩,
    fun i s t => exec_mem⟩
  · rw [exec_render_of hlatch hdecl hdraws, renderedState, finish, renderedMemory_fresh hraced, ← hraced]
  · intro k j left right hframe hj
    obtain ⟨hleft, hright⟩ := readWord_renderedMemory_frame hraced hframe
    exact ⟨readByte_of_readWord hleft hj, readByte_of_readWord hright hj⟩
  · exact fun a => readByte_renderedMemory_outside

end Sys2Proof.Machine

/-! PROOFS. Noninterference between the tracks (R243; O59): a track command reaches its own track alone, and only a
completion or a reset reaches any. -/

namespace Sys2Proof.Machine

/-- A command to one track leaves every other as it is, presented or completed (R243). -/
theorem exec_other_track {i : Instr} {s t : State} {k : Nat} (h : exec i s = .next t) (hi : i ≠ .render)
    (hk : k ≠ i.track) : t.tracks[k]? = s.tracks[k]? := by
  rcases exec_tracks h with ⟨-, ht⟩ | ⟨l, -, ht⟩
  · rw [ht]
  · rw [ht, if_neg hi, List.getElem?_modify_ne _ _ hk.symm]

/-- Without a completion and without a reset a step leaves every track as it is. -/
theorem step_tracks_of_no_completion {s t : State} (h : step s = .next t)
    (hreset : ∀ rest, s.agenda ≠ .resetAssert :: rest)
    (hnone : s.latch = none ∨ (¬ BlockTurn s ∧ ∀ rest, s.agenda ≠ .complete :: rest)) : t.tracks = s.tracks := by
  rcases step_tracks h with ht | ⟨⟨rest, hrest⟩, -⟩ | ⟨l, i, hturn, ⟨hl, -⟩, -⟩
  · exact ht
  · exact absurd hrest (hreset rest)
  · rcases hnone with hidle | ⟨hblock, hagenda⟩
    · cases hl.symm.trans hidle
    · rcases hturn with hturn | ⟨rest, hrest⟩
      · exact absurd hturn hblock
      · exact absurd hrest (hagenda rest)

/-- Settles O59: one command's effect on the tracks, and one step's. -/
theorem otherTracksAreUntouched : Obligations.OtherTracksAreUntouched :=
  ⟨fun _ _ _ _ => exec_other_track, fun _ _ => step_tracks_of_no_completion⟩

end Sys2Proof.Machine

/-! PROOFS. Reset in flight (R262; O55): what an abandoned command leaves in memory. -/

namespace Sys2Proof.Machine

/-- Only a RENDER in flight has a buffer to abandon. -/
theorem inFlight_of_not_render {s : State} {i : Instr} {l : Latch} (hc : Completing s i l) (hi : i ≠ .render) :
    inFlight s = none := by
  obtain ⟨hlatch, hdecode⟩ := hc
  rw [Option.eq_none_iff_forall_ne_some]
  intro l' hl'
  obtain ⟨hlatch', hdecode'⟩ := completing_of_inFlight hl'
  obtain rfl : l = l' := Option.some.inj (hlatch.symm.trans hlatch')
  exact hi (Except.ok.inj (hdecode.symm.trans hdecode'))

/-- A command other than RENDER leaves nothing in memory when reset abandons it. -/
theorem mem_assertReset_of_not_render {s : State} {i : Instr} {l : Latch} (hc : Completing s i l) (hi : i ≠ .render) :
    (assertReset s).mem = s.mem := by
  simp only [assertReset, inFlight_of_not_render hc hi]

/-- An abandoned RENDER leaves its words by the fate of each. -/
theorem mem_assertReset_of_render {s : State} {l : Latch} (hc : Completing s .render l) :
    (assertReset s).mem = (commitWords (abandonFate s.cfg) (renderedWords l s) l.arg0.toNat s.mem s.fresh).1 := by
  simp only [assertReset, inFlight_eq_some_iff.mpr hc, abandonRender]

/-- An abandoned RENDER changes no byte outside its buffer. -/
theorem readByte_assertReset_outside {s : State} {l : Latch} {a : Nat} (hc : Completing s .render l)
    (h : a < l.arg0.toNat ∨ l.arg0.toNat + 8 * l.arg1.toNat ≤ a) :
    readByte (assertReset s).mem a = readByte s.mem a := by
  rw [mem_assertReset_of_render hc]
  refine commitWords_outside _ _ _ _ _ ?_
  rw [renderedWords_length]
  omega

/-- A word of an abandoned RENDER's buffer is the RENDER's or the old one; where no memory is declared it is the old one. -/
theorem readWord_assertReset {s : State} {l : Latch} {j : Nat} {v : Word} (hc : Completing s .render l)
    (hword : (renderedWords l s)[j]? = some v) :
    readWord (assertReset s).mem (l.arg0.toNat + 4 * j) = some v ∨
      readWord (assertReset s).mem (l.arg0.toNat + 4 * j) = readWord s.mem (l.arg0.toNat + 4 * j) := by
  rw [mem_assertReset_of_render hc]
  have hends := commitWords_word (abandonFate s.cfg) _ l.arg0.toNat s.mem s.fresh hword
  cases hdecl : wordDeclared s.cfg (l.arg0.toNat + 4 * j) with
  | true =>
    rw [abandonFate, if_pos hdecl] at hends
    exact hends
  | false =>
    rw [abandonFate, if_neg (Bool.eq_false_iff.mp hdecl)] at hends
    exact .inr hends

/-- Settles O55: the assertion is the move, and the memory it leaves is by the kind of the command in flight. -/
theorem resetAbandonsTheCommand : Obligations.ResetAbandonsTheCommand := by
  intro s i l rest hc ha
  have hc' : Completing { s with agenda := rest } i l := hc
  refine ⟨assertReset { s with agenda := rest }, step_eq_move ha nofun, ?_, ?_, mem_assertReset_of_not_render hc', ?_⟩
  · rw [assertReset_shape]
    rfl
  · rw [assertReset_shape]
    rfl
  · rintro rfl
    exact ⟨fun _ => readByte_assertReset_outside hc', fun _ _ => readWord_assertReset hc'⟩

end Sys2Proof.Machine
